-- ==== Sys2Proof/Word.lean ====
section
/-! DEFINITION. The two word types of a command (30_encoding.md R58). -/

namespace Sys2Proof

/-- A field identifier, and one entry of a table upload: 8 bits (R58). -/
abbrev Byte := BitVec 8

/-- The value a scalar command carries: 32 bits, unsigned (R58). -/
abbrev Word := BitVec 32

end Sys2Proof
end

