-- ==== Sys2Proof/Syntax.lean ====
section
/-! DEFINITION. Channels, commands, instructions, and the spec's assembler lines and pseudo-instructions (30_encoding.md). -/

namespace Sys2Proof

/-- The six channels (R3): 1 to 4 standard, 5 sweep/modulation, 6 noise. -/
inductive Channel where
  | ch1
  | ch2
  | ch3
  | ch4
  | ch5
  | ch6
  deriving DecidableEq, Repr

/-- The wave channels 1 to 5 (R3), which read wavetables. -/
inductive WaveChannel where
  | ch1
  | ch2
  | ch3
  | ch4
  | ch5
  deriving DecidableEq, Repr

/-- The 32 data bytes of a table upload, in index order (R58). -/
structure Payload where
  bytes : List Byte
  length_eq : bytes.length = 32
  deriving DecidableEq, Repr

/-- The two command formats (R58). -/
inductive Format where
  | W
  | T
  deriving DecidableEq, Repr

/-- A command as the host issues it (R58): there are two formats and no others. -/
inductive Command where
  /-- Format W: a field identifier and a 32-bit value. -/
  | w (fid : Byte) (value : Word)
  /-- Format T: a field identifier and 32 bytes. -/
  | t (fid : Byte) (data : Payload)
  deriving DecidableEq, Repr

def Command.format : Command → Format
  | .w _ _ => .W
  | .t _ _ => .T

def Command.fid : Command → Byte
  | .w fid _ => fid
  | .t fid _ => fid

/-- The per-channel codes of R62, in the order of its table. -/
inductive FieldKind where
  | chen
  | inten
  | intset
  | envrld
  | envdir
  | envstp
  | envrpt
  | enven
  | freq
  | voll
  | volr
  | wavsel
  | tap
  | swdir
  | swen
  | swfunc
  | swint
  | swshift
  | swbase
  | modfreq
  | modrpt
  deriving DecidableEq, Repr

/-- The instructions: one constructor per mnemonic of the opcode table, its rows differing in the channel or table number.
Operands are already reduced to their field (R60). Channel 5 and channel 6 are implied where a field exists on one channel
only (R68). -/
inductive Instr where
  /-- CHEN c, v (R71). -/
  | chen (c : Channel) (b : Bool)
  /-- INTEN c, v (R72). -/
  | inten (c : Channel) (b : Bool)
  /-- INTSET c, v (R73). -/
  | intset (c : Channel) (v : BitVec 5)
  /-- ENVRLD c, v (R74). -/
  | envrld (c : Channel) (v : BitVec 4)
  /-- ENVDIR c, v (R75). -/
  | envdir (c : Channel) (b : Bool)
  /-- ENVSTP c, v (R76). -/
  | envstp (c : Channel) (v : BitVec 5)
  /-- ENVRPT c, v (R77). -/
  | envrpt (c : Channel) (b : Bool)
  /-- ENVEN c, v (R78). -/
  | enven (c : Channel) (b : Bool)
  /-- FREQ c, v (R79). -/
  | freq (c : Channel) (v : Word)
  /-- VOLL c, v (R80). -/
  | voll (c : Channel) (v : BitVec 4)
  /-- VOLR c, v (R81). -/
  | volr (c : Channel) (v : BitVec 4)
  /-- WAVSEL c, v (R82); well-formed on channels 1 to 5 only. -/
  | wavsel (c : Channel) (v : BitVec 3)
  /-- TAP 6, v (R83). -/
  | tap (v : BitVec 3)
  /-- SWDIR v (R84). -/
  | swdir (b : Bool)
  /-- SWEN v (R85). -/
  | swen (b : Bool)
  /-- SWFUNC v (R86). -/
  | swfunc (b : Bool)
  /-- SWINT v (R87). -/
  | swint (v : BitVec 3)
  /-- SWSHIFT v (R88). -/
  | swshift (v : BitVec 3)
  /-- SWBASE v (R89). -/
  | swbase (b : Bool)
  /-- MODFREQ v (R90). -/
  | modfreq (v : BitVec 16)
  /-- MODRPT v (R91). -/
  | modrpt (b : Bool)
  /-- WAVUP t, data (R94). -/
  | wavup (t : Fin 5) (data : Payload)
  /-- MODUP data (R95). -/
  | modup (data : Payload)
  /-- ADVANCE n (R97). -/
  | advance (n : Word)
  deriving DecidableEq, Repr

/-- A line of the spec's assembler (R68): a field write with its unreduced value, an upload, ADVANCE, or RAW. -/
inductive AsmLine where
  | field (k : FieldKind) (c : Channel) (value : Word)
  | wavup (t : Fin 5) (data : Payload)
  | modup (data : Payload)
  | advance (n : Word)
  | raw (fid : Byte) (value : Word)
  deriving DecidableEq, Repr

/-- The pseudo-instructions of R69. -/
inductive Pseudo where
  | nop
  | play (c : Channel)
  | stop (c : Channel)
  | vol (c : Channel) (l r : Word)
  | env (c : Channel) (rl up st rp : Word)
  | duration (c : Channel) (n : Word)
  | wavefill (t : Fin 5) (b : Byte)
  deriving DecidableEq, Repr

end Sys2Proof
end

