-- ==== Sys2Proof/WellFormed.lean ====
section
/-! DEFINITION. The one operand check the instruction's type does not make: WAVSEL exists on the wave channels only
(30_encoding.md R62, R66). -/

namespace Sys2Proof

/-- An instruction some command decodes to: WAVSEL names a wave channel (R62 "valid channels" 1..5). Every other operand
lies in its range by its type. -/
def wellFormed (i : Instr) : Bool :=
  match i with
  | .wavsel c _ => c != .ch6
  | .chen _ _ => true
  | .inten _ _ => true
  | .intset _ _ => true
  | .envrld _ _ => true
  | .envdir _ _ => true
  | .envstp _ _ => true
  | .envrpt _ _ => true
  | .enven _ _ => true
  | .freq _ _ => true
  | .voll _ _ => true
  | .volr _ _ => true
  | .tap _ => true
  | .swdir _ => true
  | .swen _ => true
  | .swfunc _ => true
  | .swint _ => true
  | .swshift _ => true
  | .swbase _ => true
  | .modfreq _ => true
  | .modrpt _ => true
  | .wavup _ _ => true
  | .modup _ => true
  | .advance _ => true

/-- `wellFormed` as a decidable proposition. -/
abbrev WellFormed (i : Instr) : Prop := wellFormed i = true

end Sys2Proof
end

