-- ==== Sys2Proof/Decode.lean ====
section
/-! DEFINITION. The command encoding (30_encoding.md): the field-identifier map, operand reduction, the total decoder, the
encoder written from the same map, the opcode table's rows as data, the spec's assembler and pseudo-instructions, and the
numeric form in which the opcode table numbers a command's bits. -/

namespace Sys2Proof

/-! ## Field identifiers (R59, R62, R63) -/

/-- Channels 1 to 6 in ascending order. -/
def Channel.all : List Channel := [.ch1, .ch2, .ch3, .ch4, .ch5, .ch6]

/-- The channel a wave channel is (R3). -/
def WaveChannel.channel : WaveChannel → Channel
  | .ch1 => .ch1
  | .ch2 => .ch2
  | .ch3 => .ch3
  | .ch4 => .ch4
  | .ch5 => .ch5

/-- The wave channels in ascending order. -/
def WaveChannel.all : List WaveChannel := [.ch1, .ch2, .ch3, .ch4, .ch5]

/-- A channel as a wave channel; none for channel 6 (R3, R31). -/
def Channel.wave? : Channel → Option WaveChannel
  | .ch1 => some .ch1
  | .ch2 => some .ch2
  | .ch3 => some .ch3
  | .ch4 => some .ch4
  | .ch5 => some .ch5
  | .ch6 => none

/-- The channel selector `fid[7:5]` of a channel: its number (R59). -/
def Channel.selector : Channel → BitVec 3
  | .ch1 => 1
  | .ch2 => 2
  | .ch3 => 3
  | .ch4 => 4
  | .ch5 => 5
  | .ch6 => 6

/-- The channel a selector names; none for 0 (the global codes) and 7 (reserved) (R59). -/
def Channel.ofSelector (sel : BitVec 3) : Option Channel := Channel.all.find? fun c => c.selector == sel

/-- The per-channel codes in the order of R62's table. -/
def FieldKind.all : List FieldKind :=
  [.chen, .inten, .intset, .envrld, .envdir, .envstp, .envrpt, .enven, .freq, .voll, .volr, .wavsel, .tap,
   .swdir, .swen, .swfunc, .swint, .swshift, .swbase, .modfreq, .modrpt]

/-- The code column of R62. -/
def FieldKind.code : FieldKind → BitVec 5
  | .chen => 0x00
  | .inten => 0x01
  | .intset => 0x02
  | .envrld => 0x03
  | .envdir => 0x04
  | .envstp => 0x05
  | .envrpt => 0x06
  | .enven => 0x07
  | .freq => 0x08
  | .voll => 0x09
  | .volr => 0x0A
  | .wavsel => 0x0B
  | .tap => 0x0C
  | .swdir => 0x10
  | .swen => 0x11
  | .swfunc => 0x12
  | .swint => 0x13
  | .swshift => 0x14
  | .swbase => 0x15
  | .modfreq => 0x16
  | .modrpt => 0x17

/-- The field kind of a code; none for the reserved codes 0x0D to 0x0F and 0x18 to 0x1F (R62). -/
def FieldKind.ofCode (code : BitVec 5) : Option FieldKind := FieldKind.all.find? fun k => k.code == code

/-- The "valid channels" column of R62. -/
def FieldKind.validOn : FieldKind → Channel → Bool
  | .chen, _ => true
  | .inten, _ => true
  | .intset, _ => true
  | .envrld, _ => true
  | .envdir, _ => true
  | .envstp, _ => true
  | .envrpt, _ => true
  | .enven, _ => true
  | .freq, _ => true
  | .voll, _ => true
  | .volr, _ => true
  | .wavsel, c => c != .ch6
  | .tap, c => c == .ch6
  | .swdir, c => c == .ch5
  | .swen, c => c == .ch5
  | .swfunc, c => c == .ch5
  | .swint, c => c == .ch5
  | .swshift, c => c == .ch5
  | .swbase, c => c == .ch5
  | .modfreq, c => c == .ch5
  | .modrpt, c => c == .ch5

/-- `fid[7:5]`, the channel selector (R59). -/
def fidSelector (fid : Byte) : BitVec 3 := fid.extractLsb' 5 3

/-- `fid[4:0]`, the field code (R59). -/
def fidCode (fid : Byte) : BitVec 5 := fid.extractLsb' 0 5

/-- `fid = 32*chan + code` (R59). -/
def fidOf (chan : BitVec 3) (code : BitVec 5) : Byte := chan ++ code

/-- The global code of ADVANCE (R63). -/
def advanceCode : BitVec 5 := 0x1F

/-- The global code of MODUP (R63); WAVUP t has code t below it. -/
def modupCode : BitVec 5 := 0x05

/-! ## Operand reduction (R60) -/

/-- `bool(value) = (value[0] == 1)` (R13, R60). -/
def asBool (v : Word) : Bool := v.getLsbD 0

/-- `value[2:0]` (R60). -/
def asU3 (v : Word) : BitVec 3 := v.setWidth 3

/-- `value[3:0]` (R60). -/
def asU4 (v : Word) : BitVec 4 := v.setWidth 4

/-- `value[4:0]` (R60). -/
def asU5 (v : Word) : BitVec 5 := v.setWidth 5

/-- `value[15:0]` (R60). -/
def asU16 (v : Word) : BitVec 16 := v.setWidth 16

/-- The command of R62's row `k` on channel `c`, its operand reduced by R60. -/
def FieldKind.instr (k : FieldKind) (c : Channel) (v : Word) : Instr :=
  match k with
  | .chen => .chen c (asBool v)
  | .inten => .inten c (asBool v)
  | .intset => .intset c (asU5 v)
  | .envrld => .envrld c (asU4 v)
  | .envdir => .envdir c (asBool v)
  | .envstp => .envstp c (asU5 v)
  | .envrpt => .envrpt c (asBool v)
  | .enven => .enven c (asBool v)
  | .freq => .freq c v
  | .voll => .voll c (asU4 v)
  | .volr => .volr c (asU4 v)
  | .wavsel => .wavsel c (asU3 v)
  | .tap => .tap (asU3 v)
  | .swdir => .swdir (asBool v)
  | .swen => .swen (asBool v)
  | .swfunc => .swfunc (asBool v)
  | .swint => .swint (asU3 v)
  | .swshift => .swshift (asU3 v)
  | .swbase => .swbase (asBool v)
  | .modfreq => .modfreq (asU16 v)
  | .modrpt => .modrpt (asBool v)

/-! ## The decoder (R64) -/

/-- Why an encoding is a no-op (R65, R66). -/
inductive NopReason where
  /-- `chan` = 7 (fid 0xE0 to 0xFF). -/
  | reservedChannel
  /-- `chan` = 0 with a code 0x06 to 0x1E. -/
  | reservedGlobalCode
  /-- `chan` = 1 to 6 with a code 0x0D to 0x0F or 0x18 to 0x1F. -/
  | reservedCode
  /-- A defined code sent to a channel that lacks the field (R66). -/
  | fieldAbsent
  /-- A T command to a scalar fid, or a W command to an upload's fid. -/
  | formatMismatch
  deriving DecidableEq, Repr

/-- What `Decode` answers (R64): a command of the table, or NOP with the reason. -/
inductive Decoded where
  | instr (i : Instr)
  | nop (why : NopReason)
  deriving DecidableEq, Repr

/-- A global command, `chan` = 0 (R63, R64). -/
def decodeGlobal (code : BitVec 5) (cmd : Command) : Decoded :=
  match cmd with
  | .t _ data =>
    if h : code.toNat < 5 then .instr (.wavup ⟨code.toNat, h⟩ data)
    else if code = modupCode then .instr (.modup data)
    else if code = advanceCode then .nop .formatMismatch
    else .nop .reservedGlobalCode
  | .w _ value =>
    if code = advanceCode then .instr (.advance value)
    else if code.toNat ≤ 5 then .nop .formatMismatch
    else .nop .reservedGlobalCode

/-- A per-channel command, `chan` = 1 to 6 (R62, R64). -/
def decodeField (c : Channel) (code : BitVec 5) (cmd : Command) : Decoded :=
  match FieldKind.ofCode code with
  | none => .nop .reservedCode
  | some k =>
    if k.validOn c then
      match cmd with
      | .w _ value => .instr (k.instr c value)
      | .t _ _ => .nop .formatMismatch
    else .nop .fieldAbsent

/-- `Decode` (R64): total, one outcome for every fid and format. -/
def decode (cmd : Command) : Decoded :=
  if fidSelector cmd.fid = 0 then decodeGlobal (fidCode cmd.fid) cmd
  else
    match Channel.ofSelector (fidSelector cmd.fid) with
    | none => .nop .reservedChannel
    | some c => decodeField c (fidCode cmd.fid) cmd

/-! ## The encoder -/

/-- The W command of row `k` of R62 on channel `c`. -/
def fieldCommand (k : FieldKind) (c : Channel) (v : Word) : Command := .w (fidOf c.selector k.code) v

/-- A Boolean operand as a value: bit 0 (R60). -/
def boolWord (b : Bool) : Word := if b then 1 else 0

/-- The command of an instruction, by the map of R62 and R63. -/
def encode : Instr → Command
  | .chen c b => fieldCommand .chen c (boolWord b)
  | .inten c b => fieldCommand .inten c (boolWord b)
  | .intset c v => fieldCommand .intset c (v.setWidth 32)
  | .envrld c v => fieldCommand .envrld c (v.setWidth 32)
  | .envdir c b => fieldCommand .envdir c (boolWord b)
  | .envstp c v => fieldCommand .envstp c (v.setWidth 32)
  | .envrpt c b => fieldCommand .envrpt c (boolWord b)
  | .enven c b => fieldCommand .enven c (boolWord b)
  | .freq c v => fieldCommand .freq c v
  | .voll c v => fieldCommand .voll c (v.setWidth 32)
  | .volr c v => fieldCommand .volr c (v.setWidth 32)
  | .wavsel c v => fieldCommand .wavsel c (v.setWidth 32)
  | .tap v => fieldCommand .tap .ch6 (v.setWidth 32)
  | .swdir b => fieldCommand .swdir .ch5 (boolWord b)
  | .swen b => fieldCommand .swen .ch5 (boolWord b)
  | .swfunc b => fieldCommand .swfunc .ch5 (boolWord b)
  | .swint v => fieldCommand .swint .ch5 (v.setWidth 32)
  | .swshift v => fieldCommand .swshift .ch5 (v.setWidth 32)
  | .swbase b => fieldCommand .swbase .ch5 (boolWord b)
  | .modfreq v => fieldCommand .modfreq .ch5 (v.setWidth 32)
  | .modrpt b => fieldCommand .modrpt .ch5 (boolWord b)
  | .wavup t data => .t (fidOf 0 (BitVec.ofNat 5 t.val)) data
  | .modup data => .t (fidOf 0 modupCode) data
  | .advance n => .w (fidOf 0 advanceCode) n

/-! ## The opcode table as data -/

/-- The mnemonics of the opcode table. -/
inductive Mnemonic where
  | field (k : FieldKind)
  | wavup
  | modup
  | advance
  deriving DecidableEq, Repr

/-- The mnemonic of an instruction's rows in the opcode table. -/
def Instr.mnemonic : Instr → Mnemonic
  | .chen _ _ => .field .chen
  | .inten _ _ => .field .inten
  | .intset _ _ => .field .intset
  | .envrld _ _ => .field .envrld
  | .envdir _ _ => .field .envdir
  | .envstp _ _ => .field .envstp
  | .envrpt _ _ => .field .envrpt
  | .enven _ _ => .field .enven
  | .freq _ _ => .field .freq
  | .voll _ _ => .field .voll
  | .volr _ _ => .field .volr
  | .wavsel _ _ => .field .wavsel
  | .tap _ => .field .tap
  | .swdir _ => .field .swdir
  | .swen _ => .field .swen
  | .swfunc _ => .field .swfunc
  | .swint _ => .field .swint
  | .swshift _ => .field .swshift
  | .swbase _ => .field .swbase
  | .modfreq _ => .field .modfreq
  | .modrpt _ => .field .modrpt
  | .wavup _ _ => .wavup
  | .modup _ => .modup
  | .advance _ => .advance

/-- A row of opcode_table.json: its mnemonic, its format, and the fid its `match` gives (the mask is 0xFF in every row). -/
structure OpcodeRow where
  mnemonic : Mnemonic
  format : Format
  fid : Byte
  deriving DecidableEq, Repr

/-- The rows of one mnemonic. -/
def rowsOf (m : Mnemonic) (f : Format) (fids : List Byte) : List OpcodeRow := fids.map fun x => ⟨m, f, x⟩

/-- The 87 rows of opcode_table.json, in its order, its `match` column copied. -/
def opcodeRows : List OpcodeRow :=
  rowsOf (.field .chen) .W [0x20, 0x40, 0x60, 0x80, 0xA0, 0xC0] ++
  rowsOf (.field .inten) .W [0x21, 0x41, 0x61, 0x81, 0xA1, 0xC1] ++
  rowsOf (.field .intset) .W [0x22, 0x42, 0x62, 0x82, 0xA2, 0xC2] ++
  rowsOf (.field .envrld) .W [0x23, 0x43, 0x63, 0x83, 0xA3, 0xC3] ++
  rowsOf (.field .envdir) .W [0x24, 0x44, 0x64, 0x84, 0xA4, 0xC4] ++
  rowsOf (.field .envstp) .W [0x25, 0x45, 0x65, 0x85, 0xA5, 0xC5] ++
  rowsOf (.field .envrpt) .W [0x26, 0x46, 0x66, 0x86, 0xA6, 0xC6] ++
  rowsOf (.field .enven) .W [0x27, 0x47, 0x67, 0x87, 0xA7, 0xC7] ++
  rowsOf (.field .freq) .W [0x28, 0x48, 0x68, 0x88, 0xA8, 0xC8] ++
  rowsOf (.field .voll) .W [0x29, 0x49, 0x69, 0x89, 0xA9, 0xC9] ++
  rowsOf (.field .volr) .W [0x2A, 0x4A, 0x6A, 0x8A, 0xAA, 0xCA] ++
  rowsOf (.field .wavsel) .W [0x2B, 0x4B, 0x6B, 0x8B, 0xAB] ++
  rowsOf (.field .tap) .W [0xCC] ++
  rowsOf (.field .swdir) .W [0xB0] ++
  rowsOf (.field .swen) .W [0xB1] ++
  rowsOf (.field .swfunc) .W [0xB2] ++
  rowsOf (.field .swint) .W [0xB3] ++
  rowsOf (.field .swshift) .W [0xB4] ++
  rowsOf (.field .swbase) .W [0xB5] ++
  rowsOf (.field .modfreq) .W [0xB6] ++
  rowsOf (.field .modrpt) .W [0xB7] ++
  rowsOf .wavup .T [0x00, 0x01, 0x02, 0x03, 0x04] ++
  rowsOf .modup .T [0x05] ++
  rowsOf .advance .W [0x1F]

/-! ## Assembler lines and pseudo-instructions (R68, R69) -/

/-- The command of an assembler line; none where the assembler refuses the channel (R68). A value wider than its field is
accepted and the hardware reduces it. -/
def AsmLine.assemble : AsmLine → Option Command
  | .field k c v => if k.validOn c then some (fieldCommand k c v) else none
  | .wavup t data => some (encode (.wavup t data))
  | .modup data => some (encode (.modup data))
  | .advance n => some (encode (.advance n))
  | .raw fid v => some (.w fid v)

/-- 32 copies of one byte. -/
def Payload.fill (b : Byte) : Payload := ⟨List.replicate 32 b, List.length_replicate⟩

/-- The expansions of R69, in order. -/
def Pseudo.expand : Pseudo → List AsmLine
  | .nop => [.raw 0xFF 0]
  | .play c => [.field .chen c 1]
  | .stop c => [.field .chen c 0]
  | .vol c l r => [.field .voll c l, .field .volr c r]
  | .env c rl up st rp =>
    [.field .envrld c rl, .field .envdir c up, .field .envstp c st, .field .envrpt c rp, .field .enven c 1]
  | .duration c n => [.field .intset c n, .field .inten c 1]
  | .wavefill t b => [.wavup t (Payload.fill b)]

/-! ## Numeric forms -/

/-- A W command as one number, `fid * 2^32 + value` (R58's listing form `ff:vvvvvvvv`). -/
def listingNumber (fid : Byte) (value : Word) : Nat := fid.toNat * 2 ^ 32 + value.toNat

/-- The format under which the opcode table lists a fid: T for 0x00 to 0x05, W for every other (R62, R63). -/
def tableFormat (fid : Byte) : Format := if fid.toNat ≤ 5 then .T else .W

/-- The command whose bits the opcode table numbers as `w` (log 8): bits 7 to 0 are the fid; then a W command's value is
bits 39 to 8, and byte `i` of a T command's data is bits `8*i+15` to `8*i+8`. Every bit from `nbits` up is 0. -/
def commandOfTableWord (nbits w : Nat) : Command :=
  let bits := w % 2 ^ nbits
  let fid := BitVec.ofNat 8 bits
  match tableFormat fid with
  | .W => .w fid (BitVec.ofNat 32 (bits / 2 ^ 8))
  | .T => .t fid ⟨(List.range 32).map fun i => BitVec.ofNat 8 (bits / 2 ^ (8 * (i + 1))), by simp⟩

/-- The instruction the decoder reads from a command the opcode table numbers as `w`. -/
def decodeTableWord (nbits w : Nat) : Option Instr :=
  match decode (commandOfTableWord nbits w) with
  | .instr i => some i
  | .nop _ => none

end Sys2Proof
end

