-- ==== Sys2Proof/Config.lean ====
section
/-! DEFINITION. The parameters the spec leaves open (00_scope.md R9): their domains, the spec's defaults, and the two
periods for which the spec has no default. An instance's parameters are held, unchanging, in `State.cfg` (log 1). -/

namespace Sys2Proof

/-- SWEEP_INTERVAL_MODE (D12): the role of the sweep interval field. -/
inductive SweepIntervalMode where
  | gate
  | divide
  deriving DecidableEq, Repr

/-- SWEEP_RUN_GATE (D13): what "not running" reads in the secondary tick. `ungated` is the spec's `none`. -/
inductive SweepRunGate where
  | outputEnabled
  | ungated
  deriving DecidableEq, Repr

/-- MODFREQ_WRITE_TARGET (D6): which registers a MODFREQ write loads. -/
inductive ModfreqTarget where
  | both
  | current
  | next
  deriving DecidableEq, Repr

/-- OUTPUT_FLOAT_FORMAT (D20): the float format of the normalised output. -/
inductive FloatFormat where
  | binary64
  | binary32
  deriving DecidableEq, Repr

/-- The parameters of R9 that some rule reads (SAMPLE_RATE is read by none: log 13). -/
structure Params where
  /-- INTERVAL_PERIOD: chip cycles between interval-timer ticks, at least 1 (D7). -/
  intervalPeriod : Nat
  /-- ENVELOPE_PERIOD: chip cycles between envelope ticks, at least 1 (D8). -/
  envelopePeriod : Nat
  sweepIntervalMode : SweepIntervalMode
  sweepRunGate : SweepRunGate
  modfreqTarget : ModfreqTarget
  /-- NOISE_RESET_SR: the shift register at construction (D17). -/
  noiseResetSr : BitVec 15
  /-- MOD_UPLOAD_OFFSET: whether MODUP applies the minus-one convention (D19). -/
  modUploadOffset : Bool
  outputFloatFormat : FloatFormat
  deriving DecidableEq, Repr

/-- The domains of R9: both OPEN periods are integers of at least 1. -/
abbrev Params.wf (p : Params) : Prop := 1 ≤ p.intervalPeriod ∧ 1 ≤ p.envelopePeriod

/-- INTERVAL_PERIOD, OPEN (D7): an uninterpreted integer of at least 1; nothing can evaluate it (log 2). -/
opaque Config.intervalPeriod : ℕ+

/-- ENVELOPE_PERIOD, OPEN (D8): an uninterpreted integer of at least 1; nothing can evaluate it (log 2). -/
opaque Config.envelopePeriod : ℕ+

/-- The parameters with given periods and every other one at the spec's default (R9, log 3). -/
def Params.withPeriods (interval envelope : Nat) : Params where
  intervalPeriod := interval
  envelopePeriod := envelope
  sweepIntervalMode := .gate
  sweepRunGate := .outputEnabled
  modfreqTarget := .both
  noiseResetSr := 0x7FFF
  modUploadOffset := true
  outputFloatFormat := .binary64

/-- The parameters an instance has at reset: the spec's defaults, the OPEN periods uninterpreted. -/
def Config.params : Params := Params.withPeriods Config.intervalPeriod Config.envelopePeriod

end Sys2Proof
end

