-- ==== Sys2Proof/Machine/State.lean ====
section
/-! DEFINITION. The state of the block as plain data (10_state.md R22, R24 to R35), the model's own fields beside it
(the instance's parameters, the commands issued and not yet taken, what each ADVANCE has returned), and reset (R162). -/

namespace Sys2Proof.Machine

/-- A table space (20_memory.md R41): cells in strictly rising address order, none equal to what an unlisted address reads
as (`Memory.wf`). The unit is one table entry (R15). A WAVE entry is a u6 in a byte; a MODT entry is the 8-bit pattern of
an i8. -/
abbrev Memory := List Host.Cell

/-- What an unlisted address of either table space reads as: the reset contents, 0 in every entry (R35, R162; log 7). -/
def Memory.unlisted : Byte := 0

/-- One value for each of the six channels. -/
structure Six (α : Type) where
  ch1 : α
  ch2 : α
  ch3 : α
  ch4 : α
  ch5 : α
  ch6 : α
  deriving DecidableEq, Repr

/-- One value for each of the wave channels 1 to 5. -/
structure Five (α : Type) where
  ch1 : α
  ch2 : α
  ch3 : α
  ch4 : α
  ch5 : α
  deriving DecidableEq, Repr

/-- The registers every channel has (R24, R26, R28, R29). -/
structure ChanRegs where
  /-- The channel is audible (R24, R36). -/
  outEn : Bool
  intEn : Bool
  intSet : BitVec 5
  /-- Unbounded, as the source has it (R25). -/
  intCnt : Nat
  envReload : BitVec 4
  /-- The envelope's direction, true for up (R26). -/
  envUp : Bool
  envStep : BitVec 5
  envRepeat : Bool
  envEn : Bool
  envLevel : BitVec 4
  /-- At most 31 (R27). -/
  envCnt : Nat
  volL : BitVec 4
  volR : BitVec 4
  /-- Stored unmasked (R29). On channel 5 it is the base of the modulation candidate only. -/
  freq : BitVec 32
  /-- At most 2047 between cycles (R30). -/
  phCnt : Nat
  deriving DecidableEq, Repr

/-- The registers of a wave channel (R31). -/
structure WaveRegs where
  wave : BitVec 3
  phase : BitVec 5
  deriving DecidableEq, Repr

/-- The sweep/modulation registers of channel 5 (R32). R40 counts seven 1-bit flags on channel 5 and names none; R32 names
five, and the model holds these five by its own choice (DESIGN CHOICE, log 21). -/
structure SweepRegs where
  modFreq : BitVec 16
  nextModFreq : BitVec 16
  /-- `sweepModCounter`, at most 7; counts in mode `divide` only (R125). -/
  swCnt : Nat
  modPhase : BitVec 5
  /-- `baseIntervalLong`: true selects the 320-cycle period (R104). -/
  swLong : Bool
  swEn : Bool
  modRepeat : Bool
  /-- `mode`, true for modulation. -/
  swMod : Bool
  /-- `sweepDirection`, true for add. -/
  swUp : Bool
  swShift : BitVec 3
  swInt : BitVec 3
  deriving DecidableEq, Repr

/-- The noise registers of channel 6 (R34). -/
structure NoiseRegs where
  tap : BitVec 3
  lfsr : BitVec 15
  /-- 0 or 63 (R34). -/
  noiseOut : BitVec 6
  deriving DecidableEq, Repr

/-- The complete block state S (R22). -/
structure Block where
  /-- Wavetable RAM, entry `WAVE[t][i]` at address `32*t + i` (R42). -/
  wave : Memory
  /-- Modulation table, entry `MODT[i]` at address `i` (R43). -/
  modt : Memory
  intDiv : Nat
  envDiv : Nat
  swDiv : Nat
  chans : Six ChanRegs
  waves : Five WaveRegs
  sweep : SweepRegs
  noise : NoiseRegs
  deriving DecidableEq, Repr

/-- A floating-point number as its bits, in one of the two formats of D20. -/
inductive FloatBits where
  | b64 (bits : BitVec 64)
  | b32 (bits : BitVec 32)
  deriving DecidableEq, Repr

/-- One side's output of one cycle: the normative integer Q and its normalised float (R148). -/
structure Sample where
  q : Nat
  value : FloatBits
  deriving DecidableEq, Repr

/-- What one ADVANCE returns: the left samples and the right samples, frame k at index k (R97, R149). -/
structure Returned where
  left : List Sample
  right : List Sample
  deriving DecidableEq, Repr

/-- The machine: the block with the instance's parameters, its pending commands and its outputs. -/
structure State where
  /-- The parameters of this instance (R9), fixed for its life (R23); no step changes them (log 1). -/
  cfg : Params
  block : Block
  /-- The commands the host has issued and the block has not taken, oldest first (R48, R49; log 4). -/
  input : List Command
  /-- What each ADVANCE has returned to the host, oldest first (R97; log 5). -/
  output : List Returned
  deriving DecidableEq, Repr

/-- Why the machine could stop. It has no constructor: no rule stops the block, in any state and for any command (R150), so
nothing raises a fault. Safe: every behaviour the spec gives is a next state (log 12). -/
inductive Fault where
  deriving DecidableEq, Repr

/-- Why an instruction has no meaning in the model. -/
inductive Refusal where
  /-- Raised by an arm of `exec` whose instruction has no meaning yet; no arm raises it now. Safe: the model stops where the
  hardware goes on. -/
  | notModelled (mnemonic : String)
  deriving DecidableEq, Repr

/-- A channel's registers at reset (R162). -/
def ChanRegs.reset : ChanRegs where
  outEn := false
  intEn := false
  intSet := 0
  intCnt := 0
  envReload := 0
  envUp := false
  envStep := 0
  envRepeat := false
  envEn := false
  envLevel := 0
  envCnt := 0
  volL := 15
  volR := 15
  freq := 0
  phCnt := 0

/-- A wave channel's registers at reset (R162). -/
def WaveRegs.reset : WaveRegs where
  wave := 0
  phase := 0

/-- Channel 5's sweep/modulation registers at reset (R162). -/
def SweepRegs.reset : SweepRegs where
  modFreq := 0
  nextModFreq := 0
  swCnt := 0
  modPhase := 0
  swLong := false
  swEn := false
  modRepeat := false
  swMod := false
  swUp := false
  swShift := 0
  swInt := 0

/-- Channel 6's noise registers at reset (R162), the shift register at NOISE_RESET_SR. -/
def NoiseRegs.reset (p : Params) : NoiseRegs where
  tap := 0
  lfsr := p.noiseResetSr
  noiseOut := 0

/-- The block right after construction (R162): both tables all 0. -/
def Block.reset (p : Params) : Block where
  wave := []
  modt := []
  intDiv := 0
  envDiv := 0
  swDiv := 0
  chans := ⟨.reset, .reset, .reset, .reset, .reset, .reset⟩
  waves := ⟨.reset, .reset, .reset, .reset, .reset⟩
  sweep := .reset
  noise := .reset p

/-- An instance with parameters `p` right after construction, no command issued yet (R162, R163). -/
def State.construct (p : Params) : State where
  cfg := p
  block := .reset p
  input := []
  output := []

/-- Reset: construction with the parameters of `Config.params` (R162). -/
def State.reset : State := State.construct Config.params

end Sys2Proof.Machine
end

