-- ==== Sys2Proof/Machine/Ops.lean ====
section
/-! DEFINITION. The named operations over the table spaces, the channel registers, the command queue and the output. Every
meaning and every sub-step of a cycle reads and writes state through these. -/

namespace Sys2Proof.Machine

/-! ## Table spaces (R15, R42, R43) -/

/-- `MemRead(space, a, 1)` (R15): the entry at address `a`. -/
def Memory.read : Memory → Nat → Byte
  | [], _ => Memory.unlisted
  | (b, x) :: m, a => if a = b then x else Memory.read m a

/-- `MemWrite(space, a, 1, v)` (R15). Writing the value an unlisted address reads as removes the entry, so equal contents are
equal lists. -/
def Memory.write : Memory → Nat → Byte → Memory
  | [], a, v => if v = Memory.unlisted then [] else [(a, v)]
  | (b, x) :: m, a, v =>
    if a < b then (if v = Memory.unlisted then (b, x) :: m else (a, v) :: (b, x) :: m)
    else if a = b then (if v = Memory.unlisted then m else (a, v) :: m)
    else (b, x) :: Memory.write m a v

/-- Write consecutive entries from address `a` on, in order (the loops of R94 and R95). -/
def Memory.writeFrom : Memory → Nat → List Byte → Memory
  | m, _, [] => m
  | m, a, v :: vs => Memory.writeFrom (Memory.write m a v) (a + 1) vs

/-- The canonical form: addresses strictly rising, no entry equal to what an unlisted address reads as. -/
abbrev Memory.wf (m : Memory) : Prop :=
  m.Pairwise (fun c d => c.1 < d.1) ∧ ∀ c ∈ m, c.2 ≠ Memory.unlisted

/-- The address of `WAVE[t][i]` (R42). -/
def waveAddress (t i : Nat) : Nat := 32 * t + i

/-! ## Per-channel registers -/

def Six.get {α : Type} (x : Six α) : Channel → α
  | .ch1 => x.ch1
  | .ch2 => x.ch2
  | .ch3 => x.ch3
  | .ch4 => x.ch4
  | .ch5 => x.ch5
  | .ch6 => x.ch6

/-- Change one channel's value. -/
def Six.modify {α : Type} (x : Six α) (c : Channel) (f : α → α) : Six α :=
  match c with
  | .ch1 => { x with ch1 := f x.ch1 }
  | .ch2 => { x with ch2 := f x.ch2 }
  | .ch3 => { x with ch3 := f x.ch3 }
  | .ch4 => { x with ch4 := f x.ch4 }
  | .ch5 => { x with ch5 := f x.ch5 }
  | .ch6 => { x with ch6 := f x.ch6 }

/-- Change every channel's value, each from its own (the loops `for c in 1..6` of R102 and R103; log 11). -/
def Six.map {α : Type} (f : α → α) (x : Six α) : Six α :=
  ⟨f x.ch1, f x.ch2, f x.ch3, f x.ch4, f x.ch5, f x.ch6⟩

def Five.get {α : Type} (x : Five α) : WaveChannel → α
  | .ch1 => x.ch1
  | .ch2 => x.ch2
  | .ch3 => x.ch3
  | .ch4 => x.ch4
  | .ch5 => x.ch5

/-- Change one wave channel's value. -/
def Five.modify {α : Type} (x : Five α) (c : WaveChannel) (f : α → α) : Five α :=
  match c with
  | .ch1 => { x with ch1 := f x.ch1 }
  | .ch2 => { x with ch2 := f x.ch2 }
  | .ch3 => { x with ch3 := f x.ch3 }
  | .ch4 => { x with ch4 := f x.ch4 }
  | .ch5 => { x with ch5 := f x.ch5 }

/-! ## The block -/

/-- The registers `ch[c]` that every channel has. -/
def Block.chan (b : Block) (c : Channel) : ChanRegs := b.chans.get c

/-- The wave registers `ch[c].wave` and `ch[c].phase`, c in 1..5. -/
def Block.waveRegs (b : Block) (c : WaveChannel) : WaveRegs := b.waves.get c

def Block.modChan (b : Block) (c : Channel) (f : ChanRegs → ChanRegs) : Block :=
  { b with chans := b.chans.modify c f }

def Block.mapChans (b : Block) (f : ChanRegs → ChanRegs) : Block := { b with chans := b.chans.map f }

def Block.modWave (b : Block) (c : WaveChannel) (f : WaveRegs → WaveRegs) : Block :=
  { b with waves := b.waves.modify c f }

def Block.modSweep (b : Block) (f : SweepRegs → SweepRegs) : Block := { b with sweep := f b.sweep }

def Block.modNoise (b : Block) (f : NoiseRegs → NoiseRegs) : Block := { b with noise := f b.noise }

/-- Set the interval divider's count. -/
def Block.setIntDiv (b : Block) (n : Nat) : Block := { b with intDiv := n }

/-- Set the envelope divider's count. -/
def Block.setEnvDiv (b : Block) (n : Nat) : Block := { b with envDiv := n }

/-- Set the sweep/modulation divider's count. -/
def Block.setSwDiv (b : Block) (n : Nat) : Block := { b with swDiv := n }

/-- `MemRead(WAVE, a, 1)` (R42). -/
def Block.readWave (b : Block) (a : Nat) : Byte := b.wave.read a

/-- `MemRead(MODT, a, 1)` (R43), the entry as the integer -128..127 it holds. -/
def Block.readModt (b : Block) (a : Nat) : Int := (b.modt.read a).toInt

/-- Write consecutive entries of the wavetable space. -/
def Block.writeWave (b : Block) (a : Nat) (vs : List Byte) : Block := { b with wave := b.wave.writeFrom a vs }

/-- Write consecutive entries of the modulation table. -/
def Block.writeModt (b : Block) (a : Nat) (vs : List Byte) : Block := { b with modt := b.modt.writeFrom a vs }

/-! ## The machine -/

def State.chan (s : State) (c : Channel) : ChanRegs := s.block.chan c

def State.waveRegs (s : State) (c : WaveChannel) : WaveRegs := s.block.waveRegs c

/-- Change the block and nothing else: what every field write and upload does (R70). -/
def State.onBlock (s : State) (f : Block → Block) : State := { s with block := f s.block }

/-- Hand a returned pair of sequences to the host (R97; log 5). -/
def State.emit (s : State) (r : Returned) : State := { s with output := s.output ++ [r] }

/-- Take the oldest pending command (R48, R49); none while the block waits for one (R163). -/
def State.takeCommand (s : State) : Option (Command × State) :=
  match s.input with
  | [] => none
  | cmd :: rest => some (cmd, { s with input := rest })

end Sys2Proof.Machine
end

