-- ==== Sys2Proof/Machine/Flags.lean ====
section
/-! DEFINITION. The conditions the core tests: the writers of the audible flag `outEn` (R36) and the compares of the
dividers, counters and accumulators. The block has no condition codes (R36). -/

namespace Sys2Proof.Machine

/-- Write the audible flag `outEn` (R36). -/
def ChanRegs.setOutEn (r : ChanRegs) (b : Bool) : ChanRegs := { r with outEn := b }

/-- The duration is over: `intCnt > intSet` (R112). -/
def intervalExpired (intCnt : Nat) (intSet : BitVec 5) : Bool := decide (intSet.toNat < intCnt)

/-- An envelope step is due: `envCnt > envStep` (R107). -/
def envelopeStepDue (envCnt : Nat) (envStep : BitVec 5) : Bool := decide (envStep.toNat < envCnt)

/-- A divider fires: its count is at least its period (R102, R103, R104). -/
def dividerDue (count period : Nat) : Bool := decide (period ≤ count)

/-- A phase accumulator steps: `phCnt >= 2048 - f`, compared as integers, without wrapping (R117, R120, R135). -/
def phaseDue (phCnt f : Nat) : Bool := decide ((2048 : Int) - f ≤ phCnt)

/-- An applied frequency silences channel 5 (R127). -/
def sweepOverflows (modFreq : BitVec 16) : Bool := decide (2048 ≤ modFreq.toNat)

/-- "running" in the secondary tick, from the audible flag after the overflow check (R126, R128). -/
def sweepRunning (gate : SweepRunGate) (outEn : Bool) : Bool :=
  match gate with
  | .outputEnabled => outEn
  | .ungated => true

/-- The period of the sweep/modulation divider (R104). -/
def sweepPeriod (swLong : Bool) : Nat := if swLong then 320 else 40

end Sys2Proof.Machine
end

