-- ==== Sys2Proof/Machine/Envelope.lean ====
section
/-! DEFINITION. The envelope generator: ENVRLD, ENVDIR, ENVSTP, ENVRPT, ENVEN (40_field_writes.md) and EnvelopeTick
(43_envelope.md). -/

namespace Sys2Proof.Machine

/-- The level after a level change is due (R107): up to 15, down to 0, at the bound reload or hold. -/
def nextLevel (r : ChanRegs) : BitVec 4 :=
  if r.envUp = true ∧ r.envLevel.toNat < 15 then r.envLevel + 1
  else if r.envUp = false ∧ 0 < r.envLevel.toNat then r.envLevel - 1
  else if r.envRepeat = true then r.envReload
  else r.envLevel

/-- `EnvelopeTick(c)` (R107). -/
def envelopeTick (r : ChanRegs) : ChanRegs :=
  if r.envEn = true then
    if envelopeStepDue (r.envCnt + 1) r.envStep then { r with envCnt := 0, envLevel := nextLevel r }
    else { r with envCnt := r.envCnt + 1 }
  else r

/-- ENVRLD (R74): the live level is forced too. -/
def execEnvrld (c : Channel) (v : BitVec 4) (s : State) : Host.Outcome State Fault Refusal :=
  .next (s.onBlock fun b => b.modChan c fun r => { r with envReload := v, envLevel := v })

/-- ENVDIR (R75). -/
def execEnvdir (c : Channel) (up : Bool) (s : State) : Host.Outcome State Fault Refusal :=
  .next (s.onBlock fun b => b.modChan c fun r => { r with envUp := up })

/-- ENVSTP (R76). -/
def execEnvstp (c : Channel) (v : BitVec 5) (s : State) : Host.Outcome State Fault Refusal :=
  .next (s.onBlock fun b => b.modChan c fun r => { r with envStep := v })

/-- ENVRPT (R77). -/
def execEnvrpt (c : Channel) (rep : Bool) (s : State) : Host.Outcome State Fault Refusal :=
  .next (s.onBlock fun b => b.modChan c fun r => { r with envRepeat := rep })

/-- ENVEN (R78): enabling reloads the level; `envCnt` is kept. -/
def execEnven (c : Channel) (en : Bool) (s : State) : Host.Outcome State Fault Refusal :=
  .next (s.onBlock fun b => b.modChan c fun r =>
    { r with envEn := en, envLevel := if en = true then r.envReload else r.envLevel })

end Sys2Proof.Machine
end

