-- ==== Sys2Proof/Machine/Interval.lean ====
section
/-! DEFINITION. The duration (interval) timer: INTEN, INTSET (40_field_writes.md) and IntervalTick (44_interval.md). -/

namespace Sys2Proof.Machine

/-- `IntervalTick(c)` (R112): the increment comes before the compare. -/
def intervalTick (r : ChanRegs) : ChanRegs :=
  if r.outEn = true ∧ r.intEn = true then
    let counted := { r with intCnt := r.intCnt + 1 }
    if intervalExpired counted.intCnt counted.intSet then counted.setOutEn false else counted
  else r

/-- INTEN (R72): makes the channel audible whatever its value; enabling clears the counter. -/
def execInten (c : Channel) (en : Bool) (s : State) : Host.Outcome State Fault Refusal :=
  .next (s.onBlock fun b => b.modChan c fun r =>
    { r.setOutEn true with intEn := en, intCnt := if en = true then 0 else r.intCnt })

/-- INTSET (R73). -/
def execIntset (c : Channel) (v : BitVec 5) (s : State) : Host.Outcome State Fault Refusal :=
  .next (s.onBlock fun b => b.modChan c fun r => { r with intSet := v })

end Sys2Proof.Machine
end

