-- ==== Sys2Proof/Machine/Noise.lean ====
section
/-! DEFINITION. The noise channel: TAP (R83), TapOffset, LfsrStep, NoiseFreqTick and NoiseSample (47_noise.md). -/

namespace Sys2Proof.Machine

/-- The phase increment of the noise channel per cycle (R8, R135). -/
def noiseIncrement : Nat := 12

/-- `TapOffset` (R137). -/
def tapOffset (tap : BitVec 3) : Nat :=
  match tap.toNat with
  | 0 => 14
  | 1 => 10
  | 2 => 13
  | 3 => 4
  | 4 => 8
  | 5 => 6
  | 6 => 9
  | _ => 11

/-- The feedback bit of `LfsrStep` (R138): bit 7 XOR bit `t`. -/
def lfsrFeedback (sr : BitVec 15) (t : Nat) : Bool := ((sr >>> 7) ^^^ (sr >>> t)).getLsbD 0

/-- The new state of `LfsrStep` (R138): shifted left, the feedback into bit 0, bit 15 dropped. -/
def lfsrNext (sr : BitVec 15) (t : Nat) : BitVec 15 :=
  (sr <<< 1) ||| (if lfsrFeedback sr t then 1 else 0)

/-- What an LFSR step leaves in channel 6's noise registers (R135, R139): the output is the complement of the feedback. -/
def NoiseRegs.lfsrStep (n : NoiseRegs) : NoiseRegs :=
  let t := tapOffset n.tap
  { n with lfsr := lfsrNext n.lfsr t, noiseOut := if lfsrFeedback n.lfsr t then 0 else 63 }

/-- `NoiseFreqTick()` (R135). -/
def Block.noiseFreqTick (b : Block) : Block :=
  let ph := (b.chan .ch6).phCnt + noiseIncrement
  if phaseDue ph (b.chan .ch6).freq.toNat then
    (b.modChan .ch6 fun r => { r with phCnt := 0 }).modNoise NoiseRegs.lfsrStep
  else b.modChan .ch6 fun r => { r with phCnt := ph }

/-- `NoiseSample()` (R139). -/
def Block.noiseSample (b : Block) : Nat := b.noise.noiseOut.toNat

/-- TAP (R83): the shift register is not reseeded. -/
def execTap (v : BitVec 3) (s : State) : Host.Outcome State Fault Refusal :=
  .next (s.onBlock fun b => b.modNoise fun n => { n with tap := v })

end Sys2Proof.Machine
end

