-- ==== Sys2Proof/Machine/Operands.lean ====
section
/-! DEFINITION. The conversions of a table upload's bytes into table entries (41_table_uploads.md; format T operands, R61).
The reductions of a scalar operand (R60) are in Sys2Proof/Decode.lean, where the decoder uses them. -/

namespace Sys2Proof.Machine

/-- `WaveConv` (R92): 0 stays 0, every other byte loses one, and the result is kept in 0..63. -/
def waveConv (d : Byte) : Byte := BitVec.ofNat 8 ((if d = 0 then 0 else d.toNat - 1) % 64)

/-- `sext_8` (R11): the integer an 8-bit pattern holds. -/
def sext8 (d : Byte) : Int := d.toInt

/-- `ModConv` (R93) as an integer in -128..127; `offset` is MOD_UPLOAD_OFFSET. -/
def modConvInt (offset : Bool) (d : Byte) : Int :=
  let s := sext8 d
  let s := if offset = true ∧ s ≠ 0 then s - 1 else s
  (s + 128) % 256 - 128

/-- `ModConv` (R93) as the 8-bit pattern a MODT cell holds. -/
def modConv (offset : Bool) (d : Byte) : Byte := BitVec.ofInt 8 (modConvInt offset d)

end Sys2Proof.Machine
end

