-- ==== Sys2Proof/Machine/Wave.lean ====
section
/-! DEFINITION. The wave channels: WAVSEL, WAVUP, WaveFreqTick and WaveSample (45_wave_channel.md, R82, R94). -/

namespace Sys2Proof.Machine

/-- The phase increment of a wave channel per cycle (R8, R117). -/
def waveIncrement : Nat := 120

/-- The frequency channel c plays: its own register, and `modFreq` on channel 5 (R99, R117). -/
def Block.playFreq (b : Block) : WaveChannel → Nat
  | .ch1 => (b.chan .ch1).freq.toNat
  | .ch2 => (b.chan .ch2).freq.toNat
  | .ch3 => (b.chan .ch3).freq.toNat
  | .ch4 => (b.chan .ch4).freq.toNat
  | .ch5 => b.sweep.modFreq.toNat

/-- `WaveFreqTick(c, f)` (R117): the counter restarts at 0 and the phase steps when the threshold is reached. -/
def Block.waveFreqTick (b : Block) (w : WaveChannel) (f : Nat) : Block :=
  let ph := (b.chan w.channel).phCnt + waveIncrement
  if phaseDue ph f then
    (b.modChan w.channel fun r => { r with phCnt := 0 }).modWave w fun r => { r with phase := r.phase + 1 }
  else b.modChan w.channel fun r => { r with phCnt := ph }

/-- `WaveSample(c)` (R122): 0 for a select above 4. -/
def Block.waveSample (b : Block) (w : WaveChannel) : Nat :=
  let r := b.waveRegs w
  if 4 < r.wave.toNat then 0 else (b.readWave (waveAddress r.wave.toNat r.phase.toNat)).toNat

/-- WAVSEL (R82); channel 6 has no such field, and a write to it changes nothing (R39, R66). -/
def execWavsel (c : Channel) (v : BitVec 3) (s : State) : Host.Outcome State Fault Refusal :=
  .next (match c.wave? with
    | some w => s.onBlock fun b => b.modWave w fun r => { r with wave := v }
    | none => s)

/-- WAVUP (R94). -/
def execWavup (t : Fin 5) (data : Payload) (s : State) : Host.Outcome State Fault Refusal :=
  .next (s.onBlock fun b => b.writeWave (waveAddress t.val 0) (data.bytes.map waveConv))

end Sys2Proof.Machine
end

