-- ==== Sys2Proof/Machine/Mixer.lean ====
section
/-! DEFINITION. The mixer and the output of a cycle (48_mixer.md): Gain, Mix, and the normalised float. -/

namespace Sys2Proof.Machine

/-- `Gain(v, e)` (R143). -/
def gain (v e : BitVec 4) : Nat := if v = 0 ∨ e = 0 then 0 else ((v.toNat * e.toNat) >>> 3) + 1

/-- One cycle's integer output, left and right (R144). -/
structure Frame where
  ql : Nat
  qr : Nat
  deriving DecidableEq, Repr

/-- A channel's raw sample (R144): the wavetable's on channels 1 to 5, the noise output on channel 6. -/
def Block.rawSample (b : Block) (c : Channel) : Nat :=
  match c.wave? with
  | some w => b.waveSample w
  | none => b.noiseSample

/-- One channel's contribution to one side (R144): nothing while it is not audible; halved before the sum. -/
def Block.contribution (b : Block) (vol : ChanRegs → BitVec 4) (c : Channel) : Nat :=
  if (b.chan c).outEn = true then (b.rawSample c * gain (vol (b.chan c)) (b.chan c).envLevel) >>> 1 else 0

/-- One side's sum over the six channels (R144). -/
def Block.sideSum (b : Block) (vol : ChanRegs → BitVec 4) : Nat := (Channel.all.map (b.contribution vol)).sum

/-- The quantisation of a side's sum (R144, R146). -/
def quantise (l : Nat) : Nat := (l &&& 0xFFF8) <<< 2

/-- `Mix()` (R144). -/
def Block.mix (b : Block) : Frame where
  ql := quantise (b.sideSum ChanRegs.volL)
  qr := quantise (b.sideSum ChanRegs.volR)

/-- The full-scale constant of R148. -/
def fullScale : Nat := 21888

/-- `n / d` rounded to the nearest integer, ties to even. -/
def roundNearestEven (n d : Nat) : Nat :=
  let k := n / d
  if d < 2 * (n % d) ∨ (2 * (n % d) = d ∧ k % 2 = 1) then k + 1 else k

/-- The bits of `q / fullScale` rounded to nearest, ties to even, in an IEEE 754 binary format with `prec` significand bits
and exponent bias `bias` (R148). For 0 < q < 2^18, which every `quantise` result meets, the value lies in the format's normal
range (log 14). A carry out of the significand adds into the exponent field, as the format's layout has it. -/
def floatBits (prec bias q : Nat) : Nat :=
  if q = 0 then 0
  else
    let e := (q * 2 ^ 64 / fullScale).log2 -- the value's binary exponent plus 64
    let significand := roundNearestEven (q * 2 ^ (prec - 1 + 64 - e)) fullScale
    (e + bias - 65) * 2 ^ (prec - 1) + significand

/-- `Out(Q)` (R148) in the format OUTPUT_FLOAT_FORMAT, with the normative integer beside it. -/
def outSample (fmt : FloatFormat) (q : Nat) : Sample where
  q := q
  value :=
    match fmt with
    | .binary64 => .b64 (BitVec.ofNat 64 (floatBits 53 1023 q))
    | .binary32 => .b32 (BitVec.ofNat 32 (floatBits 24 127 q))

end Sys2Proof.Machine
end

