-- ==== Sys2Proof/Machine/SweepMod.lean ====
section
/-! DEFINITION. The sweep/modulation unit of channel 5: its field writes (R84 to R91), MODUP (R95), and the base and
secondary ticks (46_sweep_mod.md). -/

namespace Sys2Proof.Machine

/-- `SweepCand` (R129): wraps modulo 65536. -/
def sweepCand (mf : BitVec 16) (shift : BitVec 3) (up : Bool) : BitVec 16 :=
  let delta := mf >>> shift.toNat
  if up = true then mf + delta else mf - delta

/-- `ModCand` (R131): the sum reduced modulo 2048. -/
def modCand (f : BitVec 32) (m : Int) : BitVec 16 := BitVec.ofInt 16 (((f.toNat : Int) + m) % 2048)

/-- `ModPhaseAdvance()` (R132): holds at 31 without repeat. -/
def modPhaseAdvance (w : SweepRegs) : SweepRegs :=
  if w.modRepeat = false ∧ w.modPhase = 31 then w else { w with modPhase := w.modPhase + 1 }

/-- The first half of the secondary tick (R127): apply the computed frequency; an overflow silences the channel. -/
def Block.sweepApply (b : Block) : Block :=
  let b := b.modSweep fun w => { w with modFreq := w.nextModFreq }
  if sweepOverflows b.sweep.modFreq then b.modChan .ch5 fun r => r.setOutEn false else b

/-- Whether the secondary tick goes on to compute a candidate (R128). -/
def Block.sweepComputes (gate : SweepRunGate) (b : Block) : Bool :=
  b.sweep.swEn && sweepRunning gate (b.chan .ch5).outEn && decide (b.sweep.swInt ≠ 0)

/-- The second half of the secondary tick (R126): the candidate of the selected function goes to `nextModFreq`; in
modulation the table index then advances. -/
def Block.sweepCompute (b : Block) : Block :=
  if b.sweep.swMod = true then
    let cand := modCand (b.chan .ch5).freq (b.readModt b.sweep.modPhase.toNat)
    b.modSweep fun w => { modPhaseAdvance w with nextModFreq := cand }
  else b.modSweep fun w => { w with nextModFreq := sweepCand w.modFreq w.swShift w.swUp }

/-- `SweepModTick()` (R126). -/
def Block.sweepModTick (gate : SweepRunGate) (b : Block) : Block :=
  let b := b.sweepApply
  if b.sweepComputes gate then b.sweepCompute else b

/-- `SweepModBaseTick()` (R125). -/
def Block.sweepModBaseTick (p : Params) (b : Block) : Block :=
  match p.sweepIntervalMode with
  | .gate => b.sweepModTick p.sweepRunGate
  | .divide =>
    let count := b.sweep.swCnt + 1
    if max 1 b.sweep.swInt.toNat ≤ count then
      (b.modSweep fun w => { w with swCnt := 0 }).sweepModTick p.sweepRunGate
    else b.modSweep fun w => { w with swCnt := count }

/-- SWDIR (R84). -/
def execSwdir (up : Bool) (s : State) : Host.Outcome State Fault Refusal :=
  .next (s.onBlock fun b => b.modSweep fun w => { w with swUp := up })

/-- SWEN (R85). -/
def execSwen (en : Bool) (s : State) : Host.Outcome State Fault Refusal :=
  .next (s.onBlock fun b => b.modSweep fun w => { w with swEn := en })

/-- SWFUNC (R86). -/
def execSwfunc (modulation : Bool) (s : State) : Host.Outcome State Fault Refusal :=
  .next (s.onBlock fun b => b.modSweep fun w => { w with swMod := modulation })

/-- SWINT (R87). -/
def execSwint (v : BitVec 3) (s : State) : Host.Outcome State Fault Refusal :=
  .next (s.onBlock fun b => b.modSweep fun w => { w with swInt := v })

/-- SWSHIFT (R88). -/
def execSwshift (v : BitVec 3) (s : State) : Host.Outcome State Fault Refusal :=
  .next (s.onBlock fun b => b.modSweep fun w => { w with swShift := v })

/-- SWBASE (R89): the divider is not restarted. -/
def execSwbase (long : Bool) (s : State) : Host.Outcome State Fault Refusal :=
  .next (s.onBlock fun b => b.modSweep fun w => { w with swLong := long })

/-- MODFREQ (R90): MODFREQ_WRITE_TARGET says which buffers are loaded. -/
def execModfreq (v : BitVec 16) (s : State) : Host.Outcome State Fault Refusal :=
  .next (s.onBlock fun b => b.modSweep fun w =>
    match s.cfg.modfreqTarget with
    | .both => { w with modFreq := v, nextModFreq := v }
    | .current => { w with modFreq := v }
    | .next => { w with nextModFreq := v })

/-- MODRPT (R91). -/
def execModrpt (rep : Bool) (s : State) : Host.Outcome State Fault Refusal :=
  .next (s.onBlock fun b => b.modSweep fun w => { w with modRepeat := rep })

/-- MODUP (R95). -/
def execModup (data : Payload) (s : State) : Host.Outcome State Fault Refusal :=
  .next (s.onBlock fun b => b.writeModt 0 (data.bytes.map (modConv s.cfg.modUploadOffset)))

end Sys2Proof.Machine
end

