-- ==== Sys2Proof/Machine/Advance.lean ====
section
/-! DEFINITION. The global dividers, the chip cycle, and ADVANCE (42_advance_and_clock.md). -/

namespace Sys2Proof.Machine

/-- `IntervalDivider()` (R102). -/
def Block.intervalDivider (p : Params) (b : Block) : Block :=
  if dividerDue (b.intDiv + 1) p.intervalPeriod then (b.setIntDiv 0).mapChans intervalTick
  else b.setIntDiv (b.intDiv + 1)

/-- `EnvelopeDivider()` (R103). -/
def Block.envelopeDivider (p : Params) (b : Block) : Block :=
  if dividerDue (b.envDiv + 1) p.envelopePeriod then (b.setEnvDiv 0).mapChans envelopeTick
  else b.setEnvDiv (b.envDiv + 1)

/-- `SweepModDivider()` (R104): the period is read at every cycle. -/
def Block.sweepModDivider (p : Params) (b : Block) : Block :=
  if dividerDue (b.swDiv + 1) (sweepPeriod b.sweep.swLong) then (b.setSwDiv 0).sweepModBaseTick p
  else b.setSwDiv (b.swDiv + 1)

/-- `WaveFreqTick` of a wave channel with the frequency it plays (R99). -/
def Block.wavePlayTick (b : Block) (w : WaveChannel) : Block := b.waveFreqTick w (b.playFreq w)

/-- The frequency ticks of channels 1 to 5, in order (R99). -/
def Block.waveTicks (b : Block) : Block := WaveChannel.all.foldl Block.wavePlayTick b

/-- What a chip cycle does to the state (R99): the three dividers, the wave channels' ticks, the noise tick. -/
def Block.tick (p : Params) (b : Block) : Block :=
  ((((b.intervalDivider p).envelopeDivider p).sweepModDivider p).waveTicks).noiseFreqTick

/-- `Cycle()` (R99): the state after it and the frame its last sub-step, the mixer, gives. -/
def Block.cycle (p : Params) (b : Block) : Block × Frame :=
  let b := b.tick p
  (b, b.mix)

/-- `n` cycles in increasing order (R97, R98): the state after them and their frames, frame `k` that of cycle `k`. -/
def Block.runCycles (p : Params) (n : Nat) (b : Block) : Block × List Frame :=
  match n with
  | 0 => (b, [])
  | n + 1 =>
    let first := b.cycle p
    let later := Block.runCycles p n first.1
    (later.1, first.2 :: later.2)

/-- The two sequences an ADVANCE returns for its frames (R97, R149). -/
def returnedOf (fmt : FloatFormat) (frames : List Frame) : Returned where
  left := frames.map fun f => outSample fmt f.ql
  right := frames.map fun f => outSample fmt f.qr

/-- ADVANCE N (R97): N cycles, always to completion. -/
def execAdvance (n : BitVec 32) (s : State) : Host.Outcome State Fault Refusal :=
  let run := s.block.runCycles s.cfg n.toNat
  .next ((s.onBlock fun _ => run.1).emit (returnedOf s.cfg.outputFloatFormat run.2))

end Sys2Proof.Machine
end

