-- ==== Sys2Proof/Machine/ChannelWrites.lean ====
section
/-! DEFINITION. The channel enable, frequency and stereo writes: CHEN, FREQ, VOLL, VOLR (40_field_writes.md). -/

namespace Sys2Proof.Machine

/-- What enabling a channel restarts (R71): the envelope and phase counters, and the phase of a wave channel or the shift
register of channel 6. -/
def Block.retrigger (b : Block) (c : Channel) : Block :=
  let b := b.modChan c fun r => { r with envCnt := 0, phCnt := 0 }
  match c.wave? with
  | some w => b.modWave w fun r => { r with phase := 0 }
  | none => b.modNoise fun n => { n with lfsr := 0x7FFF }

/-- CHEN (R71). -/
def execChen (c : Channel) (en : Bool) (s : State) : Host.Outcome State Fault Refusal :=
  .next (s.onBlock fun b =>
    let b := b.modChan c fun r => r.setOutEn en
    if en = true then b.retrigger c else b)

/-- FREQ (R79): stored unmasked; on channel 5 it is the modulation base only. -/
def execFreq (c : Channel) (v : BitVec 32) (s : State) : Host.Outcome State Fault Refusal :=
  .next (s.onBlock fun b => b.modChan c fun r => { r with freq := v })

/-- VOLL (R80). -/
def execVoll (c : Channel) (v : BitVec 4) (s : State) : Host.Outcome State Fault Refusal :=
  .next (s.onBlock fun b => b.modChan c fun r => { r with volL := v })

/-- VOLR (R81). -/
def execVolr (c : Channel) (v : BitVec 4) (s : State) : Host.Outcome State Fault Refusal :=
  .next (s.onBlock fun b => b.modChan c fun r => { r with volR := v })

end Sys2Proof.Machine
end

