-- ==== Sys2Proof/Machine/Dispatch.lean ====
section
/-! DEFINITION. `exec`: one arm per instruction, each a direct call of its meaning, in the order of the opcode table. -/

namespace Sys2Proof.Machine

def exec (i : Instr) (s : State) : Host.Outcome State Fault Refusal :=
  match i with
  | .chen c b => Sys2Proof.Machine.execChen c b s
  | .inten c b => Sys2Proof.Machine.execInten c b s
  | .intset c v => Sys2Proof.Machine.execIntset c v s
  | .envrld c v => Sys2Proof.Machine.execEnvrld c v s
  | .envdir c b => Sys2Proof.Machine.execEnvdir c b s
  | .envstp c v => Sys2Proof.Machine.execEnvstp c v s
  | .envrpt c b => Sys2Proof.Machine.execEnvrpt c b s
  | .enven c b => Sys2Proof.Machine.execEnven c b s
  | .freq c v => Sys2Proof.Machine.execFreq c v s
  | .voll c v => Sys2Proof.Machine.execVoll c v s
  | .volr c v => Sys2Proof.Machine.execVolr c v s
  | .wavsel c v => Sys2Proof.Machine.execWavsel c v s
  | .tap v => Sys2Proof.Machine.execTap v s
  | .swdir b => Sys2Proof.Machine.execSwdir b s
  | .swen b => Sys2Proof.Machine.execSwen b s
  | .swfunc b => Sys2Proof.Machine.execSwfunc b s
  | .swint v => Sys2Proof.Machine.execSwint v s
  | .swshift v => Sys2Proof.Machine.execSwshift v s
  | .swbase b => Sys2Proof.Machine.execSwbase b s
  | .modfreq v => Sys2Proof.Machine.execModfreq v s
  | .modrpt b => Sys2Proof.Machine.execModrpt b s
  | .wavup t data => Sys2Proof.Machine.execWavup t data s
  | .modup data => Sys2Proof.Machine.execModup data s
  | .advance n => Sys2Proof.Machine.execAdvance n s

end Sys2Proof.Machine
end

