-- ==== Sys2Proof/Machine/Step.lean ====
section
/-! DEFINITION. One step: the oldest pending command is taken, decoded and run (20_memory.md R48, R49, R51). -/

namespace Sys2Proof.Machine

/-- One step of the machine. With no command pending the block waits: it does nothing and loses nothing (R161, R163). A
command that decodes to NOP is taken and changes nothing (R64, R65). -/
def step (s : State) : Host.Outcome State Fault Refusal :=
  match s.takeCommand with
  | none => .next s
  | some (cmd, s') =>
    match Sys2Proof.decode cmd with
    | .instr i => exec i s'
    | .nop _ => .next s'

/-- `s` with the command the opcode table numbers as `w` issued ahead of every pending one (log 4, log 8). -/
def State.withFetchWord (s : State) (nbits w : Nat) : State :=
  { s with input := Sys2Proof.commandOfTableWord nbits w :: s.input }

end Sys2Proof.Machine
end

