-- ==== Sys2Proof/Safety.lean ====
section
/-! DEFINITION. The terms claims are stated in: the invariant of the machine, what an instruction changes and leaves
unchanged, and the closed forms of the spec's derived rules. -/

namespace Sys2Proof.Machine

/-! ## The invariant -/

/-- What holds of the block between commands in every run from reset, for an instance with parameters `p`. -/
structure Block.Inv (p : Params) (b : Block) : Prop where
  /-- The wavetable space is in canonical form. -/
  waveWf : b.wave.wf
  /-- The modulation table is in canonical form. -/
  modtWf : b.modt.wf
  /-- Only addresses 0..159 are held, each entry in 0..63 (R42). -/
  waveCells : ∀ c ∈ b.wave, c.1 < 160 ∧ c.2.toNat < 64
  /-- Only addresses 0..31 are held (R43). -/
  modtCells : ∀ c ∈ b.modt, c.1 < 32
  /-- `envCnt <= 31` (R27). -/
  envCnt : ∀ c, (b.chan c).envCnt ≤ 31
  /-- `phCnt <= 2047` (R30). -/
  phCnt : ∀ c, (b.chan c).phCnt ≤ 2047
  /-- `swCnt` is at most 7 (R32). -/
  swCnt : b.sweep.swCnt ≤ 7
  /-- The dividers stand below their periods (R106). -/
  intDiv : b.intDiv < p.intervalPeriod
  envDiv : b.envDiv < p.envelopePeriod
  swDiv : b.swDiv < 320
  /-- `noiseOut` is 0 or 63 (R34). -/
  noiseOut : b.noise.noiseOut = 0 ∨ b.noise.noiseOut = 63

/-- A returned pair of sequences is well-formed: equal lengths (R97), and every sample is `Out(Q)` of a multiple of 32 in
0..21888 (R145, R148). -/
structure Returned.wf (fmt : FloatFormat) (r : Returned) : Prop where
  sameLength : r.left.length = r.right.length
  samples : ∀ x, x ∈ r.left ∨ x ∈ r.right → x = outSample fmt x.q ∧ x.q % 32 = 0 ∧ x.q ≤ 21888

/-- The invariant of the machine. -/
structure State.Inv (s : State) : Prop where
  cfg : s.cfg.wf
  block : s.block.Inv s.cfg
  output : ∀ r ∈ s.output, r.wf s.cfg.outputFloatFormat

/-! ## Frames -/

/-- Every entry of both tables reads as before. -/
structure SameTables (b b' : Block) : Prop where
  wave : ∀ a, b'.readWave a = b.readWave a
  modt : ∀ a, b'.readModt a = b.readModt a

/-- The three dividers stand as before. -/
structure SameDividers (b b' : Block) : Prop where
  intDiv : b'.intDiv = b.intDiv
  envDiv : b'.envDiv = b.envDiv
  swDiv : b'.swDiv = b.swDiv

/-- The parameters, the pending commands and the outputs are as before. -/
structure SameOutside (s t : State) : Prop where
  cfg : t.cfg = s.cfg
  input : t.input = s.input
  output : t.output = s.output

/-- A change of channel `c`'s registers and of no other channel's. -/
def onlyChan (c : Channel) (f : ChanRegs → ChanRegs) (d : Channel) (r : ChanRegs) : ChanRegs := if d = c then f r else r

/-- A change of wave channel `w`'s registers and of no other's. -/
def onlyWave (w : WaveChannel) (f : WaveRegs → WaveRegs) (d : WaveChannel) (r : WaveRegs) : WaveRegs :=
  if d = w then f r else r

/-- No change. -/
def unchanged {ι α : Type} (_ : ι) (x : α) : α := x

/-- Every register of `t` is that of `s` changed by the given functions, and everything outside the registers (both tables,
the dividers, the parameters, the pending commands, the outputs) is as in `s`. -/
structure Registers (s t : State) (chan : Channel → ChanRegs → ChanRegs) (wave : WaveChannel → WaveRegs → WaveRegs)
    (sweep : SweepRegs → SweepRegs) (noise : NoiseRegs → NoiseRegs) : Prop where
  chan : ∀ d, t.chan d = chan d (s.chan d)
  wave : ∀ w, t.waveRegs w = wave w (s.waveRegs w)
  sweep : t.block.sweep = sweep s.block.sweep
  noise : t.block.noise = noise s.block.noise
  tables : SameTables s.block t.block
  dividers : SameDividers s.block t.block
  outside : SameOutside s t

/-- Every register, the dividers and everything outside the block are as before; the tables may differ. -/
structure SameButTables (s t : State) : Prop where
  chan : ∀ d, t.chan d = s.chan d
  wave : ∀ w, t.waveRegs w = s.waveRegs w
  sweep : t.block.sweep = s.block.sweep
  noise : t.block.noise = s.block.noise
  dividers : SameDividers s.block t.block
  outside : SameOutside s t

/-- The settings of a channel, which only commands write (R24 to R29, "written by"). -/
structure ChanRegs.SameSettings (r r' : ChanRegs) : Prop where
  intEn : r'.intEn = r.intEn
  intSet : r'.intSet = r.intSet
  envReload : r'.envReload = r.envReload
  envUp : r'.envUp = r.envUp
  envStep : r'.envStep = r.envStep
  envRepeat : r'.envRepeat = r.envRepeat
  envEn : r'.envEn = r.envEn
  volL : r'.volL = r.volL
  volR : r'.volR = r.volR
  freq : r'.freq = r.freq

/-- The settings of channel 5's sweep/modulation unit, which only commands write (R32). -/
structure SweepRegs.SameSettings (w w' : SweepRegs) : Prop where
  swLong : w'.swLong = w.swLong
  swEn : w'.swEn = w.swEn
  modRepeat : w'.modRepeat = w.modRepeat
  swMod : w'.swMod = w.swMod
  swUp : w'.swUp = w.swUp
  swShift : w'.swShift = w.swShift
  swInt : w'.swInt = w.swInt

/-! ## Sequences of instructions -/

/-- Run instructions one after another, stopping at the first that does not complete. -/
def execAll : List Instr → State → Host.Outcome State Fault Refusal
  | [], s => .next s
  | i :: is, s =>
    match exec i s with
    | .next t => execAll is t
    | .fault r => .fault r
    | .refused r => .refused r

/-- The number of a channel (R3). -/
def channelNumber : Channel → Nat
  | .ch1 => 1
  | .ch2 => 2
  | .ch3 => 3
  | .ch4 => 4
  | .ch5 => 5
  | .ch6 => 6

/-- A field write's fid, `32*c + code` (R59). -/
def fieldFid (c : Channel) (code : Nat) : Byte := BitVec.ofNat 8 (32 * channelNumber c + code)

/-! ## Closed forms of derived rules -/

/-- `max(1, ceil((2048 - f) / inc))`, and 1 for `f >= 2048`: the cycles per step of an accumulator that adds `inc` (`k(f)` of
R118 with 120, `kN(f)` of R136 with 12). -/
def stepPeriod (inc f : Nat) : Nat := max 1 ((2048 - f + (inc - 1)) / inc)

/-- The level after `j` level changes of a ramp that starts at its reload `r` (R109). -/
def rampLevel (up rep : Bool) (r j : Nat) : Nat :=
  match up, rep with
  | true, false => min 15 (r + j)
  | false, false => r - j
  | true, true => r + j % (16 - r)
  | false, true => r - j % (r + 1)

end Sys2Proof.Machine
end

