-- ==== Sys2Proof/Certificates/Slice0/Obligations.lean ====
section
/-! DEFINITION. The statements for the provers. Each docstring names the rule of spec/ it formalises. -/

open Sys2Proof Sys2Proof.Machine

/-! ## Encoding -/

/-- R64, R62, R63: decoding the command of a well-formed instruction gives the instruction back, every operand at
every value. -/
def Obligations.DecodeOfEncode : Prop :=
  ∀ i : Instr, WellFormed i → decode (encode i) = .instr i

/-- opcode_table.json, R64: a command decodes to an instruction exactly when the table has a row of its format and
fid, and the instruction is one of that row's mnemonic. -/
def Obligations.DecodeMatchesOpcodeTable : Prop :=
  (∀ cmd i, decode cmd = .instr i →
    ∃ row ∈ opcodeRows, row.mnemonic = i.mnemonic ∧ row.format = cmd.format ∧ row.fid = cmd.fid) ∧
  (∀ row ∈ opcodeRows, ∀ cmd : Command, cmd.format = row.format → cmd.fid = row.fid →
    ∃ i, decode cmd = .instr i ∧ i.mnemonic = row.mnemonic)

/-- R64, R66: what decodes is well-formed, and its own encoding has the same format and fid. -/
def Obligations.DecodedInstructionsReencode : Prop :=
  ∀ cmd i, decode cmd = .instr i →
    WellFormed i ∧ (encode i).format = cmd.format ∧ (encode i).fid = cmd.fid

/-- R65, R66: the commands that decode to NOP are exactly these. With `chan = fid / 32` and `code = fid % 32`: channel
7; a global code 0x06 to 0x1E; a per-channel code 0x0D to 0x0F or 0x18 to 0x1F; a T command to any fid but 0x00..0x05;
a W command to fid 0x00..0x05; WAVSEL on channel 6, TAP on channels 1..5, codes 0x10..0x17 on channels 1..4 and 6. -/
def Obligations.NopCommandsAreTheReservedSet : Prop :=
  ∀ cmd : Command,
    (∃ why, decode cmd = .nop why) ↔
      (let chan := cmd.fid.toNat / 32
       let code := cmd.fid.toNat % 32
       chan = 7 ∨
       (chan = 0 ∧ 0x06 ≤ code ∧ code ≤ 0x1E) ∨
       (1 ≤ chan ∧ chan ≤ 6 ∧ ((0x0D ≤ code ∧ code ≤ 0x0F) ∨ 0x18 ≤ code)) ∨
       (cmd.format = .T ∧ 0x05 < cmd.fid.toNat) ∨
       (cmd.format = .W ∧ cmd.fid.toNat ≤ 0x05) ∨
       (code = 0x0B ∧ chan = 6) ∨
       (code = 0x0C ∧ 1 ≤ chan ∧ chan ≤ 5) ∨
       (0x10 ≤ code ∧ code ≤ 0x17 ∧ 1 ≤ chan ∧ chan ≤ 6 ∧ chan ≠ 5))

/-- 95_test_vectors.md 2.1 and the examples of 40, 41 and 42: a few commands written out from the spec's encodings:
CHEN 1, 1; INTEN 2, 0; INTSET 1, 33; ENVRLD 1, 15; FREQ 1, 1928; WAVSEL 2, 5; TAP 6, 3; MODFREQ 1000; WAVUP 0; MODUP;
ADVANCE 4. -/
def Obligations.SampleCommandsDecode : Prop :=
  decode (.w 0x20 0x00000001) = .instr (.chen .ch1 true) ∧
  decode (.w 0x41 0x00000000) = .instr (.inten .ch2 false) ∧
  decode (.w 0x22 0x00000021) = .instr (.intset .ch1 1) ∧
  decode (.w 0x23 0x0000000F) = .instr (.envrld .ch1 15) ∧
  decode (.w 0x28 0x00000788) = .instr (.freq .ch1 1928) ∧
  decode (.w 0x4B 0x00000005) = .instr (.wavsel .ch2 5) ∧
  decode (.w 0xCC 0x00000003) = .instr (.tap 3) ∧
  decode (.w 0xB6 0x000003E8) = .instr (.modfreq 1000) ∧
  (∀ data, decode (.t 0x00 data) = .instr (.wavup 0 data)) ∧
  (∀ data, decode (.t 0x05 data) = .instr (.modup data)) ∧
  decode (.w 0x1F 0x00000004) = .instr (.advance 4)

/-- R68, R69: an assembler line of a field write assembles exactly on a channel that has the field, to the W command
of that channel and code, and decodes to an instruction of the line's mnemonic; WAVUP, MODUP and ADVANCE lines
assemble to their own commands and decode to their instructions; RAW gives any W command; each pseudo-instruction
expands to the lines of R69, in order, and every line of an expansion assembles; NOP decodes to no operation, and
DURATION makes its channel audible. A line is data here, not text, by the model's choice (log 18). -/
def Obligations.AssemblerLinesDecode : Prop :=
  (∀ (k : FieldKind) (c : Channel) (v : Word),
    let valid : Prop := (k = .wavsel → c ≠ .ch6) ∧ (k = .tap → c = .ch6) ∧
      (k ∈ [.swdir, .swen, .swfunc, .swint, .swshift, .swbase, .modfreq, .modrpt] → c = .ch5)
    (valid → (AsmLine.field k c v).assemble = some (.w (fieldFid c k.code.toNat) v) ∧
      decode (.w (fieldFid c k.code.toNat) v) = .instr (k.instr c v) ∧ (k.instr c v).mnemonic = .field k) ∧
    (¬ valid → (AsmLine.field k c v).assemble = none)) ∧
  (∀ (t : Fin 5) (data : Payload),
    (AsmLine.wavup t data).assemble = some (.t (BitVec.ofNat 8 t.val) data) ∧
    decode (.t (BitVec.ofNat 8 t.val) data) = .instr (.wavup t data)) ∧
  (∀ data : Payload, (AsmLine.modup data).assemble = some (.t 0x05 data) ∧ decode (.t 0x05 data) = .instr (.modup data)) ∧
  (∀ n : Word, (AsmLine.advance n).assemble = some (.w 0x1F n) ∧ decode (.w 0x1F n) = .instr (.advance n)) ∧
  (∀ (fid : Byte) (v : Word), (AsmLine.raw fid v).assemble = some (.w fid v)) ∧
  (Pseudo.nop.expand = [.raw 0xFF 0] ∧ ∃ why, decode (.w 0xFF 0) = .nop why) ∧
  (∀ c, (Pseudo.play c).expand = [.field .chen c 1] ∧ (Pseudo.stop c).expand = [.field .chen c 0]) ∧
  (∀ c l r, (Pseudo.vol c l r).expand = [.field .voll c l, .field .volr c r]) ∧
  (∀ c rl up st rp, (Pseudo.env c rl up st rp).expand =
    [.field .envrld c rl, .field .envdir c up, .field .envstp c st, .field .envrpt c rp, .field .enven c 1]) ∧
  (∀ c n, (Pseudo.duration c n).expand = [.field .intset c n, .field .inten c 1]) ∧
  (∀ t b, ∃ data : Payload, (Pseudo.wavefill t b).expand = [.wavup t data] ∧ data.bytes = List.replicate 32 b) ∧
  (∀ (p : Pseudo) (l : AsmLine), l ∈ p.expand → ∃ cmd, l.assemble = some cmd) ∧
  (∀ (c : Channel) (v : BitVec 5) (s : State),
    ∃ t, execAll [.intset c v, .inten c true] s = .next t ∧ (t.chan c).outEn = true)

/-! ## The step -/

/-- R48, R49, R64, R163: a step takes the oldest pending command; a well-formed instruction it decodes to runs as
`exec`; a NOP changes nothing else; with no command pending the machine waits unchanged. The queue of pending commands
is the model's own (log 4). -/
def Obligations.StepRunsOldestCommand : Prop :=
  (∀ (s : State) (cmd : Command) (rest : List Command), s.input = cmd :: rest →
    (∀ i, decode cmd = .instr i → step s = exec i { s with input := rest }) ∧
    (∀ why, decode cmd = .nop why → step s = .next { s with input := rest })) ∧
  (∀ s : State, s.input = [] → step s = .next s)

/-- R150: no exception, in any state and for any command; the step is total. -/
def Obligations.EveryStepCompletes : Prop :=
  (∀ s : State, ∃ t, step s = .next t) ∧ (∀ (i : Instr) (s : State), ∃ t, exec i s = .next t)

/-! ## What each instruction does -/

/-- R71: `W`, `fid = 32*c + 0x00`, bit 0 of the value. CHEN writes `outEn`; enabling also zeroes `envCnt` and `phCnt`,
and `phase` on channels 1 to 5 or reseeds `lfsr` with 0x7FFF on channel 6; nothing else changes. -/
def Obligations.ChenWrites : Prop :=
  (∀ (c : Channel) (v : Word), decode (.w (fieldFid c 0x00) v) = .instr (.chen c (decide (v.toNat % 2 = 1)))) ∧
  (∀ (w : WaveChannel) (b : Bool) (s : State), ∃ t, exec (.chen w.channel b) s = .next t ∧
    Registers s t
      (onlyChan w.channel fun r =>
        { r with outEn := b, envCnt := if b then 0 else r.envCnt, phCnt := if b then 0 else r.phCnt })
      (onlyWave w fun r => { r with phase := if b then 0 else r.phase }) id id) ∧
  (∀ (b : Bool) (s : State), ∃ t, exec (.chen .ch6 b) s = .next t ∧
    Registers s t
      (onlyChan .ch6 fun r =>
        { r with outEn := b, envCnt := if b then 0 else r.envCnt, phCnt := if b then 0 else r.phCnt })
      unchanged id (fun n => { n with lfsr := if b then 0x7FFF else n.lfsr }))

/-- R72, R73: `fid = 32*c + 0x01` and `0x02`, bit 0 and the low 5 bits of the value. INTEN stores its flag, sets
`outEn` whatever the flag is, and clears `intCnt` when enabling; INTSET stores the setting and not the counter. -/
def Obligations.IntervalWrites : Prop :=
  (∀ (c : Channel) (v : Word),
    decode (.w (fieldFid c 0x01) v) = .instr (.inten c (decide (v.toNat % 2 = 1))) ∧
    decode (.w (fieldFid c 0x02) v) = .instr (.intset c (BitVec.ofNat 5 (v.toNat % 32)))) ∧
  (∀ (c : Channel) (b : Bool) (s : State), ∃ t, exec (.inten c b) s = .next t ∧
    Registers s t (onlyChan c fun r => { r with intEn := b, outEn := true, intCnt := if b then 0 else r.intCnt })
      unchanged id id) ∧
  (∀ (c : Channel) (v : BitVec 5) (s : State), ∃ t, exec (.intset c v) s = .next t ∧
    Registers s t (onlyChan c fun r => { r with intSet := v }) unchanged id id)

/-- R74 to R78: `fid = 32*c + 0x03` to `0x07`, the value reduced to the field. ENVRLD forces the live level too; ENVEN
reloads the level when enabling and keeps `envCnt`; ENVDIR, ENVSTP and ENVRPT write their own field only. -/
def Obligations.EnvelopeWrites : Prop :=
  (∀ (c : Channel) (v : Word),
    decode (.w (fieldFid c 0x03) v) = .instr (.envrld c (BitVec.ofNat 4 (v.toNat % 16))) ∧
    decode (.w (fieldFid c 0x04) v) = .instr (.envdir c (decide (v.toNat % 2 = 1))) ∧
    decode (.w (fieldFid c 0x05) v) = .instr (.envstp c (BitVec.ofNat 5 (v.toNat % 32))) ∧
    decode (.w (fieldFid c 0x06) v) = .instr (.envrpt c (decide (v.toNat % 2 = 1))) ∧
    decode (.w (fieldFid c 0x07) v) = .instr (.enven c (decide (v.toNat % 2 = 1)))) ∧
  (∀ (c : Channel) (v : BitVec 4) (s : State), ∃ t, exec (.envrld c v) s = .next t ∧
    Registers s t (onlyChan c fun r => { r with envReload := v, envLevel := v }) unchanged id id) ∧
  (∀ (c : Channel) (b : Bool) (s : State), ∃ t, exec (.envdir c b) s = .next t ∧
    Registers s t (onlyChan c fun r => { r with envUp := b }) unchanged id id) ∧
  (∀ (c : Channel) (v : BitVec 5) (s : State), ∃ t, exec (.envstp c v) s = .next t ∧
    Registers s t (onlyChan c fun r => { r with envStep := v }) unchanged id id) ∧
  (∀ (c : Channel) (b : Bool) (s : State), ∃ t, exec (.envrpt c b) s = .next t ∧
    Registers s t (onlyChan c fun r => { r with envRepeat := b }) unchanged id id) ∧
  (∀ (c : Channel) (b : Bool) (s : State), ∃ t, exec (.enven c b) s = .next t ∧
    Registers s t (onlyChan c fun r => { r with envEn := b, envLevel := if b then r.envReload else r.envLevel })
      unchanged id id)

/-- R79 to R81: `fid = 32*c + 0x08` to `0x0A`. FREQ stores the 32-bit value unmasked, on channel 5 too without
touching `modFreq`; VOLL and VOLR store the low 4 bits at their side; no counter or phase changes. -/
def Obligations.FrequencyAndStereoWrites : Prop :=
  (∀ (c : Channel) (v : Word),
    decode (.w (fieldFid c 0x08) v) = .instr (.freq c v) ∧
    decode (.w (fieldFid c 0x09) v) = .instr (.voll c (BitVec.ofNat 4 (v.toNat % 16))) ∧
    decode (.w (fieldFid c 0x0A) v) = .instr (.volr c (BitVec.ofNat 4 (v.toNat % 16)))) ∧
  (∀ (c : Channel) (v : BitVec 32) (s : State), ∃ t, exec (.freq c v) s = .next t ∧
    Registers s t (onlyChan c fun r => { r with freq := v }) unchanged id id) ∧
  (∀ (c : Channel) (v : BitVec 4) (s : State), ∃ t, exec (.voll c v) s = .next t ∧
    Registers s t (onlyChan c fun r => { r with volL := v }) unchanged id id) ∧
  (∀ (c : Channel) (v : BitVec 4) (s : State), ∃ t, exec (.volr c v) s = .next t ∧
    Registers s t (onlyChan c fun r => { r with volR := v }) unchanged id id)

/-- R82: `fid = 32*c + 0x0B` on channels 1 to 5, the low 3 bits; fid 0xCB is a no-op. WAVSEL stores the select, keeps
the phase and changes nothing else. -/
def Obligations.WaveSelectWrites : Prop :=
  (∀ (w : WaveChannel) (v : Word),
    decode (.w (fieldFid w.channel 0x0B) v) = .instr (.wavsel w.channel (BitVec.ofNat 3 (v.toNat % 8)))) ∧
  (∀ v : Word, ∃ why, decode (.w 0xCB v) = .nop why) ∧
  (∀ (w : WaveChannel) (v : BitVec 3) (s : State), ∃ t, exec (.wavsel w.channel v) s = .next t ∧
    Registers s t unchanged (onlyWave w fun r => { r with wave := v }) id id)

/-- R83: fid 0xCC, the low 3 bits; the same code on channels 1 to 5 is a no-op. TAP stores the tap select, does not
reseed the shift register and changes nothing else. -/
def Obligations.TapWrites : Prop :=
  (∀ v : Word, decode (.w 0xCC v) = .instr (.tap (BitVec.ofNat 3 (v.toNat % 8)))) ∧
  (∀ (w : WaveChannel) (v : Word), ∃ why, decode (.w (fieldFid w.channel 0x0C) v) = .nop why) ∧
  (∀ (v : BitVec 3) (s : State), ∃ t, exec (.tap v) s = .next t ∧
    Registers s t unchanged unchanged id (fun n => { n with tap := v }))

/-- R84 to R89, R91: fids 0xB0 to 0xB5 and 0xB7, the value reduced to the field. Each sweep/modulation setting is
written by its own command, and nothing else by it. -/
def Obligations.SweepSettingWrites : Prop :=
  (∀ v : Word,
    decode (.w 0xB0 v) = .instr (.swdir (decide (v.toNat % 2 = 1))) ∧
    decode (.w 0xB1 v) = .instr (.swen (decide (v.toNat % 2 = 1))) ∧
    decode (.w 0xB2 v) = .instr (.swfunc (decide (v.toNat % 2 = 1))) ∧
    decode (.w 0xB3 v) = .instr (.swint (BitVec.ofNat 3 (v.toNat % 8))) ∧
    decode (.w 0xB4 v) = .instr (.swshift (BitVec.ofNat 3 (v.toNat % 8))) ∧
    decode (.w 0xB5 v) = .instr (.swbase (decide (v.toNat % 2 = 1))) ∧
    decode (.w 0xB7 v) = .instr (.modrpt (decide (v.toNat % 2 = 1)))) ∧
  (∀ s : State,
    (∀ b, ∃ t, exec (.swdir b) s = .next t ∧ Registers s t unchanged unchanged (fun w => { w with swUp := b }) id) ∧
    (∀ b, ∃ t, exec (.swen b) s = .next t ∧ Registers s t unchanged unchanged (fun w => { w with swEn := b }) id) ∧
    (∀ b, ∃ t, exec (.swfunc b) s = .next t ∧ Registers s t unchanged unchanged (fun w => { w with swMod := b }) id) ∧
    (∀ v, ∃ t, exec (.swint v) s = .next t ∧ Registers s t unchanged unchanged (fun w => { w with swInt := v }) id) ∧
    (∀ v, ∃ t, exec (.swshift v) s = .next t ∧ Registers s t unchanged unchanged (fun w => { w with swShift := v }) id) ∧
    (∀ b, ∃ t, exec (.swbase b) s = .next t ∧ Registers s t unchanged unchanged (fun w => { w with swLong := b }) id) ∧
    (∀ b, ∃ t, exec (.modrpt b) s = .next t ∧ Registers s t unchanged unchanged (fun w => { w with modRepeat := b }) id))

/-- R90: fid 0xB6, the low 16 bits. MODFREQ loads `modFreq` under the targets both and current, and `nextModFreq`
under both and next, and changes nothing else. -/
def Obligations.ModfreqLoadsItsTargets : Prop :=
  (∀ v : Word, decode (.w 0xB6 v) = .instr (.modfreq (BitVec.ofNat 16 (v.toNat % 65536)))) ∧
  (∀ (v : BitVec 16) (s : State), ∃ t, exec (.modfreq v) s = .next t ∧
    Registers s t unchanged unchanged
      (fun w =>
        { w with
          modFreq := if s.cfg.modfreqTarget = .next then w.modFreq else v
          nextModFreq := if s.cfg.modfreqTarget = .current then w.nextModFreq else v }) id)

/-- R92, R94: `T`, `fid = t`; a W command to that fid is a no-op. WAVUP t stores `(d == 0 ? 0 : d - 1) mod 64` of byte
i at `WAVE[t][i]`; every other entry of both tables, every register and every divider is unchanged. The premise is
part of the machine's invariant. -/
def Obligations.WavupStoresConvertedBytes : Prop :=
  (∀ (t : Fin 5) (data : Payload), decode (.t (BitVec.ofNat 8 t.val) data) = .instr (.wavup t data)) ∧
  (∀ (t : Fin 5) (v : Word), ∃ why, decode (.w (BitVec.ofNat 8 t.val) v) = .nop why) ∧
  (∀ (t : Fin 5) (data : Payload) (s : State), s.block.wave.wf →
    ∃ s', exec (.wavup t data) s = .next s' ∧
      (∀ (i : Nat) (h : i < data.bytes.length), (s'.block.readWave (waveAddress t.val i)).toNat =
        (if (data.bytes[i]).toNat = 0 then 0 else (data.bytes[i]).toNat - 1) % 64) ∧
      (∀ a, a < waveAddress t.val 0 ∨ waveAddress t.val 32 ≤ a → s'.block.readWave a = s.block.readWave a) ∧
      (∀ a, s'.block.readModt a = s.block.readModt a) ∧
      SameButTables s s')

/-- R93, R95: `T`, fid 0x05; a W command to it is a no-op. MODUP stores the signed byte i, less one when it is not
zero and MOD_UPLOAD_OFFSET is true, wrapped into -128..127, at `MODT[i]`; every other entry of both tables, every
register and every divider is unchanged. The premise is part of the machine's invariant. -/
def Obligations.ModupStoresConvertedBytes : Prop :=
  (∀ data : Payload, decode (.t 0x05 data) = .instr (.modup data)) ∧
  (∀ v : Word, ∃ why, decode (.w 0x05 v) = .nop why) ∧
  (∀ (data : Payload) (s : State), s.block.modt.wf →
    ∃ s', exec (.modup data) s = .next s' ∧
      (∀ (i : Nat) (h : i < data.bytes.length), s'.block.readModt i =
        (let d := (data.bytes[i]).toInt
         if s.cfg.modUploadOffset = false ∨ d = 0 then d else if d = -128 then 127 else d - 1)) ∧
      (∀ a, 32 ≤ a → s'.block.readModt a = s.block.readModt a) ∧
      (∀ a, s'.block.readWave a = s.block.readWave a) ∧
      SameButTables s s')

/-- R97, R98, R149: ADVANCE N completes; the block has run N cycles; what is returned is N left and N right samples,
sample k the output of the mixer after cycle k. The list `output` that holds it is the model's own (log 5). -/
def Obligations.AdvanceRunsAllCycles : Prop :=
  (∀ n : Word, decode (.w 0x1F n) = .instr (.advance n)) ∧
  ∀ (n : Word) (s : State), ∃ t r, exec (.advance n) s = .next t ∧
    t.block = (Block.tick s.cfg)^[n.toNat] s.block ∧ t.cfg = s.cfg ∧ t.input = s.input ∧ t.output = s.output ++ [r] ∧
    r.left.length = n.toNat ∧ r.right.length = n.toNat ∧
    ∀ k, k < n.toNat →
      r.left[k]? = some (outSample s.cfg.outputFloatFormat ((Block.tick s.cfg)^[k + 1] s.block).mix.ql) ∧
      r.right[k]? = some (outSample s.cfg.outputFloatFormat ((Block.tick s.cfg)^[k + 1] s.block).mix.qr)

/-- R36, R37, "written by" of R24 to R35: ADVANCE writes no table entry, no setting of any channel, no wave select, no
tap and no sweep/modulation setting. -/
def Obligations.AdvanceKeepsHostSettings : Prop :=
  ∀ (n : Word) (s : State), ∃ t, exec (.advance n) s = .next t ∧
    SameTables s.block t.block ∧
    (∀ c, (s.chan c).SameSettings (t.chan c)) ∧
    (∀ w, (t.waveRegs w).wave = (s.waveRegs w).wave) ∧
    s.block.sweep.SameSettings t.block.sweep ∧ t.block.noise.tap = s.block.noise.tap

/-! ## The dividers and ADVANCE -/

/-- R52, R98 and 95_test_vectors.md 2.4: an ADVANCE of a then one of b leave the block as one of a + b does, and
return its samples cut after the a-th. The list `output` is the model's own (log 5). -/
def Obligations.AdvanceComposes : Prop :=
  ∀ (a b : Word) (s : State), a.toNat + b.toNat < 2 ^ 32 →
    ∃ t t' r r', execAll [.advance a, .advance b] s = .next t ∧ exec (.advance (a + b)) s = .next t' ∧
      t.block = t'.block ∧ t.output = s.output ++ [r, r'] ∧
      t'.output = s.output ++ [⟨r.left ++ r'.left, r.right ++ r'.right⟩]

/-- R105: after N cycles each divider of fixed period stands at its start plus N modulo its period. R104, R106, in one
cycle and from any count: the sweep/modulation divider counts, and fires at the period selected in that cycle; so a
count of 40 to 319, or of 39, left by SWBASE 1 to 0 fires in the next cycle. -/
def Obligations.DividersCountModuloPeriod : Prop :=
  (∀ (n : Word) (s : State),
    s.block.intDiv < s.cfg.intervalPeriod → s.block.envDiv < s.cfg.envelopePeriod →
    s.block.swDiv < (if s.block.sweep.swLong then 320 else 40) →
    ∃ t, exec (.advance n) s = .next t ∧
      t.block.intDiv = (s.block.intDiv + n.toNat) % s.cfg.intervalPeriod ∧
      t.block.envDiv = (s.block.envDiv + n.toNat) % s.cfg.envelopePeriod ∧
      t.block.swDiv = (s.block.swDiv + n.toNat) % (if s.block.sweep.swLong then 320 else 40)) ∧
  (∀ s : State, ∃ t, exec (.advance 1) s = .next t ∧
    t.block.swDiv = if (if s.block.sweep.swLong then 320 else 40) ≤ s.block.swDiv + 1 then 0 else s.block.swDiv + 1) ∧
  (∀ s : State, 39 ≤ s.block.swDiv →
    ∃ t, execAll [.swbase false, .advance 1] s = .next t ∧ t.block.swDiv = 0 ∧
      (s.cfg.sweepIntervalMode = .gate → t.block.sweep.modFreq = s.block.sweep.nextModFreq))

/-! ## One cycle -/

/-- R103, R107, in one cycle, on every channel: the envelope divider counts and fires at ENVELOPE_PERIOD; when it
fires, an enabled envelope counts, and a count past `envStep` restarts it and moves the level up to 15 or down to 0,
at the bound back to the reload with repeat and not at all without. -/
def Obligations.EnvelopeInOneCycle : Prop :=
  ∀ s : State, ∃ t, exec (.advance 1) s = .next t ∧
    t.block.envDiv = (if s.cfg.envelopePeriod ≤ s.block.envDiv + 1 then 0 else s.block.envDiv + 1) ∧
    ∀ c, let r := s.chan c
      let ticks : Prop := s.cfg.envelopePeriod ≤ s.block.envDiv + 1 ∧ r.envEn = true
      let due : Prop := r.envStep.toNat < r.envCnt + 1
      (¬ ticks → (t.chan c).envCnt = r.envCnt ∧ (t.chan c).envLevel = r.envLevel) ∧
      (ticks → ¬ due → (t.chan c).envCnt = r.envCnt + 1 ∧ (t.chan c).envLevel = r.envLevel) ∧
      (ticks → due → (t.chan c).envCnt = 0 ∧
        (t.chan c).envLevel.toNat =
          if r.envUp = true ∧ r.envLevel.toNat < 15 then r.envLevel.toNat + 1
          else if r.envUp = false ∧ 0 < r.envLevel.toNat then r.envLevel.toNat - 1
          else if r.envRepeat then r.envReload.toNat else r.envLevel.toNat)

/-- R102, R112, and the core's writers of `outEn` in R36, in one cycle, on every channel: the interval divider counts
and fires at INTERVAL_PERIOD; when it fires, a channel with both flags set counts, and a count past `intSet` clears
`outEn`; but for that, only channel 5's overflow at a secondary tick clears `outEn`. -/
def Obligations.IntervalInOneCycle : Prop :=
  ∀ s : State, ∃ t, exec (.advance 1) s = .next t ∧
    t.block.intDiv = (if s.cfg.intervalPeriod ≤ s.block.intDiv + 1 then 0 else s.block.intDiv + 1) ∧
    ∀ c, let r := s.chan c
      let ticks : Prop := s.cfg.intervalPeriod ≤ s.block.intDiv + 1 ∧ r.outEn = true ∧ r.intEn = true
      let overflow : Prop := c = .ch5 ∧ (if s.block.sweep.swLong then 320 else 40) ≤ s.block.swDiv + 1 ∧
        (s.cfg.sweepIntervalMode = .divide → max 1 s.block.sweep.swInt.toNat ≤ s.block.sweep.swCnt + 1) ∧
        2048 ≤ s.block.sweep.nextModFreq.toNat
      (ticks → (t.chan c).intCnt = r.intCnt + 1) ∧ (¬ ticks → (t.chan c).intCnt = r.intCnt) ∧
      ((t.chan c).outEn = true ↔
        r.outEn = true ∧ ¬ (ticks ∧ r.intSet.toNat < r.intCnt + 1) ∧ ¬ overflow)

/-- R117, R135, in one cycle: channel 1 to 5's counter gains 120 and channel 6's 12; it is compared, as integers, with
2048 less the frequency played (channel 5's is `modFreq` as this cycle's secondary tick left it, R99), and reaching it
clears the counter and steps the phase, or the shift register, once. -/
def Obligations.AccumulatorsInOneCycle : Prop :=
  ∀ s : State, ∃ t, exec (.advance 1) s = .next t ∧
    (∀ w : WaveChannel,
      let f : Int := if w = .ch5 then (t.block.sweep.modFreq.toNat : Int) else ((s.chan w.channel).freq.toNat : Int)
      let count := (s.chan w.channel).phCnt + 120
      let steps : Prop := (count : Int) ≥ 2048 - f
      (steps → (t.chan w.channel).phCnt = 0 ∧
        (t.waveRegs w).phase.toNat = ((s.waveRegs w).phase.toNat + 1) % 32) ∧
      (¬ steps → (t.chan w.channel).phCnt = count ∧ (t.waveRegs w).phase = (s.waveRegs w).phase)) ∧
    (let count := (s.chan .ch6).phCnt + 12
     let steps : Prop := (count : Int) ≥ 2048 - ((s.chan .ch6).freq.toNat : Int)
     (steps → (t.chan .ch6).phCnt = 0 ∧ t.block.noise = s.block.noise.lfsrStep) ∧
     (¬ steps → (t.chan .ch6).phCnt = count ∧ t.block.noise = s.block.noise))

/-! ## Envelope and duration -/

/-- R109: the four ramp shapes, from `envCnt = 0` and the level at the reload, at every number of envelope ticks. -/
def Obligations.EnvelopeRampShapes : Prop :=
  ∀ (r : ChanRegs) (n : Nat), r.envEn = true → r.envCnt = 0 → r.envLevel = r.envReload →
    (envelopeTick^[n] r).envLevel.toNat =
      rampLevel r.envUp r.envRepeat r.envReload.toNat (n / (r.envStep.toNat + 1))

/-- R101, R105, R108: N cycles give each channel's envelope `(envDiv + N) / ENVELOPE_PERIOD` envelope ticks, whether
or not the channel is audible, and nothing else moves its level or its counter. -/
def Obligations.AdvanceTicksEnvelopes : Prop :=
  ∀ (n : Word) (s : State) (c : Channel), s.block.envDiv < s.cfg.envelopePeriod →
    ∃ t, exec (.advance n) s = .next t ∧
      (t.chan c).envLevel = (envelopeTick^[(s.block.envDiv + n.toNat) / s.cfg.envelopePeriod] (s.chan c)).envLevel ∧
      (t.chan c).envCnt = (envelopeTick^[(s.block.envDiv + n.toNat) / s.cfg.envelopePeriod] (s.chan c)).envCnt

/-- R111: a disabled envelope keeps its level and its counter through any ADVANCE. -/
def Obligations.DisabledEnvelopeIsFrozen : Prop :=
  ∀ (n : Word) (s : State) (c : Channel), (s.chan c).envEn = false →
    ∃ t, exec (.advance n) s = .next t ∧
      (t.chan c).envLevel = (s.chan c).envLevel ∧ (t.chan c).envCnt = (s.chan c).envCnt

/-- R113: after INTEN(1), through an ADVANCE of N, the channel is audible exactly while fewer than `intSet + 1`
interval ticks have come, that is while `intDiv + N < (intSet + 1) * INTERVAL_PERIOD`; on channel 5, which an overflow
can silence too, it is not audible later. -/
def Obligations.DurationAfterInten : Prop :=
  ∀ (n : Word) (s : State) (c : Channel), s.block.intDiv < s.cfg.intervalPeriod →
    ∃ t, execAll [.inten c true, .advance n] s = .next t ∧
      ((t.chan c).outEn = true →
        s.block.intDiv + n.toNat < ((s.chan c).intSet.toNat + 1) * s.cfg.intervalPeriod) ∧
      (c ≠ .ch5 → s.block.intDiv + n.toNat < ((s.chan c).intSet.toNat + 1) * s.cfg.intervalPeriod →
        (t.chan c).outEn = true)

/-- R114: nothing in the core sets `outEn`: a silent channel is silent after any ADVANCE, its duration counter kept
(R115). -/
def Obligations.SilentChannelStaysSilent : Prop :=
  ∀ (n : Word) (s : State) (c : Channel), (s.chan c).outEn = false →
    ∃ t, exec (.advance n) s = .next t ∧ (t.chan c).outEn = false ∧ (t.chan c).intCnt = (s.chan c).intCnt

/-! ## Accumulators -/

/-- R117, R118, R120: from `phCnt = 0`, N cycles step the phase of a channel 1..4 exactly N / k(f) times, k(f) cycles
apart, for every 32-bit frequency, with k(f) = 1 for every f of 2048 or more; `phCnt` stands at 120 times the rest. -/
def Obligations.WavePhaseStepsEveryPeriod : Prop :=
  ∀ (n : Word) (s : State) (w : WaveChannel), w ≠ .ch5 → (s.chan w.channel).phCnt = 0 →
    ∃ t, exec (.advance n) s = .next t ∧
      (t.waveRegs w).phase.toNat =
        ((s.waveRegs w).phase.toNat + n.toNat / stepPeriod 120 (s.chan w.channel).freq.toNat) % 32 ∧
      (t.chan w.channel).phCnt = 120 * (n.toNat % stepPeriod 120 (s.chan w.channel).freq.toNat)

/-- R118: the step period of a wave channel takes the values 1 to 18 only; it is 18 for f = 0 and 1 from 1928 on. -/
def Obligations.EighteenWavePeriods : Prop :=
  (∀ f, 1 ≤ stepPeriod 120 f ∧ stepPeriod 120 f ≤ 18) ∧
  (∀ f k, 1 ≤ k → k ≤ 18 → f ≤ 2047 →
    (stepPeriod 120 f = k ↔ 2048 ≤ f + 120 * k ∧ f + 120 * (k - 1) ≤ 2047)) ∧
  (∀ f, 2048 ≤ f → stepPeriod 120 f = 1)

/-- R135, R136: from `phCnt = 0`, N cycles step channel 6's shift register exactly N / kN(f) times. -/
def Obligations.NoiseStepsEveryPeriod : Prop :=
  ∀ (n : Word) (s : State), (s.chan .ch6).phCnt = 0 →
    ∃ t, exec (.advance n) s = .next t ∧
      t.block.noise = NoiseRegs.lfsrStep^[n.toNat / stepPeriod 12 (s.chan .ch6).freq.toNat] s.block.noise ∧
      (t.chan .ch6).phCnt = 12 * (n.toNat % stepPeriod 12 (s.chan .ch6).freq.toNat)

/-! ## Noise -/

/-- R138: LfsrStep shifts left by one, drops bit 14 and puts bit 7 XOR bit t into bit 0; R135, R139: the output is 63
when the feedback is 0 and 0 when it is 1; R137: t is TapOffset of the tap. -/
def Obligations.LfsrStepBits : Prop :=
  (∀ (n : NoiseRegs) (i : Nat), i < 15 →
    n.lfsrStep.lfsr.getLsbD i =
      if i = 0 then xor (n.lfsr.getLsbD 7) (n.lfsr.getLsbD (tapOffset n.tap)) else n.lfsr.getLsbD (i - 1)) ∧
  (∀ n : NoiseRegs, n.lfsrStep.noiseOut =
    if xor (n.lfsr.getLsbD 7) (n.lfsr.getLsbD (tapOffset n.tap)) then 0 else 63) ∧
  (∀ n : NoiseRegs, n.lfsrStep.tap = n.tap) ∧
  [0, 1, 2, 3, 4, 5, 6, 7].map tapOffset = [14, 10, 13, 4, 8, 6, 9, 11]

/-- R142: shift-register state 0 is a fixed point of the step under every tap, with output 63; every ADVANCE keeps it;
and it is reached from the seed: 8 steps with tap 0, 3 with tap 3, 4 with tap 1. -/
def Obligations.LfsrZeroIsFixed : Prop :=
  (∀ n : NoiseRegs, n.lfsr = 0 → n.lfsrStep.lfsr = 0 ∧ n.lfsrStep.noiseOut = 63) ∧
  (∀ (n : Word) (s : State), s.block.noise.lfsr = 0 →
    ∃ t, exec (.advance n) s = .next t ∧ t.block.noise.lfsr = 0 ∧
      (t.block.noise.noiseOut = s.block.noise.noiseOut ∨ t.block.noise.noiseOut = 63)) ∧
  (∀ n : NoiseRegs, n.lfsr = 0x7FFF →
    let n1 := NoiseRegs.lfsrStep^[8] { n with tap := 0 }
    let n2 := NoiseRegs.lfsrStep^[3] { n1 with tap := 3 }
    let n3 := NoiseRegs.lfsrStep^[4] { n2 with tap := 1 }
    n1.lfsr = 0x7F00 ∧ n2.lfsr = 0x7800 ∧ n3.lfsr = 0)

/-- R141: with tap 0 the shift register never reaches 0 from a non-zero state, through any ADVANCE. -/
def Obligations.LfsrTapZeroNeverDies : Prop :=
  ∀ (n : Word) (s : State), s.block.noise.tap = 0 → s.block.noise.lfsr ≠ 0 →
    ∃ t, exec (.advance n) s = .next t ∧ t.block.noise.lfsr ≠ 0

/-! ## Sweep and modulation -/

/-- R129: the sweep candidate in integers: `mf` plus or minus `mf >> shift`, modulo 65536. -/
def Obligations.SweepCandidate : Prop :=
  ∀ (mf : BitVec 16) (shift : BitVec 3),
    (sweepCand mf shift true).toNat = (mf.toNat + mf.toNat / 2 ^ shift.toNat) % 65536 ∧
    (sweepCand mf shift false).toNat = mf.toNat - mf.toNat / 2 ^ shift.toNat ∧
    mf.toNat / 2 ^ shift.toNat ≤ mf.toNat ∧ mf.toNat + mf.toNat / 2 ^ shift.toNat < 2 * 65536 ∧
    (sweepCand mf 0 true).toNat = 2 * mf.toNat % 65536 ∧ sweepCand mf 0 false = 0

/-- R131: the modulation candidate lies in 0..2047, is congruent modulo 2048 to the sum of the base and the entry, and
is made from channel 5's own `freq` and the entry at `modPhase`; so applying it silences nothing. -/
def Obligations.ModulationCandidate : Prop :=
  (∀ (f : BitVec 32) (m : Int), ((modCand f m).toNat : Int) = ((f.toNat : Int) + m) % 2048 ∧ (modCand f m).toNat < 2048) ∧
  (∀ b : Block, b.sweep.swMod = true →
    b.sweepCompute.sweep.nextModFreq = modCand (b.chan .ch5).freq (b.readModt b.sweep.modPhase.toNat)) ∧
  (∀ (f : BitVec 32) (m : Int), sweepOverflows (modCand f m) = false)

/-- R132: the modulation index holds at 31 without repeat, and otherwise advances modulo 32; it moves once at each
secondary tick that computes a modulation candidate, and at no other. -/
def Obligations.ModulationIndexAdvances : Prop :=
  (∀ w : SweepRegs, modPhaseAdvance w =
    { w with modPhase := if w.modRepeat = false ∧ w.modPhase.toNat = 31 then w.modPhase
                         else BitVec.ofNat 5 ((w.modPhase.toNat + 1) % 32) }) ∧
  (∀ (g : SweepRunGate) (b : Block),
    (b.sweepApply.sweepComputes g = true ∧ b.sweep.swMod = true →
      (b.sweepModTick g).sweep.modPhase = (modPhaseAdvance b.sweep).modPhase) ∧
    (¬ (b.sweepApply.sweepComputes g = true ∧ b.sweep.swMod = true) →
      (b.sweepModTick g).sweep.modPhase = b.sweep.modPhase))

/-- R126, R127, R128: the secondary tick applies `nextModFreq`; it clears channel 5's `outEn` when the applied value
is 2048 or more; it computes a candidate exactly when the unit is enabled, running and its interval is not 0; in
modulation it then advances the index. Nothing else changes. -/
def Obligations.SecondaryTick : Prop :=
  ∀ (g : SweepRunGate) (b : Block),
    let w := b.sweep
    let out := (b.chan .ch5).outEn && decide (w.nextModFreq.toNat < 2048)
    let computes := w.swEn = true ∧ (g = .outputEnabled → out = true) ∧ w.swInt.toNat ≠ 0
    let b' := b.sweepModTick g
    (∀ c, b'.chan c = onlyChan .ch5 (fun r => { r with outEn := out }) c (b.chan c)) ∧
    b'.sweep.modFreq = w.nextModFreq ∧
    (computes → w.swMod = false →
      b'.sweep = { w with modFreq := w.nextModFreq, nextModFreq := sweepCand w.nextModFreq w.swShift w.swUp }) ∧
    (computes → w.swMod = true →
      b'.sweep = { modPhaseAdvance w with
        modFreq := w.nextModFreq, nextModFreq := modCand (b.chan .ch5).freq (b.readModt w.modPhase.toNat) }) ∧
    (¬ computes → b'.sweep = { w with modFreq := w.nextModFreq }) ∧
    (∀ v, b'.waveRegs v = b.waveRegs v) ∧ b'.noise = b.noise ∧ SameTables b b' ∧ SameDividers b b'

/-- R125, R126, R128, R133, R99, R100, R104, in one cycle: all of channel 5's sweep/modulation unit. It changes only
when its divider fires; in mode divide a firing first counts `swCnt`, and goes on, clearing it, only when the count
reaches `max(1, swInt)`. A secondary tick takes `modFreq` from what `nextModFreq` held before the cycle; if the unit
is enabled, its interval is not 0 and, under the run gate outputEnabled, channel 5 is audible after this cycle's
interval tick and the applied value is below 2048, it then computes the next `nextModFreq`, from the new `modFreq` in
sweep, and in modulation from `freq` and the table entry at `modPhase`, which then advances, or holds at 31 without
repeat. Nothing else of the unit changes. -/
def Obligations.ModFreqComesFromBuffer : Prop :=
  ∀ s : State, ∃ t, exec (.advance 1) s = .next t ∧
    let w := s.block.sweep
    let r := s.chan .ch5
    let fires : Prop := (if w.swLong then 320 else 40) ≤ s.block.swDiv + 1
    let reached : Prop := s.cfg.sweepIntervalMode = .divide → max 1 w.swInt.toNat ≤ w.swCnt + 1
    let expires : Prop := s.cfg.intervalPeriod ≤ s.block.intDiv + 1 ∧ r.intEn = true ∧ r.intSet.toNat < r.intCnt + 1
    let running : Prop := r.outEn = true ∧ ¬ expires ∧ w.nextModFreq.toNat < 2048
    let computes : Prop := w.swEn = true ∧ (s.cfg.sweepRunGate = .outputEnabled → running) ∧ w.swInt.toNat ≠ 0
    let applied : SweepRegs :=
      { w with modFreq := w.nextModFreq, swCnt := if s.cfg.sweepIntervalMode = .divide then 0 else w.swCnt }
    (t.block.sweep.modFreq = if fires ∧ reached then w.nextModFreq else w.modFreq) ∧
    (¬ fires → t.block.sweep = w) ∧
    (fires → ¬ reached → t.block.sweep = { w with swCnt := w.swCnt + 1 }) ∧
    (fires → reached → ¬ computes → t.block.sweep = applied) ∧
    (fires → reached → computes → w.swMod = false →
      t.block.sweep = { applied with nextModFreq := sweepCand w.nextModFreq w.swShift w.swUp }) ∧
    (fires → reached → computes → w.swMod = true →
      t.block.sweep = { applied with
        nextModFreq := modCand r.freq (s.block.readModt w.modPhase.toNat)
        modPhase := if w.modRepeat = false ∧ w.modPhase.toNat = 31 then w.modPhase
                    else BitVec.ofNat 5 ((w.modPhase.toNat + 1) % 32) })

/-- R128: while the unit is off a playback frequency held by both buffers stays, through any ADVANCE. -/
def Obligations.ModFreqSticksWhileUnitOff : Prop :=
  ∀ (n : Word) (s : State), s.block.sweep.swEn = false → s.block.sweep.modFreq = s.block.sweep.nextModFreq →
    ∃ t, exec (.advance n) s = .next t ∧ t.block.sweep.modFreq = s.block.sweep.modFreq ∧
      t.block.sweep.nextModFreq = s.block.sweep.nextModFreq ∧ t.block.sweep.modPhase = s.block.sweep.modPhase

/-- R127 in mode gate, the unit off: a frequency of 2048 or more in the buffer silences channel 5 at the next firing
of the divider at the latest, and not the firing before it: below 2048 the divider silences nothing. -/
def Obligations.OverflowSilencesChannelFive : Prop :=
  ∀ (n : Word) (s : State), s.cfg.sweepIntervalMode = .gate → s.block.sweep.swEn = false →
    s.block.swDiv < (if s.block.sweep.swLong then 320 else 40) →
    ∃ t, exec (.advance n) s = .next t ∧
      (2048 ≤ s.block.sweep.nextModFreq.toNat →
        (if s.block.sweep.swLong then 320 else 40) ≤ s.block.swDiv + n.toNat → (t.chan .ch5).outEn = false) ∧
      ((s.chan .ch5).intEn = false →
        (s.block.sweep.nextModFreq.toNat < 2048 ∨
          s.block.swDiv + n.toNat < (if s.block.sweep.swLong then 320 else 40)) →
        (t.chan .ch5).outEn = (s.chan .ch5).outEn)

/-- R130: under the run gate outputEnabled a computed sweep candidate comes from a value below 2048, does not wrap and
is below 4096. -/
def Obligations.GatedSweepNeverWraps : Prop :=
  ∀ b : Block, b.sweepApply.sweepComputes .outputEnabled = true → b.sweep.swMod = false →
    let b' := b.sweepModTick .outputEnabled
    b'.sweep.modFreq.toNat < 2048 ∧ b'.sweep.nextModFreq.toNat < 4096 ∧
    b'.sweep.nextModFreq.toNat =
      if b.sweep.swUp then b'.sweep.modFreq.toNat + b'.sweep.modFreq.toNat / 2 ^ b.sweep.swShift.toNat
      else b'.sweep.modFreq.toNat - b'.sweep.modFreq.toNat / 2 ^ b.sweep.swShift.toNat

/-! ## Mixer and output -/

/-- R143, R144: the gain: its formula, 0 exactly when an operand is 0, at least 1 otherwise, at most 29, 29 at (15,
15), symmetric. An audible channel contributes half its sample times its gain, rounded down; a channel that is silent,
or has level 0 on a side, or envelope level 0, contributes nothing to that side, whatever its sample. -/
def Obligations.GainFormulaAndBounds : Prop :=
  (∀ v e : BitVec 4, gain v e = if v.toNat = 0 ∨ e.toNat = 0 then 0 else v.toNat * e.toNat / 8 + 1) ∧
  (∀ v e : BitVec 4, gain v e = 0 ↔ v.toNat = 0 ∨ e.toNat = 0) ∧
  (∀ v e : BitVec 4, gain v e ≤ 29) ∧ gain 15 15 = 29 ∧ (∀ v e : BitVec 4, gain v e = gain e v) ∧
  (∀ (b : Block) (vol : ChanRegs → BitVec 4) (c : Channel),
    ((b.chan c).outEn = true →
      b.contribution vol c = b.rawSample c * gain (vol (b.chan c)) (b.chan c).envLevel / 2) ∧
    ((b.chan c).outEn = false ∨ (vol (b.chan c)).toNat = 0 ∨ (b.chan c).envLevel.toNat = 0 → b.contribution vol c = 0))

/-- R122, R139, R144: a wave channel's sample is 0 for a select above 4, and else the entry at its select and phase,
in 0..63. The mixer's raw sample is that sample on channels 1 to 5 and `noiseOut`, 0 or 63, on channel 6. The premise
is the machine's invariant. -/
def Obligations.WaveSampleReadsSelectedTable : Prop :=
  ∀ s : State, s.Inv →
    (∀ w : WaveChannel,
      (4 < (s.waveRegs w).wave.toNat → s.block.waveSample w = 0) ∧
      ((s.waveRegs w).wave.toNat ≤ 4 →
        s.block.waveSample w =
          (s.block.readWave (32 * (s.waveRegs w).wave.toNat + (s.waveRegs w).phase.toNat)).toNat) ∧
      s.block.waveSample w ≤ 63 ∧ s.block.rawSample w.channel = s.block.waveSample w) ∧
    s.block.rawSample .ch6 = s.block.noise.noiseOut.toNat ∧
    (s.block.rawSample .ch6 = 0 ∨ s.block.rawSample .ch6 = 63)

/-- R144, R145: a frame's left output is the quantisation of the sum of the six contributions at the left levels, its
right output that of the sum at the right levels. Contributions are at most 913, sums at most 5478, quantisation only
clears the low 3 bits of a sum and multiplies by 4, the output is a multiple of 32 in 0..21888, and it is 21888
exactly when all six channels are audible at sample 63 and gain 29. The premise is the machine's invariant. -/
def Obligations.MixRanges : Prop :=
  ∀ s : State, s.Inv →
    let total (vol : ChanRegs → BitVec 4) : Nat :=
      s.block.contribution vol .ch1 + s.block.contribution vol .ch2 + s.block.contribution vol .ch3 +
      s.block.contribution vol .ch4 + s.block.contribution vol .ch5 + s.block.contribution vol .ch6
    s.block.mix.ql = 4 * (total ChanRegs.volL - total ChanRegs.volL % 8) ∧
    s.block.mix.qr = 4 * (total ChanRegs.volR - total ChanRegs.volR % 8) ∧
    ∀ vol : ChanRegs → BitVec 4,
      (∀ c, s.block.contribution vol c ≤ 913) ∧ s.block.sideSum vol = total vol ∧ s.block.sideSum vol ≤ 5478 ∧
      quantise (s.block.sideSum vol) = (s.block.sideSum vol - s.block.sideSum vol % 8) * 4 ∧
      quantise (s.block.sideSum vol) % 32 = 0 ∧ quantise (s.block.sideSum vol) ≤ 21888 ∧
      (quantise (s.block.sideSum vol) = 21888 ↔
        ∀ c, (s.chan c).outEn = true ∧ s.block.rawSample c = 63 ∧ gain (vol (s.chan c)) (s.chan c).envLevel = 29)

/-- R147, R114: if every channel is silent, every frame an ADVANCE returns is (0.0, 0.0), positive zero, in either
format; so it is after reset. The list `output` is the model's own (log 5). -/
def Obligations.SilentBlockPlaysZero : Prop :=
  (∀ b : Block, (∀ c, (b.chan c).outEn = false) → (∀ vol, b.sideSum vol = 0) ∧ b.mix = ⟨0, 0⟩) ∧
  (∀ (n : Word) (s : State), (∀ c, (s.chan c).outEn = false) →
    ∃ t r, exec (.advance n) s = .next t ∧ t.output = s.output ++ [r] ∧
      ∀ x, x ∈ r.left ∨ x ∈ r.right →
        x.q = 0 ∧ x.value = (match s.cfg.outputFloatFormat with | .binary64 => .b64 0 | .binary32 => .b32 0)) ∧
  (∀ c, (State.reset.chan c).outEn = false)

/-- R148: `Out(Q)` is Q / 21888 rounded to nearest, ties to even: with E and M the exponent and significand fields of
the bits, the value is the significand `2^(p-1) + M` scaled by `2^k`, k = bias + p - 1 - E, and it lies within half a
unit of its last place. `Out(0)` is positive zero and `Out(21888)` is 1. The bound 2^18 covers every output of the
mixer. -/
def Obligations.OutputIsCorrectlyRounded : Prop :=
  (∀ q : Nat, 0 < q → q < 2 ^ 18 →
    (∃ bits : BitVec 64, (outSample .binary64 q).value = .b64 bits ∧
      let e := bits.toNat / 2 ^ 52
      let sig : Int := 2 ^ 52 + (bits.toNat % 2 ^ 52 : Nat)
      let err := sig * 21888 - (q : Int) * 2 ^ (1075 - e)
      1 ≤ e ∧ e ≤ 1075 ∧ 2 * |err| ≤ 21888 ∧ (2 * |err| = 21888 → sig % 2 = 0)) ∧
    (∃ bits : BitVec 32, (outSample .binary32 q).value = .b32 bits ∧
      let e := bits.toNat / 2 ^ 23
      let sig : Int := 2 ^ 23 + (bits.toNat % 2 ^ 23 : Nat)
      let err := sig * 21888 - (q : Int) * 2 ^ (150 - e)
      1 ≤ e ∧ e ≤ 150 ∧ 2 * |err| ≤ 21888 ∧ (2 * |err| = 21888 → sig % 2 = 0))) ∧
  (outSample .binary64 0).value = .b64 0 ∧ (outSample .binary32 0).value = .b32 0 ∧
  (outSample .binary64 21888).value = .b64 0x3FF0000000000000 ∧ (outSample .binary32 21888).value = .b32 0x3F800000

/-- R148: two outputs of the mixer (Q a multiple of 32 in 0..21888) with equal floats have equal Q, in either
format. -/
def Obligations.EqualOutputsHaveEqualQ : Prop :=
  ∀ (fmt : FloatFormat) (m n : Nat), m ≤ 684 → n ≤ 684 →
    (outSample fmt (32 * m)).value = (outSample fmt (32 * n)).value → m = n

/-! ## Whole-machine rules -/

/-- R22, R27, R30, R32, R34, R42, R43, R106, R145: every step keeps the invariant: canonical tables in range, counters
and dividers in their bounds, `noiseOut` 0 or 63, and every returned sample in range. The list `output` is the model's
own (log 5). -/
def Obligations.StepKeepsInvariant : Prop :=
  ∀ s t : State, s.Inv → step s = .next t → t.Inv

/-- The invariant holds at reset (R162); the parameters and the empty lists there are the model's choice (log 3, 4,
5). -/
def Obligations.ResetMeetsInvariant : Prop := State.reset.Inv

/-- Every field of the block right after construction, the shift register at the parameter NOISE_RESET_SR (R162);
reset is construction, and that its seed is the default 0x7FFF is the model's choice (log 3). -/
def Obligations.ResetValues : Prop :=
  (∀ p : Params, let s := State.construct p
    (∀ c, s.chan c =
      { outEn := false, intEn := false, intSet := 0, intCnt := 0, envReload := 0, envUp := false, envStep := 0,
        envRepeat := false, envEn := false, envLevel := 0, envCnt := 0, volL := 15, volR := 15, freq := 0, phCnt := 0 }) ∧
    (∀ w, s.waveRegs w = { wave := 0, phase := 0 }) ∧
    s.block.sweep =
      { modFreq := 0, nextModFreq := 0, swCnt := 0, modPhase := 0, swLong := false, swEn := false, modRepeat := false,
        swMod := false, swUp := false, swShift := 0, swInt := 0 } ∧
    s.block.noise = { tap := 0, lfsr := p.noiseResetSr, noiseOut := 0 } ∧
    (∀ a, s.block.readWave a = 0) ∧ (∀ a, s.block.readModt a = 0) ∧
    s.block.intDiv = 0 ∧ s.block.envDiv = 0 ∧ s.block.swDiv = 0) ∧
  (∃ p, State.reset = State.construct p ∧ p.noiseResetSr = 0x7FFF)

/-- R23: the parameters of an instance are fixed for its life. They stand in State by the model's choice (log 1). -/
def Obligations.ParametersNeverChange : Prop :=
  ∀ s t : State, step s = .next t → t.cfg = s.cfg

/-- R38, R70: a command other than ADVANCE produces no frame and writes no divider, `modPhase`, `swCnt` or `noiseOut`;
each other hidden field is changed only by the command R38 names, and that command sets it. -/
def Obligations.HiddenStateWriters : Prop :=
  ∀ (i : Instr) (s : State), (∀ n, i ≠ .advance n) → ∃ t, exec i s = .next t ∧
    SameOutside s t ∧ SameDividers s.block t.block ∧
    t.block.sweep.modPhase = s.block.sweep.modPhase ∧ t.block.sweep.swCnt = s.block.sweep.swCnt ∧
    t.block.noise.noiseOut = s.block.noise.noiseOut ∧
    (∀ c, (t.chan c).intCnt ≠ (s.chan c).intCnt → i = .inten c true ∧ (t.chan c).intCnt = 0) ∧
    (∀ c, (t.chan c).envCnt ≠ (s.chan c).envCnt → i = .chen c true ∧ (t.chan c).envCnt = 0) ∧
    (∀ c, (t.chan c).phCnt ≠ (s.chan c).phCnt → i = .chen c true ∧ (t.chan c).phCnt = 0) ∧
    (∀ w, (t.waveRegs w).phase ≠ (s.waveRegs w).phase → i = .chen w.channel true ∧ (t.waveRegs w).phase = 0) ∧
    (t.block.noise.lfsr ≠ s.block.noise.lfsr → i = .chen .ch6 true ∧ t.block.noise.lfsr = 0x7FFF) ∧
    (t.block.sweep.modFreq ≠ s.block.sweep.modFreq → i = .modfreq t.block.sweep.modFreq) ∧
    (t.block.sweep.nextModFreq ≠ s.block.sweep.nextModFreq → i = .modfreq t.block.sweep.nextModFreq) ∧
    (∀ c, i = .chen c true → (t.chan c).envCnt = 0 ∧ (t.chan c).phCnt = 0) ∧
    (∀ w : WaveChannel, i = .chen w.channel true → (t.waveRegs w).phase = 0) ∧
    (i = .chen .ch6 true → t.block.noise.lfsr = 0x7FFF) ∧
    (∀ c, i = .inten c true → (t.chan c).intCnt = 0) ∧
    (∀ v, i = .modfreq v → t.block.sweep.modFreq = v ∨ t.block.sweep.nextModFreq = v)

/-- R50: every command except ADVANCE is idempotent when repeated with no cycle between. The premises are part of the
machine's invariant. -/
def Obligations.CommandsAreIdempotent : Prop :=
  ∀ (i : Instr) (s : State), (∀ n, i ≠ .advance n) → s.block.wave.wf → s.block.modt.wf →
    ∃ t, exec i s = .next t ∧ exec i t = .next t

/-- R167: ENVRLD v and ENVEN(1) in either order leave reload and level at v; CHEN(0) then INTEN leaves the channel
audible and INTEN then CHEN(0) silent; CHEN(1) after INTEN(1) keeps `intCnt` at 0; the sweep/modulation writes
commute; TAP commutes with CHEN(1) on channel 6. -/
def Obligations.WriteOrder : Prop :=
  (∀ (c : Channel) (v : BitVec 4) (s : State), ∃ t,
    execAll [.envrld c v, .enven c true] s = .next t ∧ execAll [.enven c true, .envrld c v] s = .next t ∧
    (t.chan c).envReload = v ∧ (t.chan c).envLevel = v) ∧
  (∀ (c : Channel) (b : Bool) (s : State), ∃ t t',
    execAll [.chen c false, .inten c b] s = .next t ∧ (t.chan c).outEn = true ∧
    execAll [.inten c b, .chen c false] s = .next t' ∧ (t'.chan c).outEn = false) ∧
  (∀ (c : Channel) (s : State), ∃ t, execAll [.inten c true, .chen c true] s = .next t ∧ (t.chan c).intCnt = 0 ∧
    (t.chan c).outEn = true) ∧
  (∀ (m : BitVec 16) (e d f : Bool) (n k : BitVec 3) (s : State),
    let l : List Instr := [.modfreq m, .swen e, .swint n, .swshift k, .swdir d, .swfunc f]
    ∀ i ∈ l, ∀ j ∈ l, execAll [i, j] s = execAll [j, i] s) ∧
  (∀ (v : BitVec 3) (s : State), execAll [.tap v, .chen .ch6 true] s = execAll [.chen .ch6 true, .tap v] s)

/-- R100: what a channel 1..4 plays depends on its own registers, the parameters, the dividers and the tables only:
two machines that agree on these agree on the channel, and on its contribution to either side, after any ADVANCE. -/
def Obligations.StandardChannelIsolation : Prop :=
  ∀ (n : Word) (w : WaveChannel) (s s' : State), w ≠ .ch5 → s'.cfg = s.cfg →
    s'.block.intDiv = s.block.intDiv → s'.block.envDiv = s.block.envDiv → SameTables s.block s'.block →
    s'.chan w.channel = s.chan w.channel → s'.waveRegs w = s.waveRegs w →
    ∃ t t', exec (.advance n) s = .next t ∧ exec (.advance n) s' = .next t' ∧
      t'.chan w.channel = t.chan w.channel ∧ t'.waveRegs w = t.waveRegs w ∧
      ∀ vol : ChanRegs → BitVec 4, t'.block.contribution vol w.channel = t.block.contribution vol w.channel
end

