-- ==== Sys2Proof/Laws/Memory.lean ====
section
/-! SUPPORT. The laws of the table spaces: a read after a write, what a write leaves alone, and that every operation keeps
the canonical form. -/

namespace Sys2Proof.Machine

@[simp] theorem Memory.read_nil (a : Nat) : Memory.read [] a = Memory.unlisted := rfl

theorem Memory.read_cons (b : Nat) (x : Byte) (m : Memory) (a : Nat) :
    Memory.read ((b, x) :: m) a = if a = b then x else Memory.read m a := rfl

@[simp] theorem Memory.wf_nil : Memory.wf [] := by simp [Memory.wf]

theorem Memory.wf_cons {c : Host.Cell} {m : Memory} :
    Memory.wf (c :: m) ↔ (∀ d ∈ m, c.1 < d.1) ∧ c.2 ≠ Memory.unlisted ∧ Memory.wf m := by
  simp only [Memory.wf, List.pairwise_cons, List.mem_cons, forall_eq_or_imp]
  tauto

/-- An address below every listed one reads as unlisted. -/
theorem Memory.read_below {m : Memory} {a : Nat} (h : ∀ d ∈ m, a < d.1) : m.read a = Memory.unlisted := by
  induction m with
  | nil => rfl
  | cons c m ih =>
    obtain ⟨b, x⟩ := c
    have hb : a < b := h _ List.mem_cons_self
    rw [Memory.read_cons, if_neg (by omega), ih fun d hd => h d (List.mem_cons_of_mem _ hd)]

theorem Memory.read_write_self {m : Memory} (h : m.wf) (a : Nat) (v : Byte) : (m.write a v).read a = v := by
  induction m with
  | nil => by_cases hv : v = Memory.unlisted <;> simp [Memory.write, Memory.read, hv]
  | cons c m ih =>
    obtain ⟨b, x⟩ := c
    obtain ⟨hlt, -, hm⟩ := Memory.wf_cons.mp h
    unfold Memory.write
    split_ifs with hab hv heq hv
    · rw [hv, Memory.read_below]
      intro d hd
      rcases List.mem_cons.mp hd with rfl | hd
      · exact hab
      · have := hlt d hd; simp only at this; omega
    · simp [Memory.read]
    · rw [hv, heq, Memory.read_below hlt]
    · simp [Memory.read]
    · rw [Memory.read_cons, if_neg heq, ih hm]

theorem Memory.read_write_ne (m : Memory) {a a' : Nat} (v : Byte) (h : a' ≠ a) : (m.write a v).read a' = m.read a' := by
  induction m with
  | nil => by_cases hv : v = Memory.unlisted <;> simp [Memory.write, Memory.read, hv, h]
  | cons c m ih =>
    obtain ⟨b, x⟩ := c
    unfold Memory.write
    split_ifs with hab hv heq hv
    · rfl
    · simp [Memory.read, h]
    · subst heq; simp [Memory.read, h]
    · subst heq; simp [Memory.read, h]
    · simp only [Memory.read_cons, ih]

theorem Memory.mem_write {m : Memory} {a : Nat} {v : Byte} {c : Host.Cell} (h : c ∈ m.write a v) :
    c = (a, v) ∨ c ∈ m := by
  induction m with
  | nil =>
    by_cases hv : v = Memory.unlisted <;> simp [Memory.write, hv] at h ⊢
    simpa [hv] using h
  | cons d m ih =>
    obtain ⟨b, x⟩ := d
    unfold Memory.write at h
    split_ifs at h with hab hv heq hv
    · exact .inr h
    · simpa using h
    · exact .inr (List.mem_cons_of_mem _ h)
    · rcases List.mem_cons.mp h with h | h
      · exact .inl h
      · exact .inr (List.mem_cons_of_mem _ h)
    · rcases List.mem_cons.mp h with h | h
      · exact .inr (h ▸ List.mem_cons_self)
      · exact (ih h).imp_right (List.mem_cons_of_mem _)

/-- A write keeps the canonical form. -/
theorem Memory.write_wf {m : Memory} (h : m.wf) (a : Nat) (v : Byte) : (m.write a v).wf := by
  induction m with
  | nil => by_cases hv : v = Memory.unlisted <;> simp [Memory.write, Memory.wf, hv]
  | cons c m ih =>
    obtain ⟨b, x⟩ := c
    obtain ⟨hlt, hx, hm⟩ := Memory.wf_cons.mp h
    unfold Memory.write
    split_ifs with hab hv heq hv
    · exact h
    · refine Memory.wf_cons.mpr ⟨fun d hd => ?_, hv, h⟩
      rcases List.mem_cons.mp hd with rfl | hd
      · exact hab
      · exact Nat.lt_trans hab (hlt d hd)
    · exact hm
    · subst heq
      exact Memory.wf_cons.mpr ⟨hlt, hv, hm⟩
    · refine Memory.wf_cons.mpr ⟨fun d hd => ?_, hx, ih hm⟩
      rcases Memory.mem_write hd with rfl | hd
      · simp only; omega
      · exact hlt d hd

theorem Memory.writeFrom_wf {m : Memory} (h : m.wf) (a : Nat) (vs : List Byte) : (m.writeFrom a vs).wf := by
  induction vs generalizing m a with
  | nil => exact h
  | cons v vs ih => exact ih (Memory.write_wf h a v) (a + 1)

theorem Memory.read_writeFrom_outside (m : Memory) {a x : Nat} {vs : List Byte} (h : x < a ∨ a + vs.length ≤ x) :
    (m.writeFrom a vs).read x = m.read x := by
  induction vs generalizing m a with
  | nil => rfl
  | cons v vs ih =>
    simp only [List.length_cons] at h
    rw [Memory.writeFrom, ih _ (by omega), Memory.read_write_ne _ _ (by omega)]

theorem Memory.read_writeFrom {m : Memory} (h : m.wf) {a i : Nat} {vs : List Byte} (hi : i < vs.length) :
    (m.writeFrom a vs).read (a + i) = vs[i] := by
  induction vs generalizing m a i with
  | nil => simp at hi
  | cons v vs ih =>
    rw [Memory.writeFrom]
    cases i with
    | zero => rw [Memory.read_writeFrom_outside _ (by omega), Nat.add_zero, Memory.read_write_self h]; rfl
    | succ i =>
      have := ih (Memory.write_wf h a v) (a := a + 1) (i := i) (by simpa using hi)
      rwa [show a + 1 + i = a + (i + 1) by omega] at this

theorem Memory.mem_writeFrom {m : Memory} {a : Nat} {vs : List Byte} {c : Host.Cell} (h : c ∈ m.writeFrom a vs) :
    (a ≤ c.1 ∧ c.1 < a + vs.length ∧ c.2 ∈ vs) ∨ c ∈ m := by
  induction vs generalizing m a with
  | nil => exact .inr h
  | cons v vs ih =>
    rcases ih h with ⟨h1, h2, h3⟩ | h
    · exact .inl ⟨by omega, by simp only [List.length_cons]; omega, List.mem_cons_of_mem _ h3⟩
    · rcases Memory.mem_write h with rfl | h
      · exact .inl ⟨Nat.le_refl _, by simp only [List.length_cons]; omega, List.mem_cons_self⟩
      · exact .inr h

theorem Memory.read_mem {m : Memory} (h : m.wf) {c : Host.Cell} (hc : c ∈ m) : m.read c.1 = c.2 := by
  induction m with
  | nil => cases hc
  | cons d m ih =>
    obtain ⟨b, x⟩ := d
    obtain ⟨hlt, -, hm⟩ := Memory.wf_cons.mp h
    rcases List.mem_cons.mp hc with rfl | hc
    · simp [Memory.read]
    · have := hlt c hc
      rw [Memory.read_cons, if_neg (by simp only at this; omega), ih hm hc]

/-- An entry reads as unlisted or is a listed cell. -/
theorem Memory.read_cases (m : Memory) (a : Nat) : m.read a = Memory.unlisted ∨ (a, m.read a) ∈ m := by
  induction m with
  | nil => exact .inl rfl
  | cons d m ih =>
    obtain ⟨b, x⟩ := d
    rw [Memory.read_cons]
    split_ifs with h
    · subst h; exact .inr List.mem_cons_self
    · exact ih.imp_right (List.mem_cons_of_mem _)

/-- Equal contents are equal lists. -/
theorem Memory.ext_read {m m' : Memory} (h : m.wf) (h' : m'.wf) (hr : ∀ a, m.read a = m'.read a) : m = m' := by
  induction m generalizing m' with
  | nil =>
    cases m' with
    | nil => rfl
    | cons c m' =>
      have hc := Memory.read_mem h' (c := c) List.mem_cons_self
      exact absurd (by rw [← hc, ← hr]; rfl) (Memory.wf_cons.mp h').2.1
  | cons c m ih =>
    cases m' with
    | nil =>
      have hc := Memory.read_mem h (c := c) List.mem_cons_self
      exact absurd (by rw [← hc, hr]; rfl) (Memory.wf_cons.mp h).2.1
    | cons c' m' =>
      obtain ⟨b, x⟩ := c
      obtain ⟨b', x'⟩ := c'
      obtain ⟨hlt, hx, hm⟩ := Memory.wf_cons.mp h
      obtain ⟨hlt', hx', hm'⟩ := Memory.wf_cons.mp h'
      have hb : b = b' := by
        rcases Nat.lt_trichotomy b b' with hbb | hbb | hbb
        · have h1 := hr b
          rw [Memory.read_cons, if_pos rfl, Memory.read_below (m := (b', x') :: m')] at h1
          · exact absurd h1 hx
          · intro d hd
            rcases List.mem_cons.mp hd with rfl | hd
            · exact hbb
            · exact Nat.lt_trans hbb (hlt' d hd)
        · exact hbb
        · have h1 := hr b'
          rw [Memory.read_cons (b := b'), if_pos rfl, Memory.read_below (m := (b, x) :: m)] at h1
          · exact absurd h1.symm hx'
          · intro d hd
            rcases List.mem_cons.mp hd with rfl | hd
            · exact hbb
            · exact Nat.lt_trans hbb (hlt d hd)
      subst hb
      have hxx : x = x' := by simpa [Memory.read] using hr b
      subst hxx
      rw [ih hm hm' fun a => ?_]
      have h1 := hr a
      rw [Memory.read_cons, Memory.read_cons] at h1
      by_cases ha : a = b
      · subst ha; rw [Memory.read_below hlt, Memory.read_below hlt']
      · rwa [if_neg ha, if_neg ha] at h1

end Sys2Proof.Machine
end

