-- ==== Sys2Proof/Laws/State.lean ====
section
/-! SUPPORT. One lemma per field per update of the state: what each named update leaves unchanged and what it sets. -/

namespace Sys2Proof.Machine

/-! ## Per-channel values -/

@[simp] theorem Six.get_modify {α : Type} (x : Six α) (c d : Channel) (f : α → α) :
    (x.modify c f).get d = if d = c then f (x.get d) else x.get d := by
  cases c <;> cases d <;> rfl

@[simp] theorem Six.get_map {α : Type} (x : Six α) (d : Channel) (f : α → α) : (x.map f).get d = f (x.get d) := by
  cases d <;> rfl

theorem Six.ext_get {α : Type} {x y : Six α} (h : ∀ c, x.get c = y.get c) : x = y := by
  cases x; cases y
  simp only [Six.mk.injEq]
  exact ⟨h .ch1, h .ch2, h .ch3, h .ch4, h .ch5, h .ch6⟩

@[simp] theorem Five.get_modify {α : Type} (x : Five α) (c d : WaveChannel) (f : α → α) :
    (x.modify c f).get d = if d = c then f (x.get d) else x.get d := by
  cases c <;> cases d <;> rfl

theorem Five.ext_get {α : Type} {x y : Five α} (h : ∀ c, x.get c = y.get c) : x = y := by
  cases x; cases y
  simp only [Five.mk.injEq]
  exact ⟨h .ch1, h .ch2, h .ch3, h .ch4, h .ch5⟩

@[simp] theorem wave?_channel (w : WaveChannel) : w.channel.wave? = some w := by cases w <;> rfl

@[simp] theorem wave?_ch6 : Channel.wave? .ch6 = none := rfl

theorem wave?_eq_some {c : Channel} {w : WaveChannel} (h : c.wave? = some w) : c = w.channel := by
  cases c <;> simp [Channel.wave?] at h <;> subst h <;> rfl

theorem wave?_eq_none {c : Channel} : c.wave? = none ↔ c = .ch6 := by cases c <;> simp [Channel.wave?]

@[simp] theorem channel_inj {w w' : WaveChannel} : w.channel = w'.channel ↔ w = w' := by
  cases w <;> cases w' <;> simp [WaveChannel.channel]

@[simp] theorem channel_ne_ch6 (w : WaveChannel) : w.channel ≠ .ch6 := by cases w <;> simp [WaveChannel.channel]

@[simp] theorem ch6_ne_channel (w : WaveChannel) : Channel.ch6 ≠ w.channel := (channel_ne_ch6 w).symm

/-! ## Updates of the block -/

@[simp] theorem Block.modChan_wave (b : Block) (c : Channel) (f : ChanRegs → ChanRegs) : (b.modChan c f).wave = b.wave := rfl
@[simp] theorem Block.modChan_modt (b : Block) (c : Channel) (f : ChanRegs → ChanRegs) : (b.modChan c f).modt = b.modt := rfl
@[simp] theorem Block.modChan_intDiv (b : Block) (c : Channel) (f : ChanRegs → ChanRegs) : (b.modChan c f).intDiv = b.intDiv := rfl
@[simp] theorem Block.modChan_envDiv (b : Block) (c : Channel) (f : ChanRegs → ChanRegs) : (b.modChan c f).envDiv = b.envDiv := rfl
@[simp] theorem Block.modChan_swDiv (b : Block) (c : Channel) (f : ChanRegs → ChanRegs) : (b.modChan c f).swDiv = b.swDiv := rfl
@[simp] theorem Block.modChan_chans (b : Block) (c : Channel) (f : ChanRegs → ChanRegs) : (b.modChan c f).chans = b.chans.modify c f := rfl
@[simp] theorem Block.modChan_waves (b : Block) (c : Channel) (f : ChanRegs → ChanRegs) : (b.modChan c f).waves = b.waves := rfl
@[simp] theorem Block.modChan_sweep (b : Block) (c : Channel) (f : ChanRegs → ChanRegs) : (b.modChan c f).sweep = b.sweep := rfl
@[simp] theorem Block.modChan_noise (b : Block) (c : Channel) (f : ChanRegs → ChanRegs) : (b.modChan c f).noise = b.noise := rfl

@[simp] theorem Block.mapChans_wave (b : Block) (f : ChanRegs → ChanRegs) : (b.mapChans f).wave = b.wave := rfl
@[simp] theorem Block.mapChans_modt (b : Block) (f : ChanRegs → ChanRegs) : (b.mapChans f).modt = b.modt := rfl
@[simp] theorem Block.mapChans_intDiv (b : Block) (f : ChanRegs → ChanRegs) : (b.mapChans f).intDiv = b.intDiv := rfl
@[simp] theorem Block.mapChans_envDiv (b : Block) (f : ChanRegs → ChanRegs) : (b.mapChans f).envDiv = b.envDiv := rfl
@[simp] theorem Block.mapChans_swDiv (b : Block) (f : ChanRegs → ChanRegs) : (b.mapChans f).swDiv = b.swDiv := rfl
@[simp] theorem Block.mapChans_chans (b : Block) (f : ChanRegs → ChanRegs) : (b.mapChans f).chans = b.chans.map f := rfl
@[simp] theorem Block.mapChans_waves (b : Block) (f : ChanRegs → ChanRegs) : (b.mapChans f).waves = b.waves := rfl
@[simp] theorem Block.mapChans_sweep (b : Block) (f : ChanRegs → ChanRegs) : (b.mapChans f).sweep = b.sweep := rfl
@[simp] theorem Block.mapChans_noise (b : Block) (f : ChanRegs → ChanRegs) : (b.mapChans f).noise = b.noise := rfl

@[simp] theorem Block.modWave_wave (b : Block) (c : WaveChannel) (f : WaveRegs → WaveRegs) : (b.modWave c f).wave = b.wave := rfl
@[simp] theorem Block.modWave_modt (b : Block) (c : WaveChannel) (f : WaveRegs → WaveRegs) : (b.modWave c f).modt = b.modt := rfl
@[simp] theorem Block.modWave_intDiv (b : Block) (c : WaveChannel) (f : WaveRegs → WaveRegs) : (b.modWave c f).intDiv = b.intDiv := rfl
@[simp] theorem Block.modWave_envDiv (b : Block) (c : WaveChannel) (f : WaveRegs → WaveRegs) : (b.modWave c f).envDiv = b.envDiv := rfl
@[simp] theorem Block.modWave_swDiv (b : Block) (c : WaveChannel) (f : WaveRegs → WaveRegs) : (b.modWave c f).swDiv = b.swDiv := rfl
@[simp] theorem Block.modWave_chans (b : Block) (c : WaveChannel) (f : WaveRegs → WaveRegs) : (b.modWave c f).chans = b.chans := rfl
@[simp] theorem Block.modWave_waves (b : Block) (c : WaveChannel) (f : WaveRegs → WaveRegs) : (b.modWave c f).waves = b.waves.modify c f := rfl
@[simp] theorem Block.modWave_sweep (b : Block) (c : WaveChannel) (f : WaveRegs → WaveRegs) : (b.modWave c f).sweep = b.sweep := rfl
@[simp] theorem Block.modWave_noise (b : Block) (c : WaveChannel) (f : WaveRegs → WaveRegs) : (b.modWave c f).noise = b.noise := rfl

@[simp] theorem Block.modSweep_wave (b : Block) (f : SweepRegs → SweepRegs) : (b.modSweep f).wave = b.wave := rfl
@[simp] theorem Block.modSweep_modt (b : Block) (f : SweepRegs → SweepRegs) : (b.modSweep f).modt = b.modt := rfl
@[simp] theorem Block.modSweep_intDiv (b : Block) (f : SweepRegs → SweepRegs) : (b.modSweep f).intDiv = b.intDiv := rfl
@[simp] theorem Block.modSweep_envDiv (b : Block) (f : SweepRegs → SweepRegs) : (b.modSweep f).envDiv = b.envDiv := rfl
@[simp] theorem Block.modSweep_swDiv (b : Block) (f : SweepRegs → SweepRegs) : (b.modSweep f).swDiv = b.swDiv := rfl
@[simp] theorem Block.modSweep_chans (b : Block) (f : SweepRegs → SweepRegs) : (b.modSweep f).chans = b.chans := rfl
@[simp] theorem Block.modSweep_waves (b : Block) (f : SweepRegs → SweepRegs) : (b.modSweep f).waves = b.waves := rfl
@[simp] theorem Block.modSweep_sweep (b : Block) (f : SweepRegs → SweepRegs) : (b.modSweep f).sweep = f b.sweep := rfl
@[simp] theorem Block.modSweep_noise (b : Block) (f : SweepRegs → SweepRegs) : (b.modSweep f).noise = b.noise := rfl

@[simp] theorem Block.modNoise_wave (b : Block) (f : NoiseRegs → NoiseRegs) : (b.modNoise f).wave = b.wave := rfl
@[simp] theorem Block.modNoise_modt (b : Block) (f : NoiseRegs → NoiseRegs) : (b.modNoise f).modt = b.modt := rfl
@[simp] theorem Block.modNoise_intDiv (b : Block) (f : NoiseRegs → NoiseRegs) : (b.modNoise f).intDiv = b.intDiv := rfl
@[simp] theorem Block.modNoise_envDiv (b : Block) (f : NoiseRegs → NoiseRegs) : (b.modNoise f).envDiv = b.envDiv := rfl
@[simp] theorem Block.modNoise_swDiv (b : Block) (f : NoiseRegs → NoiseRegs) : (b.modNoise f).swDiv = b.swDiv := rfl
@[simp] theorem Block.modNoise_chans (b : Block) (f : NoiseRegs → NoiseRegs) : (b.modNoise f).chans = b.chans := rfl
@[simp] theorem Block.modNoise_waves (b : Block) (f : NoiseRegs → NoiseRegs) : (b.modNoise f).waves = b.waves := rfl
@[simp] theorem Block.modNoise_sweep (b : Block) (f : NoiseRegs → NoiseRegs) : (b.modNoise f).sweep = b.sweep := rfl
@[simp] theorem Block.modNoise_noise (b : Block) (f : NoiseRegs → NoiseRegs) : (b.modNoise f).noise = f b.noise := rfl

@[simp] theorem Block.writeWave_wave (b : Block) (a : Nat) (vs : List Byte) : (b.writeWave a vs).wave = b.wave.writeFrom a vs := rfl
@[simp] theorem Block.writeWave_modt (b : Block) (a : Nat) (vs : List Byte) : (b.writeWave a vs).modt = b.modt := rfl
@[simp] theorem Block.writeWave_intDiv (b : Block) (a : Nat) (vs : List Byte) : (b.writeWave a vs).intDiv = b.intDiv := rfl
@[simp] theorem Block.writeWave_envDiv (b : Block) (a : Nat) (vs : List Byte) : (b.writeWave a vs).envDiv = b.envDiv := rfl
@[simp] theorem Block.writeWave_swDiv (b : Block) (a : Nat) (vs : List Byte) : (b.writeWave a vs).swDiv = b.swDiv := rfl
@[simp] theorem Block.writeWave_chans (b : Block) (a : Nat) (vs : List Byte) : (b.writeWave a vs).chans = b.chans := rfl
@[simp] theorem Block.writeWave_waves (b : Block) (a : Nat) (vs : List Byte) : (b.writeWave a vs).waves = b.waves := rfl
@[simp] theorem Block.writeWave_sweep (b : Block) (a : Nat) (vs : List Byte) : (b.writeWave a vs).sweep = b.sweep := rfl
@[simp] theorem Block.writeWave_noise (b : Block) (a : Nat) (vs : List Byte) : (b.writeWave a vs).noise = b.noise := rfl

@[simp] theorem Block.writeModt_wave (b : Block) (a : Nat) (vs : List Byte) : (b.writeModt a vs).wave = b.wave := rfl
@[simp] theorem Block.writeModt_modt (b : Block) (a : Nat) (vs : List Byte) : (b.writeModt a vs).modt = b.modt.writeFrom a vs := rfl
@[simp] theorem Block.writeModt_intDiv (b : Block) (a : Nat) (vs : List Byte) : (b.writeModt a vs).intDiv = b.intDiv := rfl
@[simp] theorem Block.writeModt_envDiv (b : Block) (a : Nat) (vs : List Byte) : (b.writeModt a vs).envDiv = b.envDiv := rfl
@[simp] theorem Block.writeModt_swDiv (b : Block) (a : Nat) (vs : List Byte) : (b.writeModt a vs).swDiv = b.swDiv := rfl
@[simp] theorem Block.writeModt_chans (b : Block) (a : Nat) (vs : List Byte) : (b.writeModt a vs).chans = b.chans := rfl
@[simp] theorem Block.writeModt_waves (b : Block) (a : Nat) (vs : List Byte) : (b.writeModt a vs).waves = b.waves := rfl
@[simp] theorem Block.writeModt_sweep (b : Block) (a : Nat) (vs : List Byte) : (b.writeModt a vs).sweep = b.sweep := rfl
@[simp] theorem Block.writeModt_noise (b : Block) (a : Nat) (vs : List Byte) : (b.writeModt a vs).noise = b.noise := rfl

@[simp] theorem Block.setIntDiv_wave (b : Block) (n : Nat) : (b.setIntDiv n).wave = b.wave := rfl
@[simp] theorem Block.setIntDiv_modt (b : Block) (n : Nat) : (b.setIntDiv n).modt = b.modt := rfl
@[simp] theorem Block.setIntDiv_intDiv (b : Block) (n : Nat) : (b.setIntDiv n).intDiv = n := rfl
@[simp] theorem Block.setIntDiv_envDiv (b : Block) (n : Nat) : (b.setIntDiv n).envDiv = b.envDiv := rfl
@[simp] theorem Block.setIntDiv_swDiv (b : Block) (n : Nat) : (b.setIntDiv n).swDiv = b.swDiv := rfl
@[simp] theorem Block.setIntDiv_chans (b : Block) (n : Nat) : (b.setIntDiv n).chans = b.chans := rfl
@[simp] theorem Block.setIntDiv_waves (b : Block) (n : Nat) : (b.setIntDiv n).waves = b.waves := rfl
@[simp] theorem Block.setIntDiv_sweep (b : Block) (n : Nat) : (b.setIntDiv n).sweep = b.sweep := rfl
@[simp] theorem Block.setIntDiv_noise (b : Block) (n : Nat) : (b.setIntDiv n).noise = b.noise := rfl

@[simp] theorem Block.setEnvDiv_wave (b : Block) (n : Nat) : (b.setEnvDiv n).wave = b.wave := rfl
@[simp] theorem Block.setEnvDiv_modt (b : Block) (n : Nat) : (b.setEnvDiv n).modt = b.modt := rfl
@[simp] theorem Block.setEnvDiv_intDiv (b : Block) (n : Nat) : (b.setEnvDiv n).intDiv = b.intDiv := rfl
@[simp] theorem Block.setEnvDiv_envDiv (b : Block) (n : Nat) : (b.setEnvDiv n).envDiv = n := rfl
@[simp] theorem Block.setEnvDiv_swDiv (b : Block) (n : Nat) : (b.setEnvDiv n).swDiv = b.swDiv := rfl
@[simp] theorem Block.setEnvDiv_chans (b : Block) (n : Nat) : (b.setEnvDiv n).chans = b.chans := rfl
@[simp] theorem Block.setEnvDiv_waves (b : Block) (n : Nat) : (b.setEnvDiv n).waves = b.waves := rfl
@[simp] theorem Block.setEnvDiv_sweep (b : Block) (n : Nat) : (b.setEnvDiv n).sweep = b.sweep := rfl
@[simp] theorem Block.setEnvDiv_noise (b : Block) (n : Nat) : (b.setEnvDiv n).noise = b.noise := rfl

@[simp] theorem Block.setSwDiv_wave (b : Block) (n : Nat) : (b.setSwDiv n).wave = b.wave := rfl
@[simp] theorem Block.setSwDiv_modt (b : Block) (n : Nat) : (b.setSwDiv n).modt = b.modt := rfl
@[simp] theorem Block.setSwDiv_intDiv (b : Block) (n : Nat) : (b.setSwDiv n).intDiv = b.intDiv := rfl
@[simp] theorem Block.setSwDiv_envDiv (b : Block) (n : Nat) : (b.setSwDiv n).envDiv = b.envDiv := rfl
@[simp] theorem Block.setSwDiv_swDiv (b : Block) (n : Nat) : (b.setSwDiv n).swDiv = n := rfl
@[simp] theorem Block.setSwDiv_chans (b : Block) (n : Nat) : (b.setSwDiv n).chans = b.chans := rfl
@[simp] theorem Block.setSwDiv_waves (b : Block) (n : Nat) : (b.setSwDiv n).waves = b.waves := rfl
@[simp] theorem Block.setSwDiv_sweep (b : Block) (n : Nat) : (b.setSwDiv n).sweep = b.sweep := rfl
@[simp] theorem Block.setSwDiv_noise (b : Block) (n : Nat) : (b.setSwDiv n).noise = b.noise := rfl

/-! ## Registers after an update of the block -/

@[simp] theorem Block.chan_modChan (b : Block) (c d : Channel) (f : ChanRegs → ChanRegs) :
    (b.modChan c f).chan d = if d = c then f (b.chan d) else b.chan d := Six.get_modify b.chans c d f

@[simp] theorem Block.chan_mapChans (b : Block) (d : Channel) (f : ChanRegs → ChanRegs) :
    (b.mapChans f).chan d = f (b.chan d) := Six.get_map b.chans d f

@[simp] theorem Block.waveRegs_modWave (b : Block) (c d : WaveChannel) (f : WaveRegs → WaveRegs) :
    (b.modWave c f).waveRegs d = if d = c then f (b.waveRegs d) else b.waveRegs d := Five.get_modify b.waves c d f

@[simp] theorem Block.waveRegs_modChan (b : Block) (c : Channel) (f : ChanRegs → ChanRegs) (d : WaveChannel) : (b.modChan c f).waveRegs d = b.waveRegs d := rfl
@[simp] theorem Block.readWave_modChan (b : Block) (c : Channel) (f : ChanRegs → ChanRegs) (x : Nat) : (b.modChan c f).readWave x = b.readWave x := rfl
@[simp] theorem Block.readModt_modChan (b : Block) (c : Channel) (f : ChanRegs → ChanRegs) (x : Nat) : (b.modChan c f).readModt x = b.readModt x := rfl
@[simp] theorem Block.waveRegs_mapChans (b : Block) (f : ChanRegs → ChanRegs) (d : WaveChannel) : (b.mapChans f).waveRegs d = b.waveRegs d := rfl
@[simp] theorem Block.readWave_mapChans (b : Block) (f : ChanRegs → ChanRegs) (x : Nat) : (b.mapChans f).readWave x = b.readWave x := rfl
@[simp] theorem Block.readModt_mapChans (b : Block) (f : ChanRegs → ChanRegs) (x : Nat) : (b.mapChans f).readModt x = b.readModt x := rfl
@[simp] theorem Block.chan_modWave (b : Block) (c : WaveChannel) (f : WaveRegs → WaveRegs) (d : Channel) : (b.modWave c f).chan d = b.chan d := rfl
@[simp] theorem Block.readWave_modWave (b : Block) (c : WaveChannel) (f : WaveRegs → WaveRegs) (x : Nat) : (b.modWave c f).readWave x = b.readWave x := rfl
@[simp] theorem Block.readModt_modWave (b : Block) (c : WaveChannel) (f : WaveRegs → WaveRegs) (x : Nat) : (b.modWave c f).readModt x = b.readModt x := rfl
@[simp] theorem Block.chan_modSweep (b : Block) (f : SweepRegs → SweepRegs) (d : Channel) : (b.modSweep f).chan d = b.chan d := rfl
@[simp] theorem Block.waveRegs_modSweep (b : Block) (f : SweepRegs → SweepRegs) (d : WaveChannel) : (b.modSweep f).waveRegs d = b.waveRegs d := rfl
@[simp] theorem Block.readWave_modSweep (b : Block) (f : SweepRegs → SweepRegs) (x : Nat) : (b.modSweep f).readWave x = b.readWave x := rfl
@[simp] theorem Block.readModt_modSweep (b : Block) (f : SweepRegs → SweepRegs) (x : Nat) : (b.modSweep f).readModt x = b.readModt x := rfl
@[simp] theorem Block.chan_modNoise (b : Block) (f : NoiseRegs → NoiseRegs) (d : Channel) : (b.modNoise f).chan d = b.chan d := rfl
@[simp] theorem Block.waveRegs_modNoise (b : Block) (f : NoiseRegs → NoiseRegs) (d : WaveChannel) : (b.modNoise f).waveRegs d = b.waveRegs d := rfl
@[simp] theorem Block.readWave_modNoise (b : Block) (f : NoiseRegs → NoiseRegs) (x : Nat) : (b.modNoise f).readWave x = b.readWave x := rfl
@[simp] theorem Block.readModt_modNoise (b : Block) (f : NoiseRegs → NoiseRegs) (x : Nat) : (b.modNoise f).readModt x = b.readModt x := rfl
@[simp] theorem Block.chan_writeWave (b : Block) (a : Nat) (vs : List Byte) (d : Channel) : (b.writeWave a vs).chan d = b.chan d := rfl
@[simp] theorem Block.waveRegs_writeWave (b : Block) (a : Nat) (vs : List Byte) (d : WaveChannel) : (b.writeWave a vs).waveRegs d = b.waveRegs d := rfl
@[simp] theorem Block.readModt_writeWave (b : Block) (a : Nat) (vs : List Byte) (x : Nat) : (b.writeWave a vs).readModt x = b.readModt x := rfl
@[simp] theorem Block.chan_writeModt (b : Block) (a : Nat) (vs : List Byte) (d : Channel) : (b.writeModt a vs).chan d = b.chan d := rfl
@[simp] theorem Block.waveRegs_writeModt (b : Block) (a : Nat) (vs : List Byte) (d : WaveChannel) : (b.writeModt a vs).waveRegs d = b.waveRegs d := rfl
@[simp] theorem Block.readWave_writeModt (b : Block) (a : Nat) (vs : List Byte) (x : Nat) : (b.writeModt a vs).readWave x = b.readWave x := rfl

@[simp] theorem Block.chan_setIntDiv (b : Block) (n : Nat) (d : Channel) : (b.setIntDiv n).chan d = b.chan d := rfl
@[simp] theorem Block.waveRegs_setIntDiv (b : Block) (n : Nat) (d : WaveChannel) : (b.setIntDiv n).waveRegs d = b.waveRegs d := rfl
@[simp] theorem Block.readWave_setIntDiv (b : Block) (n x : Nat) : (b.setIntDiv n).readWave x = b.readWave x := rfl
@[simp] theorem Block.readModt_setIntDiv (b : Block) (n x : Nat) : (b.setIntDiv n).readModt x = b.readModt x := rfl
@[simp] theorem Block.chan_setEnvDiv (b : Block) (n : Nat) (d : Channel) : (b.setEnvDiv n).chan d = b.chan d := rfl
@[simp] theorem Block.waveRegs_setEnvDiv (b : Block) (n : Nat) (d : WaveChannel) : (b.setEnvDiv n).waveRegs d = b.waveRegs d := rfl
@[simp] theorem Block.readWave_setEnvDiv (b : Block) (n x : Nat) : (b.setEnvDiv n).readWave x = b.readWave x := rfl
@[simp] theorem Block.readModt_setEnvDiv (b : Block) (n x : Nat) : (b.setEnvDiv n).readModt x = b.readModt x := rfl
@[simp] theorem Block.chan_setSwDiv (b : Block) (n : Nat) (d : Channel) : (b.setSwDiv n).chan d = b.chan d := rfl
@[simp] theorem Block.waveRegs_setSwDiv (b : Block) (n : Nat) (d : WaveChannel) : (b.setSwDiv n).waveRegs d = b.waveRegs d := rfl
@[simp] theorem Block.readWave_setSwDiv (b : Block) (n x : Nat) : (b.setSwDiv n).readWave x = b.readWave x := rfl
@[simp] theorem Block.readModt_setSwDiv (b : Block) (n x : Nat) : (b.setSwDiv n).readModt x = b.readModt x := rfl

/-- Two blocks with the same memories, dividers and registers are equal. -/
theorem Block.ext_parts {b b' : Block} (hw : b.wave = b'.wave) (hm : b.modt = b'.modt) (hi : b.intDiv = b'.intDiv)
    (he : b.envDiv = b'.envDiv) (hs : b.swDiv = b'.swDiv) (hc : ∀ c, b.chan c = b'.chan c)
    (hv : ∀ w, b.waveRegs w = b'.waveRegs w) (hsw : b.sweep = b'.sweep) (hn : b.noise = b'.noise) : b = b' := by
  have h1 := Six.ext_get hc
  have h2 := Five.ext_get hv
  cases b; cases b'
  simp_all

/-! ## Updates of the machine -/

@[simp] theorem State.onBlock_cfg (s : State) (f : Block → Block) : (s.onBlock f).cfg = s.cfg := rfl
@[simp] theorem State.onBlock_block (s : State) (f : Block → Block) : (s.onBlock f).block = f s.block := rfl
@[simp] theorem State.onBlock_input (s : State) (f : Block → Block) : (s.onBlock f).input = s.input := rfl
@[simp] theorem State.onBlock_output (s : State) (f : Block → Block) : (s.onBlock f).output = s.output := rfl

@[simp] theorem State.emit_cfg (s : State) (r : Returned) : (s.emit r).cfg = s.cfg := rfl
@[simp] theorem State.emit_block (s : State) (r : Returned) : (s.emit r).block = s.block := rfl
@[simp] theorem State.emit_input (s : State) (r : Returned) : (s.emit r).input = s.input := rfl
@[simp] theorem State.emit_output (s : State) (r : Returned) : (s.emit r).output = s.output ++ [r] := rfl

@[simp] theorem State.chan_onBlock (s : State) (f : Block → Block) (d : Channel) : (s.onBlock f).chan d = (f s.block).chan d := rfl
@[simp] theorem State.waveRegs_onBlock (s : State) (f : Block → Block) (d : WaveChannel) :
    (s.onBlock f).waveRegs d = (f s.block).waveRegs d := rfl
@[simp] theorem State.chan_emit (s : State) (r : Returned) (d : Channel) : (s.emit r).chan d = s.chan d := rfl
@[simp] theorem State.waveRegs_emit (s : State) (r : Returned) (d : WaveChannel) : (s.emit r).waveRegs d = s.waveRegs d := rfl

/-- Taking a command changes the pending commands only. -/
theorem State.takeCommand_cons {s : State} {cmd : Command} {rest : List Command} (h : s.input = cmd :: rest) :
    s.takeCommand = some (cmd, { s with input := rest }) := by
  simp [State.takeCommand, h]

theorem State.takeCommand_nil {s : State} (h : s.input = []) : s.takeCommand = none := by
  simp [State.takeCommand, h]

theorem State.takeCommand_eq_some {s t : State} {cmd : Command} (h : s.takeCommand = some (cmd, t)) :
    ∃ rest, s.input = cmd :: rest ∧ t = { s with input := rest } := by
  unfold State.takeCommand at h
  split at h
  · cases h
  · rename_i c rest heq
    simp only [Option.some.injEq, Prod.mk.injEq] at h
    exact ⟨rest, h.1 ▸ heq, h.2.symm⟩

end Sys2Proof.Machine
end

