-- ==== Sys2Proof/Laws/Cycle.lean ====
section
/-! SUPPORT. What each sub-step of a chip cycle can do, said once, and what a whole cycle and a run of cycles do to each
part of the state. -/

namespace Sys2Proof.Machine

/-! ## The conditions as propositions -/

@[simp] theorem intervalExpired_iff (n : Nat) (v : BitVec 5) : intervalExpired n v = true ↔ v.toNat < n := by
  simp [intervalExpired]

@[simp] theorem envelopeStepDue_iff (n : Nat) (v : BitVec 5) : envelopeStepDue n v = true ↔ v.toNat < n := by
  simp [envelopeStepDue]

@[simp] theorem dividerDue_iff (n p : Nat) : dividerDue n p = true ↔ p ≤ n := by simp [dividerDue]

/-- The signed compare in natural numbers. -/
@[simp] theorem phaseDue_iff (ph f : Nat) : phaseDue ph f = true ↔ 2048 ≤ ph + f := by
  simp only [phaseDue, decide_eq_true_eq]; omega

@[simp] theorem sweepOverflows_iff (f : BitVec 16) : sweepOverflows f = true ↔ 2048 ≤ f.toNat := by simp [sweepOverflows]

/-! ## The slow ticks leave the settings alone -/

theorem ChanRegs.SameSettings.refl (r : ChanRegs) : r.SameSettings r := by constructor <;> rfl

theorem ChanRegs.SameSettings.trans {a b c : ChanRegs} (h : a.SameSettings b) (h' : b.SameSettings c) :
    a.SameSettings c :=
  ⟨h'.1.trans h.1, h'.2.trans h.2, h'.3.trans h.3, h'.4.trans h.4, h'.5.trans h.5, h'.6.trans h.6, h'.7.trans h.7,
    h'.8.trans h.8, h'.9.trans h.9, h'.10.trans h.10⟩

theorem SweepRegs.SameSettings.refl (w : SweepRegs) : w.SameSettings w := by constructor <;> rfl

theorem SweepRegs.SameSettings.trans {a b c : SweepRegs} (h : a.SameSettings b) (h' : b.SameSettings c) :
    a.SameSettings c :=
  ⟨h'.1.trans h.1, h'.2.trans h.2, h'.3.trans h.3, h'.4.trans h.4, h'.5.trans h.5, h'.6.trans h.6, h'.7.trans h.7⟩

theorem intervalTick_settings (r : ChanRegs) : r.SameSettings (intervalTick r) := by
  unfold intervalTick
  dsimp only
  split_ifs <;> constructor <;> rfl

theorem envelopeTick_settings (r : ChanRegs) : r.SameSettings (envelopeTick r) := by
  unfold envelopeTick
  split_ifs <;> constructor <;> rfl

/-- Everything an interval tick can do (R112). -/
theorem intervalTick_cases (r : ChanRegs) :
    (r.outEn = true ∧ r.intEn = true ∧
      intervalTick r = { r with intCnt := r.intCnt + 1, outEn := decide (r.intCnt + 1 ≤ r.intSet.toNat) }) ∨
    ((r.outEn = false ∨ r.intEn = false) ∧ intervalTick r = r) := by
  unfold intervalTick
  by_cases h : r.outEn = true ∧ r.intEn = true
  · refine .inl ⟨h.1, h.2, ?_⟩
    rw [if_pos h]
    by_cases he : r.intSet.toNat < r.intCnt + 1
    · simp [he, ChanRegs.setOutEn, Nat.le_of_lt_succ he]
    · simp [he, Nat.le_of_not_lt he, h.1]
  · refine .inr ⟨?_, by rw [if_neg h]⟩
    cases h1 : r.outEn <;> cases h2 : r.intEn <;> simp_all

@[simp] theorem intervalTick_envLevel (r : ChanRegs) : (intervalTick r).envLevel = r.envLevel := by
  rcases intervalTick_cases r with ⟨-, -, h⟩ | ⟨-, h⟩ <;> rw [h]

@[simp] theorem intervalTick_envCnt (r : ChanRegs) : (intervalTick r).envCnt = r.envCnt := by
  rcases intervalTick_cases r with ⟨-, -, h⟩ | ⟨-, h⟩ <;> rw [h]

@[simp] theorem intervalTick_phCnt (r : ChanRegs) : (intervalTick r).phCnt = r.phCnt := by
  rcases intervalTick_cases r with ⟨-, -, h⟩ | ⟨-, h⟩ <;> rw [h]

/-- An interval tick never makes a channel audible (R114). -/
theorem intervalTick_outEn_false {r : ChanRegs} (h : r.outEn = false) : intervalTick r = r := by
  unfold intervalTick; simp [h]

@[simp] theorem envelopeTick_outEn (r : ChanRegs) : (envelopeTick r).outEn = r.outEn := by
  unfold envelopeTick; split_ifs <;> rfl

@[simp] theorem envelopeTick_intCnt (r : ChanRegs) : (envelopeTick r).intCnt = r.intCnt := by
  unfold envelopeTick; split_ifs <;> rfl

@[simp] theorem envelopeTick_phCnt (r : ChanRegs) : (envelopeTick r).phCnt = r.phCnt := by
  unfold envelopeTick; split_ifs <;> rfl

/-- Everything an envelope tick can do (R107). -/
theorem envelopeTick_cases (r : ChanRegs) :
    (r.envEn = false ∧ envelopeTick r = r) ∨
    (r.envEn = true ∧ r.envCnt + 1 ≤ r.envStep.toNat ∧ envelopeTick r = { r with envCnt := r.envCnt + 1 }) ∨
    (r.envEn = true ∧ r.envStep.toNat < r.envCnt + 1 ∧
      envelopeTick r = { r with envCnt := 0, envLevel := nextLevel r }) := by
  unfold envelopeTick
  cases h : r.envEn
  · simp
  · by_cases hd : r.envStep.toNat < r.envCnt + 1
    · exact .inr (.inr ⟨rfl, hd, by simp [hd]⟩)
    · exact .inr (.inl ⟨rfl, by omega, by simp [hd]⟩)

/-- The level change depends on the level, the direction, the repeat flag and the reload only. -/
theorem nextLevel_congr {r r' : ChanRegs} (h : r.SameSettings r') (hl : r'.envLevel = r.envLevel) :
    nextLevel r' = nextLevel r := by
  simp only [nextLevel, hl, h.envUp, h.envRepeat, h.envReload]

/-! ## The dividers -/

theorem Block.intervalDivider_fires {p : Params} {b : Block} (h : p.intervalPeriod ≤ b.intDiv + 1) :
    b.intervalDivider p = (b.setIntDiv 0).mapChans intervalTick := by
  simp [Block.intervalDivider, h]

theorem Block.intervalDivider_counts {p : Params} {b : Block} (h : ¬ p.intervalPeriod ≤ b.intDiv + 1) :
    b.intervalDivider p = b.setIntDiv (b.intDiv + 1) := by
  simp [Block.intervalDivider, h]

theorem Block.envelopeDivider_fires {p : Params} {b : Block} (h : p.envelopePeriod ≤ b.envDiv + 1) :
    b.envelopeDivider p = (b.setEnvDiv 0).mapChans envelopeTick := by
  simp [Block.envelopeDivider, h]

theorem Block.envelopeDivider_counts {p : Params} {b : Block} (h : ¬ p.envelopePeriod ≤ b.envDiv + 1) :
    b.envelopeDivider p = b.setEnvDiv (b.envDiv + 1) := by
  simp [Block.envelopeDivider, h]

theorem Block.sweepModDivider_fires {p : Params} {b : Block} (h : sweepPeriod b.sweep.swLong ≤ b.swDiv + 1) :
    b.sweepModDivider p = (b.setSwDiv 0).sweepModBaseTick p := by
  simp [Block.sweepModDivider, h]

theorem Block.sweepModDivider_counts {p : Params} {b : Block} (h : ¬ sweepPeriod b.sweep.swLong ≤ b.swDiv + 1) :
    b.sweepModDivider p = b.setSwDiv (b.swDiv + 1) := by
  simp [Block.sweepModDivider, h]

/-! ## What the sweep/modulation unit can change -/

/-- What a run of the sweep/modulation unit keeps: all but channel 5's `outEn` and its own counters. -/
structure Block.SweepKeeps (b b' : Block) : Prop where
  wave : b'.wave = b.wave
  modt : b'.modt = b.modt
  intDiv : b'.intDiv = b.intDiv
  envDiv : b'.envDiv = b.envDiv
  waves : b'.waves = b.waves
  noise : b'.noise = b.noise
  others : ∀ c, c ≠ .ch5 → b'.chan c = b.chan c
  ch5 : b'.chan .ch5 = b.chan .ch5 ∨ b'.chan .ch5 = (b.chan .ch5).setOutEn false
  settings : b.sweep.SameSettings b'.sweep

theorem Block.SweepKeeps.refl (b : Block) : b.SweepKeeps b := by
  constructor <;> first | exact .refl _ | simp

theorem Block.SweepKeeps.trans {a b c : Block} (h : a.SweepKeeps b) (h' : b.SweepKeeps c) : a.SweepKeeps c where
  wave := h'.wave.trans h.wave
  modt := h'.modt.trans h.modt
  intDiv := h'.intDiv.trans h.intDiv
  envDiv := h'.envDiv.trans h.envDiv
  waves := h'.waves.trans h.waves
  noise := h'.noise.trans h.noise
  others d hd := (h'.others d hd).trans (h.others d hd)
  ch5 := by
    rcases h.ch5 with h1 | h1 <;> rcases h'.ch5 with h2 | h2 <;> rw [h2, h1] <;> simp [ChanRegs.setOutEn]
  settings := h.settings.trans h'.settings

theorem Block.sweepApply_keeps (b : Block) : b.SweepKeeps b.sweepApply := by
  unfold Block.sweepApply
  dsimp only
  split_ifs
  · constructor <;> first | (constructor <;> rfl) | simp +contextual
  · constructor <;> first | (constructor <;> rfl) | simp

@[simp] theorem modPhaseAdvance_swLong (w : SweepRegs) : (modPhaseAdvance w).swLong = w.swLong := by
  unfold modPhaseAdvance; split_ifs <;> rfl
@[simp] theorem modPhaseAdvance_swEn (w : SweepRegs) : (modPhaseAdvance w).swEn = w.swEn := by
  unfold modPhaseAdvance; split_ifs <;> rfl
@[simp] theorem modPhaseAdvance_modRepeat (w : SweepRegs) : (modPhaseAdvance w).modRepeat = w.modRepeat := by
  unfold modPhaseAdvance; split_ifs <;> rfl
@[simp] theorem modPhaseAdvance_swMod (w : SweepRegs) : (modPhaseAdvance w).swMod = w.swMod := by
  unfold modPhaseAdvance; split_ifs <;> rfl
@[simp] theorem modPhaseAdvance_swUp (w : SweepRegs) : (modPhaseAdvance w).swUp = w.swUp := by
  unfold modPhaseAdvance; split_ifs <;> rfl
@[simp] theorem modPhaseAdvance_swShift (w : SweepRegs) : (modPhaseAdvance w).swShift = w.swShift := by
  unfold modPhaseAdvance; split_ifs <;> rfl
@[simp] theorem modPhaseAdvance_swInt (w : SweepRegs) : (modPhaseAdvance w).swInt = w.swInt := by
  unfold modPhaseAdvance; split_ifs <;> rfl
@[simp] theorem modPhaseAdvance_swCnt (w : SweepRegs) : (modPhaseAdvance w).swCnt = w.swCnt := by
  unfold modPhaseAdvance; split_ifs <;> rfl
@[simp] theorem modPhaseAdvance_modFreq (w : SweepRegs) : (modPhaseAdvance w).modFreq = w.modFreq := by
  unfold modPhaseAdvance; split_ifs <;> rfl

theorem Block.sweepCompute_keeps (b : Block) : b.SweepKeeps b.sweepCompute := by
  unfold Block.sweepCompute
  dsimp only
  split_ifs <;> constructor <;> first | (constructor <;> simp) | simp

theorem Block.sweepModTick_keeps (g : SweepRunGate) (b : Block) : b.SweepKeeps (b.sweepModTick g) := by
  unfold Block.sweepModTick
  dsimp only
  split_ifs
  · exact b.sweepApply_keeps.trans (Block.sweepCompute_keeps _)
  · exact b.sweepApply_keeps

@[simp] theorem Block.sweepApply_swCnt (b : Block) : b.sweepApply.sweep.swCnt = b.sweep.swCnt := by
  unfold Block.sweepApply; dsimp only; split_ifs <;> rfl

@[simp] theorem Block.sweepApply_swDiv (b : Block) : b.sweepApply.swDiv = b.swDiv := by
  unfold Block.sweepApply; dsimp only; split_ifs <;> rfl

@[simp] theorem Block.sweepModTick_swCnt (g : SweepRunGate) (b : Block) :
    (b.sweepModTick g).sweep.swCnt = b.sweep.swCnt := by
  unfold Block.sweepModTick Block.sweepCompute; dsimp only
  split_ifs <;> simp

@[simp] theorem Block.sweepModTick_swDiv (g : SweepRunGate) (b : Block) : (b.sweepModTick g).swDiv = b.swDiv := by
  unfold Block.sweepModTick Block.sweepCompute; dsimp only
  split_ifs <;> simp

/-- Everything a base tick can do (R125). -/
theorem Block.sweepModBaseTick_cases (p : Params) (b : Block) :
    (p.sweepIntervalMode = .gate ∧ b.sweepModBaseTick p = b.sweepModTick p.sweepRunGate) ∨
    (p.sweepIntervalMode = .divide ∧ b.sweep.swCnt + 1 < max 1 b.sweep.swInt.toNat ∧
      b.sweepModBaseTick p = b.modSweep fun w => { w with swCnt := b.sweep.swCnt + 1 }) ∨
    (p.sweepIntervalMode = .divide ∧ max 1 b.sweep.swInt.toNat ≤ b.sweep.swCnt + 1 ∧
      b.sweepModBaseTick p = (b.modSweep fun w => { w with swCnt := 0 }).sweepModTick p.sweepRunGate) := by
  cases h : p.sweepIntervalMode
  · exact .inl ⟨rfl, by simp only [Block.sweepModBaseTick, h]⟩
  · rcases Nat.lt_or_ge (b.sweep.swCnt + 1) (max 1 b.sweep.swInt.toNat) with hd | hd
    · exact .inr (.inl ⟨rfl, hd, by simp only [Block.sweepModBaseTick, h]; rw [if_neg (Nat.not_le.mpr hd)]⟩)
    · exact .inr (.inr ⟨rfl, hd, by simp only [Block.sweepModBaseTick, h]; rw [if_pos hd]⟩)

theorem Block.sweepModBaseTick_keeps (p : Params) (b : Block) : b.SweepKeeps (b.sweepModBaseTick p) := by
  unfold Block.sweepModBaseTick
  dsimp only
  split
  · exact Block.sweepModTick_keeps _ _
  · split_ifs
    · exact Block.SweepKeeps.trans (by constructor <;> first | (constructor <;> rfl) | simp) (Block.sweepModTick_keeps _ _)
    · constructor <;> first | (constructor <;> rfl) | simp

@[simp] theorem Block.sweepModBaseTick_swDiv (p : Params) (b : Block) : (b.sweepModBaseTick p).swDiv = b.swDiv := by
  unfold Block.sweepModBaseTick; dsimp only
  split
  · simp
  · split_ifs <;> simp

/-- `swCnt` stays below `max 1 swInt` once a base tick has run in mode `divide`, and is kept in mode `gate` (R125). -/
theorem Block.sweepModBaseTick_swCnt (p : Params) (b : Block) (h : b.sweep.swCnt ≤ 7) :
    (b.sweepModBaseTick p).sweep.swCnt ≤ 7 := by
  have hi := b.sweep.swInt.isLt
  unfold Block.sweepModBaseTick; dsimp only
  split
  · simpa using h
  · split_ifs with hd
    · simp
    · simp only [Block.modSweep_sweep]; omega

theorem Block.sweepModDivider_keeps (p : Params) (b : Block) : b.SweepKeeps (b.sweepModDivider p) := by
  by_cases h : sweepPeriod b.sweep.swLong ≤ b.swDiv + 1
  · rw [Block.sweepModDivider_fires h]
    exact Block.SweepKeeps.trans (by constructor <;> first | (constructor <;> rfl) | simp) (Block.sweepModBaseTick_keeps _ _)
  · rw [Block.sweepModDivider_counts h]
    constructor <;> first | (constructor <;> rfl) | simp

theorem Block.sweepModDivider_swDiv (p : Params) (b : Block) :
    (b.sweepModDivider p).swDiv = if sweepPeriod b.sweep.swLong ≤ b.swDiv + 1 then 0 else b.swDiv + 1 := by
  by_cases h : sweepPeriod b.sweep.swLong ≤ b.swDiv + 1
  · rw [Block.sweepModDivider_fires h, if_pos h]; simp
  · rw [Block.sweepModDivider_counts h, if_neg h]; rfl

/-! ## The accumulators -/

/-- The count an accumulator with increment `inc` is left at (R117, R135). -/
def accNext (inc f ph : Nat) : Nat := if 2048 ≤ ph + inc + f then 0 else ph + inc

theorem accNext_le (inc f ph : Nat) : accNext inc f ph ≤ 2047 := by
  unfold accNext; split_ifs <;> omega

/-- What one wave tick does to the channel's registers. -/
theorem Block.chan_wavePlayTick (b : Block) (w : WaveChannel) (d : Channel) :
    (b.wavePlayTick w).chan d =
      if d = w.channel then { b.chan d with phCnt := accNext waveIncrement (b.playFreq w) (b.chan d).phCnt }
      else b.chan d := by
  unfold Block.wavePlayTick Block.waveFreqTick accNext
  by_cases hd : d = w.channel
  · subst hd
    dsimp only
    split_ifs <;> simp_all
  · dsimp only
    split_ifs <;> simp [hd]

theorem Block.waveRegs_wavePlayTick (b : Block) (w v : WaveChannel) :
    (b.wavePlayTick w).waveRegs v =
      if v = w ∧ 2048 ≤ (b.chan w.channel).phCnt + waveIncrement + b.playFreq w
      then { b.waveRegs v with phase := (b.waveRegs v).phase + 1 } else b.waveRegs v := by
  unfold Block.wavePlayTick Block.waveFreqTick
  by_cases hv : v = w
  · subst hv
    dsimp only
    split_ifs <;> simp_all
  · dsimp only
    split_ifs <;> simp_all

/-- What the accumulators leave alone. -/
structure Block.TickKeeps (b b' : Block) : Prop where
  wave : b'.wave = b.wave
  modt : b'.modt = b.modt
  intDiv : b'.intDiv = b.intDiv
  envDiv : b'.envDiv = b.envDiv
  swDiv : b'.swDiv = b.swDiv
  sweep : b'.sweep = b.sweep

theorem Block.TickKeeps.trans {a b c : Block} (h : a.TickKeeps b) (h' : b.TickKeeps c) : a.TickKeeps c :=
  ⟨h'.1.trans h.1, h'.2.trans h.2, h'.3.trans h.3, h'.4.trans h.4, h'.5.trans h.5, h'.6.trans h.6⟩

theorem Block.wavePlayTick_keeps (b : Block) (w : WaveChannel) :
    b.TickKeeps (b.wavePlayTick w) ∧ (b.wavePlayTick w).noise = b.noise := by
  unfold Block.wavePlayTick Block.waveFreqTick
  dsimp only
  split_ifs <;> exact ⟨by constructor <;> rfl, rfl⟩

theorem Block.waveTicks_unfold (b : Block) :
    b.waveTicks = ((((b.wavePlayTick .ch1).wavePlayTick .ch2).wavePlayTick .ch3).wavePlayTick .ch4).wavePlayTick .ch5 := by
  simp only [Block.waveTicks, WaveChannel.all, List.foldl_cons, List.foldl_nil]

/-- A wave tick does not change what another channel plays. -/
theorem Block.playFreq_wavePlayTick (b : Block) (w v : WaveChannel) : (b.wavePlayTick w).playFreq v = b.playFreq v := by
  have hs := ((b.wavePlayTick_keeps w).1).sweep
  cases v <;> simp only [Block.playFreq, Block.chan_wavePlayTick, hs] <;> split_ifs <;> rfl

theorem Block.waveTicks_keeps (b : Block) : b.TickKeeps b.waveTicks ∧ b.waveTicks.noise = b.noise := by
  rw [Block.waveTicks_unfold]
  obtain ⟨h1, n1⟩ := b.wavePlayTick_keeps .ch1
  generalize b.wavePlayTick .ch1 = b1 at *
  obtain ⟨h2, n2⟩ := b1.wavePlayTick_keeps .ch2
  generalize b1.wavePlayTick .ch2 = b2 at *
  obtain ⟨h3, n3⟩ := b2.wavePlayTick_keeps .ch3
  generalize b2.wavePlayTick .ch3 = b3 at *
  obtain ⟨h4, n4⟩ := b3.wavePlayTick_keeps .ch4
  generalize b3.wavePlayTick .ch4 = b4 at *
  obtain ⟨h5, n5⟩ := b4.wavePlayTick_keeps .ch5
  generalize b4.wavePlayTick .ch5 = b5 at *
  exact ⟨(((h1.trans h2).trans h3).trans h4).trans h5, by rw [n5, n4, n3, n2, n1]⟩

/-- The frequency ticks of channels 1 to 5, each on its own channel (R100). -/
theorem Block.chan_waveTicks (b : Block) (w : WaveChannel) :
    b.waveTicks.chan w.channel =
      { b.chan w.channel with phCnt := accNext waveIncrement (b.playFreq w) (b.chan w.channel).phCnt } := by
  rw [Block.waveTicks_unfold]
  simp only [Block.chan_wavePlayTick, Block.playFreq_wavePlayTick]
  cases w <;> rfl

theorem Block.chan_waveTicks_ch6 (b : Block) : b.waveTicks.chan .ch6 = b.chan .ch6 := by
  rw [Block.waveTicks_unfold]
  simp only [Block.chan_wavePlayTick]
  rfl

theorem Block.waveRegs_waveTicks (b : Block) (w : WaveChannel) :
    b.waveTicks.waveRegs w =
      if 2048 ≤ (b.chan w.channel).phCnt + waveIncrement + b.playFreq w
      then { b.waveRegs w with phase := (b.waveRegs w).phase + 1 } else b.waveRegs w := by
  rw [Block.waveTicks_unfold]
  simp only [Block.waveRegs_wavePlayTick, Block.chan_wavePlayTick, Block.playFreq_wavePlayTick]
  cases w <;> simp [WaveChannel.channel] <;> congr

theorem Block.noiseFreqTick_keeps (b : Block) : b.TickKeeps b.noiseFreqTick ∧ b.noiseFreqTick.waves = b.waves := by
  unfold Block.noiseFreqTick
  dsimp only
  split_ifs <;> exact ⟨by constructor <;> rfl, rfl⟩

theorem Block.chan_noiseFreqTick (b : Block) (d : Channel) :
    b.noiseFreqTick.chan d =
      if d = .ch6 then { b.chan d with phCnt := accNext noiseIncrement (b.chan .ch6).freq.toNat (b.chan d).phCnt }
      else b.chan d := by
  unfold Block.noiseFreqTick accNext
  by_cases hd : d = .ch6
  · subst hd
    dsimp only
    split_ifs <;> simp_all
  · dsimp only
    split_ifs <;> simp [hd]

theorem Block.noise_noiseFreqTick (b : Block) :
    b.noiseFreqTick.noise =
      if 2048 ≤ (b.chan .ch6).phCnt + noiseIncrement + (b.chan .ch6).freq.toNat then b.noise.lfsrStep else b.noise := by
  unfold Block.noiseFreqTick
  dsimp only
  split_ifs <;> simp_all

/-! ## One cycle -/

/-- A channel after the interval and envelope dividers of a cycle. -/
def Block.slowTicked (p : Params) (b : Block) (c : Channel) : ChanRegs :=
  let r := if p.intervalPeriod ≤ b.intDiv + 1 then intervalTick (b.chan c) else b.chan c
  if p.envelopePeriod ≤ b.envDiv + 1 then envelopeTick r else r

/-- The block after the interval and envelope dividers of a cycle. -/
theorem Block.slowDividers (p : Params) (b : Block) :
    let b' := (b.intervalDivider p).envelopeDivider p
    (∀ c, b'.chan c = b.slowTicked p c) ∧ b'.wave = b.wave ∧ b'.modt = b.modt ∧ b'.waves = b.waves ∧ b'.noise = b.noise ∧
    b'.sweep = b.sweep ∧ b'.swDiv = b.swDiv ∧
    b'.intDiv = (if p.intervalPeriod ≤ b.intDiv + 1 then 0 else b.intDiv + 1) ∧
    b'.envDiv = (if p.envelopePeriod ≤ b.envDiv + 1 then 0 else b.envDiv + 1) := by
  unfold Block.intervalDivider Block.envelopeDivider Block.slowTicked
  by_cases h1 : p.intervalPeriod ≤ b.intDiv + 1 <;> by_cases h2 : p.envelopePeriod ≤ b.envDiv + 1 <;> simp [h1, h2]

theorem Block.slowTicked_settings (p : Params) (b : Block) (c : Channel) : (b.chan c).SameSettings (b.slowTicked p c) := by
  unfold Block.slowTicked
  dsimp only
  split_ifs
  · exact (intervalTick_settings _).trans (envelopeTick_settings _)
  · exact envelopeTick_settings _
  · exact intervalTick_settings _
  · exact .refl _

/-- A channel is audible after the slow ticks exactly if it was and its duration did not run out in this cycle (R112). -/
theorem Block.slowTicked_outEn (p : Params) (b : Block) (c : Channel) :
    (b.slowTicked p c).outEn = true ↔
      (b.chan c).outEn = true ∧ ¬ (p.intervalPeriod ≤ b.intDiv + 1 ∧ (b.chan c).intEn = true ∧
        (b.chan c).intSet.toNat < (b.chan c).intCnt + 1) := by
  have h : (b.slowTicked p c).outEn =
      (if p.intervalPeriod ≤ b.intDiv + 1 then intervalTick (b.chan c) else b.chan c).outEn := by
    unfold Block.slowTicked; dsimp only; split_ifs <;> simp
  rw [h]
  split_ifs with hp
  · rcases intervalTick_cases (b.chan c) with ⟨ho, he, ht⟩ | ⟨hoe, ht⟩
    · rw [ht]; simp [hp, ho, he]
    · rw [ht]; rcases hoe with ho | he <;> simp [*]
  · simp [hp]

theorem Block.slowTicked_phCnt (p : Params) (b : Block) (c : Channel) : (b.slowTicked p c).phCnt = (b.chan c).phCnt := by
  unfold Block.slowTicked; dsimp only; split_ifs <;> simp

/-- The tables after a cycle are those before it. -/
theorem Block.tick_tables (p : Params) (b : Block) : (b.tick p).wave = b.wave ∧ (b.tick p).modt = b.modt := by
  unfold Block.tick
  obtain ⟨-, h1, h2, -⟩ := b.slowDividers p
  have h3 := Block.sweepModDivider_keeps p ((b.intervalDivider p).envelopeDivider p)
  have h4 := (Block.waveTicks_keeps (((b.intervalDivider p).envelopeDivider p).sweepModDivider p)).1
  have h5 := (Block.noiseFreqTick_keeps (((b.intervalDivider p).envelopeDivider p).sweepModDivider p).waveTicks).1
  exact ⟨h5.wave.trans (h4.wave.trans (h3.wave.trans h1)), h5.modt.trans (h4.modt.trans (h3.modt.trans h2))⟩

/-- The dividers after a cycle (R102, R103, R104). -/
theorem Block.tick_dividers (p : Params) (b : Block) :
    (b.tick p).intDiv = (if p.intervalPeriod ≤ b.intDiv + 1 then 0 else b.intDiv + 1) ∧
    (b.tick p).envDiv = (if p.envelopePeriod ≤ b.envDiv + 1 then 0 else b.envDiv + 1) ∧
    (b.tick p).swDiv = (if sweepPeriod b.sweep.swLong ≤ b.swDiv + 1 then 0 else b.swDiv + 1) := by
  unfold Block.tick
  obtain ⟨-, -, -, -, -, h6, h7, h8, h9⟩ := b.slowDividers p
  have h3 := Block.sweepModDivider_keeps p ((b.intervalDivider p).envelopeDivider p)
  have hsw := Block.sweepModDivider_swDiv p ((b.intervalDivider p).envelopeDivider p)
  rw [h6, h7] at hsw
  have h4 := (Block.waveTicks_keeps (((b.intervalDivider p).envelopeDivider p).sweepModDivider p)).1
  have h5 := (Block.noiseFreqTick_keeps (((b.intervalDivider p).envelopeDivider p).sweepModDivider p).waveTicks).1
  exact ⟨h5.intDiv.trans (h4.intDiv.trans (h3.intDiv.trans h8)), h5.envDiv.trans (h4.envDiv.trans (h3.envDiv.trans h9)),
    h5.swDiv.trans (h4.swDiv.trans hsw)⟩

/-- The sweep/modulation registers after a cycle are those its divider leaves. -/
theorem Block.tick_sweep (p : Params) (b : Block) :
    (b.tick p).sweep = (((b.intervalDivider p).envelopeDivider p).sweepModDivider p).sweep := by
  unfold Block.tick
  have h4 := (Block.waveTicks_keeps (((b.intervalDivider p).envelopeDivider p).sweepModDivider p)).1
  have h5 := (Block.noiseFreqTick_keeps (((b.intervalDivider p).envelopeDivider p).sweepModDivider p).waveTicks).1
  exact h5.sweep.trans h4.sweep

/-- Channels 1 to 4 after a cycle: the slow ticks, then the accumulator at the channel's own frequency. -/
theorem Block.tick_chan_standard (p : Params) (b : Block) {w : WaveChannel} (hw : w ≠ .ch5) :
    (b.tick p).chan w.channel =
      { b.slowTicked p w.channel with
        phCnt := accNext waveIncrement (b.chan w.channel).freq.toNat (b.chan w.channel).phCnt } := by
  have hk := Block.sweepModDivider_keeps p ((b.intervalDivider p).envelopeDivider p)
  have hc := hk.others w.channel (by cases w <;> simp_all [WaveChannel.channel])
  have hs := (b.slowDividers p).1 w.channel
  have hf := (b.slowTicked_settings p w.channel).freq
  have hp := b.slowTicked_phCnt p w.channel
  have hplay : (((b.intervalDivider p).envelopeDivider p).sweepModDivider p).playFreq w
      = ((((b.intervalDivider p).envelopeDivider p).sweepModDivider p).chan w.channel).freq.toNat := by
    cases w <;> first | rfl | exact absurd rfl hw
  unfold Block.tick
  rw [Block.chan_noiseFreqTick, if_neg (channel_ne_ch6 w), Block.chan_waveTicks, hplay, hc, hs, hf, hp]

/-- Channel 5 after a cycle: the slow ticks, perhaps an overflow, then the accumulator at the new `modFreq`. -/
theorem Block.tick_chan_ch5 (p : Params) (b : Block) :
    ∃ o : Bool, (o = true → (b.slowTicked p .ch5).outEn = true) ∧
      (b.tick p).chan .ch5 =
        { b.slowTicked p .ch5 with
          outEn := o, phCnt := accNext waveIncrement (b.tick p).sweep.modFreq.toNat (b.chan .ch5).phCnt } := by
  have hk := Block.sweepModDivider_keeps p ((b.intervalDivider p).envelopeDivider p)
  have hs := (b.slowDividers p).1 .ch5
  have hp := b.slowTicked_phCnt p .ch5
  have ht : (b.tick p).chan .ch5 =
      { (((b.intervalDivider p).envelopeDivider p).sweepModDivider p).chan .ch5 with
        phCnt := accNext waveIncrement (b.tick p).sweep.modFreq.toNat
          ((((b.intervalDivider p).envelopeDivider p).sweepModDivider p).chan .ch5).phCnt } := by
    rw [Block.tick_sweep]
    conv_lhs => unfold Block.tick
    rw [Block.chan_noiseFreqTick, if_neg (by decide)]
    exact Block.chan_waveTicks _ .ch5
  rw [ht]
  rcases hk.ch5 with h | h
  · exact ⟨(b.slowTicked p .ch5).outEn, id, by rw [h, hs, hp]⟩
  · exact ⟨false, by simp, by rw [h, hs]; simp [ChanRegs.setOutEn, hp]⟩

/-- Channel 6 after a cycle: the slow ticks, then the accumulator at its frequency. -/
theorem Block.tick_chan_ch6 (p : Params) (b : Block) :
    (b.tick p).chan .ch6 =
      { b.slowTicked p .ch6 with phCnt := accNext noiseIncrement (b.chan .ch6).freq.toNat (b.chan .ch6).phCnt } := by
  have hk := Block.sweepModDivider_keeps p ((b.intervalDivider p).envelopeDivider p)
  have hc := hk.others .ch6 (by decide)
  have hs := (b.slowDividers p).1 .ch6
  have hf := (b.slowTicked_settings p .ch6).freq
  have hp := b.slowTicked_phCnt p .ch6
  unfold Block.tick
  rw [Block.chan_noiseFreqTick, if_pos rfl, Block.chan_waveTicks_ch6, hc, hs, hf, hp]

/-- Every channel after a cycle is its slow ticks but for `outEn`, which can only have been cleared, and `phCnt`. -/
theorem Block.tick_chan (p : Params) (b : Block) (c : Channel) :
    ∃ (o : Bool) (ph : Nat), (o = true → (b.slowTicked p c).outEn = true) ∧ (c ≠ .ch5 → o = (b.slowTicked p c).outEn) ∧
      ph ≤ 2047 ∧ (b.tick p).chan c = { b.slowTicked p c with outEn := o, phCnt := ph } := by
  cases c with
  | ch1 => exact ⟨_, _, id, fun _ => rfl, accNext_le .., b.tick_chan_standard p (w := .ch1) (by decide)⟩
  | ch2 => exact ⟨_, _, id, fun _ => rfl, accNext_le .., b.tick_chan_standard p (w := .ch2) (by decide)⟩
  | ch3 => exact ⟨_, _, id, fun _ => rfl, accNext_le .., b.tick_chan_standard p (w := .ch3) (by decide)⟩
  | ch4 => exact ⟨_, _, id, fun _ => rfl, accNext_le .., b.tick_chan_standard p (w := .ch4) (by decide)⟩
  | ch5 =>
    obtain ⟨o, ho, h⟩ := b.tick_chan_ch5 p
    exact ⟨o, _, ho, by simp, accNext_le .., h⟩
  | ch6 => exact ⟨_, _, id, fun _ => rfl, accNext_le .., b.tick_chan_ch6 p⟩

/-- A cycle writes no setting of any channel. -/
theorem Block.tick_settings (p : Params) (b : Block) (c : Channel) : (b.chan c).SameSettings ((b.tick p).chan c) := by
  obtain ⟨o, ph, -, -, -, h⟩ := b.tick_chan p c
  rw [h]
  exact (b.slowTicked_settings p c).trans (by constructor <;> rfl)

/-- The wave registers of channels 1 to 4 after a cycle. -/
theorem Block.tick_waveRegs_standard (p : Params) (b : Block) {w : WaveChannel} (hw : w ≠ .ch5) :
    (b.tick p).waveRegs w =
      if 2048 ≤ (b.chan w.channel).phCnt + waveIncrement + (b.chan w.channel).freq.toNat
      then { b.waveRegs w with phase := (b.waveRegs w).phase + 1 } else b.waveRegs w := by
  have hk := Block.sweepModDivider_keeps p ((b.intervalDivider p).envelopeDivider p)
  have hc := hk.others w.channel (by cases w <;> simp_all [WaveChannel.channel])
  obtain ⟨hs, -, -, hwv, -⟩ := b.slowDividers p
  have hf := (b.slowTicked_settings p w.channel).freq
  have hp := b.slowTicked_phCnt p w.channel
  have hplay : (((b.intervalDivider p).envelopeDivider p).sweepModDivider p).playFreq w
      = ((((b.intervalDivider p).envelopeDivider p).sweepModDivider p).chan w.channel).freq.toNat := by
    cases w <;> first | rfl | exact absurd rfl hw
  have hwr : (((b.intervalDivider p).envelopeDivider p).sweepModDivider p).waveRegs w = b.waveRegs w := by
    simp only [Block.waveRegs, hk.waves, hwv]
  have hn : (b.tick p).waveRegs w = ((((b.intervalDivider p).envelopeDivider p).sweepModDivider p).waveTicks).waveRegs w := by
    simp only [Block.tick, Block.waveRegs, (Block.noiseFreqTick_keeps _).2]
  rw [hn, Block.waveRegs_waveTicks, hplay, hwr, hc, hs, hf, hp]

/-- The wave registers of channel 5 after a cycle: the frequency compared is the one this cycle's unit left (R100). -/
theorem Block.tick_waveRegs_ch5 (p : Params) (b : Block) :
    (b.tick p).waveRegs .ch5 =
      if 2048 ≤ (b.chan .ch5).phCnt + waveIncrement + (b.tick p).sweep.modFreq.toNat
      then { b.waveRegs .ch5 with phase := (b.waveRegs .ch5).phase + 1 } else b.waveRegs .ch5 := by
  have hk := Block.sweepModDivider_keeps p ((b.intervalDivider p).envelopeDivider p)
  obtain ⟨hs, -, -, hwv, -⟩ := b.slowDividers p
  have hp : ((((b.intervalDivider p).envelopeDivider p).sweepModDivider p).chan .ch5).phCnt = (b.chan .ch5).phCnt := by
    rcases hk.ch5 with h | h <;> rw [h, hs] <;> exact b.slowTicked_phCnt p .ch5
  have hwr : (((b.intervalDivider p).envelopeDivider p).sweepModDivider p).waveRegs .ch5 = b.waveRegs .ch5 := by
    simp only [Block.waveRegs, hk.waves, hwv]
  have hn : (b.tick p).waveRegs .ch5 = ((((b.intervalDivider p).envelopeDivider p).sweepModDivider p).waveTicks).waveRegs .ch5 := by
    simp only [Block.tick, Block.waveRegs, (Block.noiseFreqTick_keeps _).2]
  rw [hn, Block.waveRegs_waveTicks, hwr, show WaveChannel.ch5.channel = Channel.ch5 from rfl, hp, b.tick_sweep]
  rfl

/-- Channel 6's noise registers after a cycle. -/
theorem Block.tick_noise (p : Params) (b : Block) :
    (b.tick p).noise =
      if 2048 ≤ (b.chan .ch6).phCnt + noiseIncrement + (b.chan .ch6).freq.toNat then b.noise.lfsrStep else b.noise := by
  have hk := Block.sweepModDivider_keeps p ((b.intervalDivider p).envelopeDivider p)
  have hc := hk.others .ch6 (by decide)
  obtain ⟨hs, -, -, -, hnz, -⟩ := b.slowDividers p
  have hf := (b.slowTicked_settings p .ch6).freq
  have hp := b.slowTicked_phCnt p .ch6
  unfold Block.tick
  rw [Block.noise_noiseFreqTick, Block.chan_waveTicks_ch6, (Block.waveTicks_keeps _).2, hk.noise, hnz, hc, hs, hf, hp]

/-- The sweep/modulation settings are written by no cycle. -/
theorem Block.tick_sweepSettings (p : Params) (b : Block) : b.sweep.SameSettings (b.tick p).sweep := by
  rw [Block.tick_sweep]
  have h := (Block.sweepModDivider_keeps p ((b.intervalDivider p).envelopeDivider p)).settings
  rwa [(b.slowDividers p).2.2.2.2.2.1] at h

/-- A cycle writes no wave select. -/
theorem Block.tick_waveSelect (p : Params) (b : Block) (w : WaveChannel) :
    ((b.tick p).waveRegs w).wave = (b.waveRegs w).wave := by
  have hk := Block.sweepModDivider_keeps p ((b.intervalDivider p).envelopeDivider p)
  have hwr : (((b.intervalDivider p).envelopeDivider p).sweepModDivider p).waveRegs w = b.waveRegs w := by
    simp only [Block.waveRegs, hk.waves, (b.slowDividers p).2.2.2.1]
  have hn : (b.tick p).waveRegs w = ((((b.intervalDivider p).envelopeDivider p).sweepModDivider p).waveTicks).waveRegs w := by
    simp only [Block.tick, Block.waveRegs, (Block.noiseFreqTick_keeps _).2]
  rw [hn, Block.waveRegs_waveTicks, hwr]
  split_ifs <;> rfl

/-- A cycle does not write the noise tap select. -/
theorem Block.tick_tap (p : Params) (b : Block) : (b.tick p).noise.tap = b.noise.tap := by
  rw [Block.tick_noise]
  split_ifs <;> rfl

/-! ## Runs of cycles -/

/-- The state after `n` cycles. -/
theorem Block.runCycles_fst (p : Params) (n : Nat) (b : Block) : (b.runCycles p n).1 = (Block.tick p)^[n] b := by
  induction n generalizing b with
  | zero => rfl
  | succ n ih => rw [Function.iterate_succ_apply, ← ih]; rfl

/-- The frames of `n` cycles: frame `k` is the mix after cycle `k` (R98). -/
theorem Block.runCycles_snd (p : Params) (n : Nat) (b : Block) :
    (b.runCycles p n).2 = (List.range n).map fun k => ((Block.tick p)^[k + 1] b).mix := by
  induction n generalizing b with
  | zero => rfl
  | succ n ih =>
    rw [List.range_succ_eq_map, List.map_cons, List.map_map]
    show (b.tick p).mix :: ((b.tick p).runCycles p n).2 = _
    rw [ih]
    rfl

/-- One cycle of an ADVANCE is a tick. -/
theorem Block.runCycles_one_fst (p : Params) (b : Block) : (b.runCycles p 1).1 = b.tick p := by
  simp only [Block.runCycles, Block.cycle]

/-- A run of `m + n` cycles is a run of `m` and then one of `n`. -/
theorem Block.runCycles_add (p : Params) (m n : Nat) (b : Block) :
    b.runCycles p (m + n) =
      (((b.runCycles p m).1.runCycles p n).1, (b.runCycles p m).2 ++ ((b.runCycles p m).1.runCycles p n).2) := by
  induction m generalizing b with
  | zero => simp [Block.runCycles]
  | succ m ih => rw [Nat.succ_add]; simp only [Block.runCycles, ih]; simp

theorem Block.runCycles_length (p : Params) (n : Nat) (b : Block) : (b.runCycles p n).2.length = n := by
  rw [Block.runCycles_snd]; simp

/-- What holds before a run and is kept by every cycle holds after it. -/
theorem Block.runCycles_induction {p : Params} {P : Block → Prop} (hstep : ∀ b, P b → P (b.tick p)) {b : Block} (h : P b)
    (n : Nat) : P (b.runCycles p n).1 := by
  rw [Block.runCycles_fst]
  induction n generalizing b with
  | zero => exact h
  | succ n ih => exact ih (hstep b h)

end Sys2Proof.Machine
end

