-- ==== Sys2Proof/Laws/Decode.lean ====
section
/-! SUPPORT. The field-identifier map and everything the decoder can answer, said once. -/

namespace Sys2Proof

@[simp] theorem fidSelector_fidOf (a : BitVec 3) (b : BitVec 5) : fidSelector (fidOf a b) = a := by
  revert a b; decide

@[simp] theorem fidCode_fidOf (a : BitVec 3) (b : BitVec 5) : fidCode (fidOf a b) = b := by
  revert a b; decide

theorem fidOf_selector_code (fid : Byte) : fidOf (fidSelector fid) (fidCode fid) = fid := by
  revert fid; decide

@[simp] theorem ofSelector_selector (c : Channel) : Channel.ofSelector c.selector = some c := by cases c <;> decide

theorem ofSelector_eq_some {sel : BitVec 3} {c : Channel} (h : Channel.ofSelector sel = some c) : c.selector = sel := by
  simpa using List.find?_some h

@[simp] theorem selector_ne_zero (c : Channel) : c.selector ≠ 0#3 := by cases c <;> decide

@[simp] theorem ofCode_code (k : FieldKind) : FieldKind.ofCode k.code = some k := by cases k <;> decide

theorem ofCode_eq_some {code : BitVec 5} {k : FieldKind} (h : FieldKind.ofCode code = some k) : k.code = code := by
  simpa using List.find?_some h

/-- A W command to a field its channel has decodes to that field's write (R64). -/
theorem decode_fieldCommand {k : FieldKind} {c : Channel} (h : k.validOn c = true) (v : Word) :
    decode (fieldCommand k c v) = .instr (k.instr c v) := by
  simp [decode, fieldCommand, Command.fid, decodeField, h]

theorem decode_wavup (t : Fin 5) (data : Payload) :
    decode (.t (fidOf 0 (BitVec.ofNat 5 t.val)) data) = .instr (.wavup t data) := by
  have ht : (BitVec.ofNat 5 t.val).toNat = t.val := by
    have := t.isLt
    simp only [BitVec.toNat_ofNat]; omega
  simp [decode, Command.fid, decodeGlobal, ht]

theorem decode_modup (data : Payload) : decode (.t (fidOf 0 modupCode) data) = .instr (.modup data) := by
  simp [decode, Command.fid, decodeGlobal, modupCode]

theorem decode_advance (n : Word) : decode (.w (fidOf 0 advanceCode) n) = .instr (.advance n) := by
  simp [decode, Command.fid, decodeGlobal]

/-- Every global command that decodes to an instruction (R63). -/
theorem decodeGlobal_eq_instr {code : BitVec 5} {cmd : Command} {i : Instr} (h : decodeGlobal code cmd = .instr i) :
    (∃ (t : Fin 5) (data : Payload), code = BitVec.ofNat 5 t.val ∧ cmd = .t cmd.fid data ∧ i = .wavup t data) ∨
    (∃ data, code = modupCode ∧ cmd = .t cmd.fid data ∧ i = .modup data) ∨
    (∃ n, code = advanceCode ∧ cmd = .w cmd.fid n ∧ i = .advance n) := by
  cases cmd with
  | w fid v =>
    simp only [decodeGlobal] at h
    split_ifs at h with h1
    cases h
    exact .inr (.inr ⟨v, h1, rfl, rfl⟩)
  | t fid data =>
    simp only [decodeGlobal] at h
    split_ifs at h with h1 h2
    · cases h
      exact .inl ⟨⟨_, h1⟩, data, by simp, rfl, rfl⟩
    · cases h
      exact .inr (.inl ⟨data, h2, rfl, rfl⟩)

/-- Every per-channel command that decodes to an instruction (R62). -/
theorem decodeField_eq_instr {c : Channel} {code : BitVec 5} {cmd : Command} {i : Instr}
    (h : decodeField c code cmd = .instr i) :
    ∃ (k : FieldKind) (v : Word), k.validOn c = true ∧ code = k.code ∧ cmd = .w cmd.fid v ∧ i = k.instr c v := by
  unfold decodeField at h
  split at h
  · cases h
  · rename_i k hk
    split_ifs at h with hv
    cases cmd with
    | w fid v =>
      cases h
      exact ⟨k, v, hv, (ofCode_eq_some hk).symm, rfl, rfl⟩
    | t fid data => cases h

/-- Every command that decodes to an instruction is one of these four (R62, R63, R64). -/
theorem decode_eq_instr {cmd : Command} {i : Instr} (h : decode cmd = .instr i) :
    (∃ k c v, k.validOn c = true ∧ cmd = fieldCommand k c v ∧ i = k.instr c v) ∨
    (∃ t data, cmd = .t (fidOf 0 (BitVec.ofNat 5 t.val)) data ∧ i = .wavup t data) ∨
    (∃ data, cmd = .t (fidOf 0 modupCode) data ∧ i = .modup data) ∨
    (∃ n, cmd = .w (fidOf 0 advanceCode) n ∧ i = .advance n) := by
  have hfid := fidOf_selector_code cmd.fid
  unfold decode at h
  by_cases h0 : fidSelector cmd.fid = 0
  · rw [if_pos h0] at h
    rw [h0] at hfid
    rcases decodeGlobal_eq_instr h with ⟨t, data, hc, hcmd, rfl⟩ | ⟨data, hc, hcmd, rfl⟩ | ⟨n, hc, hcmd, rfl⟩ <;>
      rw [hc] at hfid <;> rw [← hfid] at hcmd
    · exact .inr (.inl ⟨t, data, hcmd, rfl⟩)
    · exact .inr (.inr (.inl ⟨data, hcmd, rfl⟩))
    · exact .inr (.inr (.inr ⟨n, hcmd, rfl⟩))
  · rw [if_neg h0] at h
    split at h
    · cases h
    · rename_i c hc
      obtain ⟨k, v, hv, hcode, hcmd, rfl⟩ := decodeField_eq_instr h
      rw [hcode, ← ofSelector_eq_some hc] at hfid
      rw [← hfid] at hcmd
      exact .inl ⟨k, c, v, hv, hcmd, rfl⟩

end Sys2Proof
end

