-- ==== Sys2Proof/Laws/PerInstr.lean ====
section
/-! SUPPORT. One lemma per instruction: the row of opcode_table.json that its encoding stands in. -/

namespace Sys2Proof.Laws.EncodedRow

open Sys2Proof

/-- A well-formed instruction's encoding has the format and the fid of a row of the opcode table with its mnemonic. -/
def Statement (i : Instr) : Prop :=
  WellFormed i → ∃ row ∈ opcodeRows,
    row.mnemonic = i.mnemonic ∧ row.format = (encode i).format ∧ row.fid = (encode i).fid

/-- Every field of R62 has a row on each channel its column names. -/
theorem field_row (k : FieldKind) (c : Channel) (h : k.validOn c = true) :
    ⟨.field k, .W, fidOf c.selector k.code⟩ ∈ opcodeRows := by
  revert h
  cases k <;> cases c <;> decide

theorem chen (c : Channel) (b : Bool) : Statement (.chen c b) := fun _ => ⟨_, field_row .chen c rfl, rfl, rfl, rfl⟩

theorem inten (c : Channel) (b : Bool) : Statement (.inten c b) := fun _ => ⟨_, field_row .inten c rfl, rfl, rfl, rfl⟩

theorem intset (c : Channel) (v : BitVec 5) : Statement (.intset c v) := fun _ => ⟨_, field_row .intset c rfl, rfl, rfl, rfl⟩

theorem envrld (c : Channel) (v : BitVec 4) : Statement (.envrld c v) := fun _ => ⟨_, field_row .envrld c rfl, rfl, rfl, rfl⟩

theorem envdir (c : Channel) (b : Bool) : Statement (.envdir c b) := fun _ => ⟨_, field_row .envdir c rfl, rfl, rfl, rfl⟩

theorem envstp (c : Channel) (v : BitVec 5) : Statement (.envstp c v) := fun _ => ⟨_, field_row .envstp c rfl, rfl, rfl, rfl⟩

theorem envrpt (c : Channel) (b : Bool) : Statement (.envrpt c b) := fun _ => ⟨_, field_row .envrpt c rfl, rfl, rfl, rfl⟩

theorem enven (c : Channel) (b : Bool) : Statement (.enven c b) := fun _ => ⟨_, field_row .enven c rfl, rfl, rfl, rfl⟩

theorem freq (c : Channel) (v : Word) : Statement (.freq c v) := fun _ => ⟨_, field_row .freq c rfl, rfl, rfl, rfl⟩

theorem voll (c : Channel) (v : BitVec 4) : Statement (.voll c v) := fun _ => ⟨_, field_row .voll c rfl, rfl, rfl, rfl⟩

theorem volr (c : Channel) (v : BitVec 4) : Statement (.volr c v) := fun _ => ⟨_, field_row .volr c rfl, rfl, rfl, rfl⟩

theorem wavsel (c : Channel) (v : BitVec 3) : Statement (.wavsel c v) :=
  fun h => ⟨_, field_row .wavsel c h, rfl, rfl, rfl⟩

theorem tap (v : BitVec 3) : Statement (.tap v) := fun _ => ⟨_, field_row .tap .ch6 rfl, rfl, rfl, rfl⟩

theorem swdir (b : Bool) : Statement (.swdir b) := fun _ => ⟨_, field_row .swdir .ch5 rfl, rfl, rfl, rfl⟩

theorem swen (b : Bool) : Statement (.swen b) := fun _ => ⟨_, field_row .swen .ch5 rfl, rfl, rfl, rfl⟩

theorem swfunc (b : Bool) : Statement (.swfunc b) := fun _ => ⟨_, field_row .swfunc .ch5 rfl, rfl, rfl, rfl⟩

theorem swint (v : BitVec 3) : Statement (.swint v) := fun _ => ⟨_, field_row .swint .ch5 rfl, rfl, rfl, rfl⟩

theorem swshift (v : BitVec 3) : Statement (.swshift v) := fun _ => ⟨_, field_row .swshift .ch5 rfl, rfl, rfl, rfl⟩

theorem swbase (b : Bool) : Statement (.swbase b) := fun _ => ⟨_, field_row .swbase .ch5 rfl, rfl, rfl, rfl⟩

theorem modfreq (v : BitVec 16) : Statement (.modfreq v) := fun _ => ⟨_, field_row .modfreq .ch5 rfl, rfl, rfl, rfl⟩

theorem modrpt (b : Bool) : Statement (.modrpt b) := fun _ => ⟨_, field_row .modrpt .ch5 rfl, rfl, rfl, rfl⟩

/-- Every upload of a wavetable has a row. -/
theorem wavup_row (t : Fin 5) : ⟨.wavup, .T, fidOf 0 (BitVec.ofNat 5 t.val)⟩ ∈ opcodeRows := by
  revert t; decide

theorem wavup (t : Fin 5) (data : Payload) : Statement (.wavup t data) :=
  fun _ => ⟨_, wavup_row t, rfl, rfl, rfl⟩

theorem modup (data : Payload) : Statement (.modup data) := fun _ => ⟨⟨.modup, .T, fidOf 0 modupCode⟩, by decide, rfl, rfl, rfl⟩

theorem advance (n : Word) : Statement (.advance n) := fun _ => ⟨⟨.advance, .W, fidOf 0 advanceCode⟩, by decide, rfl, rfl, rfl⟩

end Sys2Proof.Laws.EncodedRow
end

