-- ==== Sys2Proof/Tests/Slice0.lean ====
section
/-! SUPPORT. Tests with expected results from the spec's tables and examples, and a witness for every hypothesis of the
statements. Periods 160 and 640 are the example values of 95_test_vectors.md. -/

namespace Sys2Proof.Tests

open Sys2Proof Sys2Proof.Machine

/-- An instance right after construction with the example periods. -/
def fresh : State := State.construct (Params.withPeriods 160 640)

/-- A fresh instance with its block changed. -/
def setUp (f : Block → Block) : State := fresh.onBlock f

/-- A fresh instance with one channel's registers changed. -/
def withChan (c : Channel) (f : ChanRegs → ChanRegs) : State := setUp fun b => b.modChan c f

/-- A fresh instance with channel 5's unit changed. -/
def withSweep (f : SweepRegs → SweepRegs) : State := setUp fun b => b.modSweep f

/-- A property of the next state; false of any other outcome. -/
def gives (o : Host.Outcome State Fault Refusal) (p : State → Bool) : Bool :=
  match o with
  | .next t => p t
  | .fault _ => false
  | .refused _ => false

/-- The payload 1, 2, ..., 32 of the example in R94. -/
def ramp : Payload := ⟨(List.range 32).map fun i => BitVec.ofNat 8 (i + 1), by simp⟩

/-! ## Well-formedness (R62, R66) -/

theorem test_wavsel_on_channel_6_is_ill_formed : ¬ WellFormed (.wavsel .ch6 0) := by decide
theorem test_wavsel_on_channel_5_is_well_formed : WellFormed (.wavsel .ch5 7) := by decide
theorem test_advance_is_well_formed : WellFormed (.advance 0xFFFFFFFF) := by decide

/-! ## Decoding: words written out from the encodings of 40_field_writes.md, 41_table_uploads.md and 42_advance_and_clock.md -/

theorem test_decode_chen : decode (.w 0x20 0x00000001) = .instr (.chen .ch1 true) := by decide
theorem test_decode_inten : decode (.w 0x41 0x00000000) = .instr (.inten .ch2 false) := by decide
theorem test_decode_intset : decode (.w 0x22 0x00000021) = .instr (.intset .ch1 1) := by decide
theorem test_decode_envrld : decode (.w 0x23 0x0000001F) = .instr (.envrld .ch1 15) := by decide
theorem test_decode_envdir : decode (.w 0x64 0x00000001) = .instr (.envdir .ch3 true) := by decide
theorem test_decode_envstp : decode (.w 0x25 0x00000025) = .instr (.envstp .ch1 5) := by decide
theorem test_decode_envrpt : decode (.w 0x26 0x00000001) = .instr (.envrpt .ch1 true) := by decide
theorem test_decode_enven : decode (.w 0x27 0x00000001) = .instr (.enven .ch1 true) := by decide
theorem test_decode_freq : decode (.w 0x28 0xFFFFFFFF) = .instr (.freq .ch1 0xFFFFFFFF) := by decide
theorem test_decode_voll : decode (.w 0x29 0x00000010) = .instr (.voll .ch1 0) := by decide
theorem test_decode_volr : decode (.w 0xCA 0x00000008) = .instr (.volr .ch6 8) := by decide
theorem test_decode_wavsel : decode (.w 0x4B 0x00000005) = .instr (.wavsel .ch2 5) := by decide
theorem test_decode_tap : decode (.w 0xCC 0x00000009) = .instr (.tap 1) := by decide
theorem test_decode_swdir : decode (.w 0xB0 0x00000001) = .instr (.swdir true) := by decide
theorem test_decode_swen : decode (.w 0xB1 0x00000001) = .instr (.swen true) := by decide
theorem test_decode_swfunc : decode (.w 0xB2 0x00000001) = .instr (.swfunc true) := by decide
theorem test_decode_swint : decode (.w 0xB3 0x00000008) = .instr (.swint 0) := by decide
theorem test_decode_swshift : decode (.w 0xB4 0x0000000F) = .instr (.swshift 7) := by decide
theorem test_decode_swbase : decode (.w 0xB5 0x00000001) = .instr (.swbase true) := by decide
theorem test_decode_modfreq : decode (.w 0xB6 0x00012345) = .instr (.modfreq 0x2345) := by decide
theorem test_decode_modrpt : decode (.w 0xB7 0x00000001) = .instr (.modrpt true) := by decide
theorem test_decode_wavup : decode (.t 0x04 ramp) = .instr (.wavup 4 ramp) := by decide
theorem test_decode_modup : decode (.t 0x05 ramp) = .instr (.modup ramp) := by decide
theorem test_decode_advance : decode (.w 0x1F 0x00000004) = .instr (.advance 4) := by decide

/-- The NOP rows of 95_test_vectors.md 2.1. -/
theorem test_decode_reserved :
    [0x36, 0xCB, 0x2C, 0x2D, 0x38, 0xE0, 0xFF, 0x00].map (fun fid => decode (.w fid 1)) =
      [.nop .fieldAbsent, .nop .fieldAbsent, .nop .fieldAbsent, .nop .reservedCode, .nop .reservedCode,
        .nop .reservedChannel, .nop .reservedChannel, .nop .formatMismatch] := by decide

theorem test_decode_wrong_format :
    [0x1F, 0x06, 0x20].map (fun fid => decode (.t fid ramp)) =
      [.nop .formatMismatch, .nop .reservedGlobalCode, .nop .formatMismatch] := by decide

/-- The table's numbering: the fid is the low byte, the value above it. -/
theorem test_table_word_of_chen : decodeTableWord 40 0x0120 = some (.chen .ch1 true) := by decide

theorem test_table_word_of_wavup : decodeTableWord 8 0x04 = some (.wavup 4 (Payload.fill 0)) := by decide

theorem test_fetch_word_runs_first :
    gives (step (fresh.withFetchWord 40 0x0120)) (fun t => (t.chan .ch1).outEn && t.input.isEmpty) = true := by decide

/-- The 87 rows and the listing form of `FREQ 1, 1928` (R58, R67). -/
theorem test_opcode_rows : opcodeRows.length = 87 ∧ listingNumber 0x28 1928 = 0x2800000788 := by decide

/-- R68, R69: the assembler refuses a channel that lacks the field. -/
theorem test_assembler_refuses : (AsmLine.field .tap .ch1 0).assemble = none := by decide

theorem test_assembler_nop : Pseudo.nop.expand.map AsmLine.assemble = [some (.w 0xFF 0)] := by decide

/-! ## One instruction each: the examples of 40_field_writes.md and 95_test_vectors.md 2.2 -/

/-- A channel with every counter moved. -/
def running : State :=
  setUp fun b => ((b.mapChans fun r => { r with envCnt := 5, phCnt := 240, intCnt := 3, envReload := 9, envLevel := 11 }).modWave
    .ch1 fun r => { r with phase := 7 }).modNoise fun n => { n with lfsr := 0x7FF8, noiseOut := 63 }

theorem test_chen_restarts_wave_channel :
    gives (exec (.chen .ch1 true) running) (fun t => (t.chan .ch1).outEn && (t.chan .ch1).envCnt == 0 &&
      (t.chan .ch1).phCnt == 0 && (t.waveRegs .ch1).phase == 0 && (t.chan .ch1).intCnt == 3 && (t.chan .ch1).envLevel == 11) =
      true := by decide

theorem test_chen_reseeds_noise :
    gives (exec (.chen .ch6 true) running)
      (fun t => t.block.noise.lfsr == 0x7FFF && t.block.noise.noiseOut == 63 && (t.chan .ch6).phCnt == 0) = true := by decide

theorem test_inten_off_makes_audible :
    gives (exec (.inten .ch1 false) running) (fun t => (t.chan .ch1).outEn && !(t.chan .ch1).intEn && (t.chan .ch1).intCnt == 3) =
      true := by decide

theorem test_intset_keeps_counter :
    gives (exec (.intset .ch1 1) running) (fun t => (t.chan .ch1).intSet == 1 && (t.chan .ch1).intCnt == 3) = true := by decide

theorem test_envrld_forces_level :
    gives (exec (.envrld .ch1 15) running) (fun t => (t.chan .ch1).envReload == 15 && (t.chan .ch1).envLevel == 15) = true := by
  decide

theorem test_enven_reloads_and_keeps_count :
    gives (exec (.enven .ch1 true) running) (fun t => (t.chan .ch1).envEn && (t.chan .ch1).envLevel == 9 &&
      (t.chan .ch1).envCnt == 5) = true := by decide

theorem test_freq_is_not_masked :
    gives (exec (.freq .ch5 0xFFFFFFFF) running) (fun t => (t.chan .ch5).freq == 0xFFFFFFFF && t.block.sweep.modFreq == 0) =
      true := by decide

theorem test_voll_is_left : gives (exec (.voll .ch1 0) running) (fun t => (t.chan .ch1).volL == 0 && (t.chan .ch1).volR == 15) =
    true := by decide

theorem test_volr_is_right : gives (exec (.volr .ch6 8) running) (fun t => (t.chan .ch6).volR == 8 && (t.chan .ch6).volL == 15) =
    true := by decide

theorem test_wavsel_keeps_phase :
    gives (exec (.wavsel .ch1 5) running) (fun t => (t.waveRegs .ch1).wave == 5 && (t.waveRegs .ch1).phase == 7) = true := by decide

theorem test_tap_keeps_register :
    gives (exec (.tap 1) running) (fun t => t.block.noise.tap == 1 && t.block.noise.lfsr == 0x7FF8) = true := by decide

theorem test_modfreq_loads_both :
    gives (exec (.modfreq 1000) fresh) (fun t => t.block.sweep.modFreq == 1000 && t.block.sweep.nextModFreq == 1000) = true := by
  decide

theorem test_modfreq_target_next :
    gives (exec (.modfreq 1000) { fresh with cfg := { fresh.cfg with modfreqTarget := .next } })
      (fun t => t.block.sweep.modFreq == 0 && t.block.sweep.nextModFreq == 1000) = true := by decide

/-- `WAVUP 0, 1, 2, ..., 32` stores `WAVE[0][i] = i` (R94). -/
theorem test_wavup_ramp :
    gives (exec (.wavup 0 ramp) fresh) (fun t => (List.range 32).all fun i => (t.block.readWave i).toNat == i) = true := by decide

/-- `MODUP 2, 0, ..., 0` stores 1 and then zeros (R95). -/
theorem test_modup_first_entry :
    gives (exec (.modup ⟨2 :: List.replicate 31 0, rfl⟩) fresh)
      (fun t => t.block.readModt 0 == 1 && (List.range 31).all fun i => t.block.readModt (i + 1) == 0) = true := by decide

/-- The rows of 95_test_vectors.md 2.3. -/
theorem test_wave_conversion :
    [0, 1, 2, 32, 63, 64, 65, 128, 255].map (fun d => (waveConv d).toNat) = [0, 0, 1, 31, 62, 63, 0, 63, 62] := by decide

theorem test_modulation_conversion :
    [0x00, 0x01, 0x02, 0x65, 0x7F, 0x80, 0x81, 0x9D, 0xFF].map (modConvInt true) = [0, 0, 1, 100, 126, 127, -128, -100, -2] ∧
    [0x00, 0x01, 0x02, 0x65, 0x7F, 0x80, 0x81, 0x9D, 0xFF].map (modConvInt false) = [0, 1, 2, 101, 127, -128, -127, -99, -1] := by
  decide

theorem test_advance_none : gives (exec (.advance 0) fresh) (fun t => t == fresh.emit ⟨[], []⟩) = true := by decide

/-- S9 of 95_test_vectors.md, one cycle: a zero table is silent at full gain. -/
theorem test_advance_zero_table :
    gives (exec (.advance 1) (withChan .ch1 fun r => { r with outEn := true, envLevel := 15 }))
      (fun t => t.output == [⟨[⟨0, .b64 0⟩], [⟨0, .b64 0⟩]⟩] && (t.chan .ch1).phCnt == 120 && (t.chan .ch6).phCnt == 12) = true := by
  decide

/-! ## The parts of a cycle -/

/-- The rows of 95_test_vectors.md 2.4. -/
theorem test_step_periods :
    [0, 7, 8, 127, 128, 1000, 1927, 1928, 2047, 2048, 0xFFFFFFFF].map (stepPeriod 120) = [18, 18, 17, 17, 16, 9, 2, 1, 1, 1, 1] ∧
    [0, 7, 8, 127, 128, 1000, 1927, 1928, 2047, 2048, 0xFFFFFFFF].map (stepPeriod 12) =
      [171, 171, 170, 161, 160, 88, 11, 10, 1, 1, 1] := by decide

/-- The third row of 95_test_vectors.md 2.5: down from 3 with step 2. -/
theorem test_envelope_down :
    [1, 2, 3, 4, 5, 6, 7, 8, 9, 10].map (fun n => (envelopeTick^[n] { ChanRegs.reset with
      envEn := true, envStep := 2, envReload := 3, envLevel := 3 }).envLevel.toNat) = [3, 3, 2, 2, 2, 1, 1, 1, 0, 0] := by decide

/-- 95_test_vectors.md 2.6 with `intSet` 0: the first tick silences. -/
theorem test_interval_zero :
    (intervalTick { ChanRegs.reset with outEn := true, intEn := true }).outEn = false := by decide

/-- The first row of R141, tap 0: the new states of the first ten steps. -/
theorem test_noise_sequence :
    [1, 2, 3, 4, 5, 6, 7, 8, 9, 10].map (fun n => (NoiseRegs.lfsrStep^[n] { tap := 0, lfsr := 0x7FFF, noiseOut := 0 }).lfsr) =
      [0x7FFE, 0x7FFC, 0x7FF8, 0x7FF0, 0x7FE0, 0x7FC0, 0x7F80, 0x7F00, 0x7E01, 0x7C03] := by decide

/-- R130 and R131: a sum above 65535 wraps, and a negative modulation sum is masked. -/
theorem test_candidates : sweepCand 64000 0 true = 62464 ∧ modCand 0 (-5) = 2043 := by decide

/-- Row 7 of the table of R143, and the largest gain. -/
theorem test_gain : ([0, 1, 2, 3, 4, 5, 6, 7, 8, 9, 10, 11, 12, 13, 14, 15].map (gain 7)) =
    [0, 1, 2, 3, 4, 5, 6, 7, 8, 8, 9, 10, 11, 12, 13, 14] ∧ gain 15 15 = 29 := by decide

/-- R148: `Out(10944)` is one half. -/
theorem test_output_half : (outSample .binary64 10944).value = .b64 0x3FE0000000000000 ∧
    (outSample .binary32 10944).value = .b32 0x3F000000 := by decide

/-! ## Witnesses: for each statement with hypotheses, a state and operands that meet them, at a boundary where there is one -/

theorem test_meets_DecodeOfEncode : WellFormed (.wavsel .ch5 7) := by decide

theorem test_meets_DecodeMatchesOpcodeTable :
    decode (.w 0xB6 0xFFFFFFFF) = .instr (.modfreq 0xFFFF) ∧
    (⟨.wavup, .T, 0x04⟩ : OpcodeRow) ∈ opcodeRows ∧ (Command.t 0x04 ramp).format = .T ∧ (Command.t 0x04 ramp).fid = 0x04 := by
  decide

theorem test_meets_DecodedInstructionsReencode : decode (.w 0xAB 0xFF) = .instr (.wavsel .ch5 7) := by decide

theorem test_meets_AssemblerLinesDecode :
    AsmLine.field .enven .ch1 1 ∈ (Pseudo.env .ch1 15 0 2 1).expand ∧
    ((FieldKind.tap = .wavsel → Channel.ch6 ≠ .ch6) ∧ (FieldKind.tap = .tap → Channel.ch6 = .ch6) ∧
      (FieldKind.tap ∈ [.swdir, .swen, .swfunc, .swint, .swshift, .swbase, .modfreq, .modrpt] → Channel.ch6 = .ch5)) ∧
    (AsmLine.field .tap .ch6 3).assemble = some (.w 0xCC 3) ∧
    ¬ (FieldKind.modrpt ∈ [.swdir, .swen, .swfunc, .swint, .swshift, .swbase, .modfreq, .modrpt] → Channel.ch4 = .ch5) ∧
    (AsmLine.field .modrpt .ch4 1).assemble = none := by decide

/-- R69: `WAVEFILL 4, 64` and `DURATION 2, 33` as instructions. -/
theorem test_assembler_expansions :
    (Pseudo.wavefill 4 64).expand.map AsmLine.assemble = [some (.t 0x04 ⟨List.replicate 32 64, rfl⟩)] ∧
    (Pseudo.duration .ch2 33).expand.map (fun l => l.assemble.map decode) =
      [some (.instr (.intset .ch2 1)), some (.instr (.inten .ch2 true))] := by decide

theorem test_meets_StepRunsOldestCommand :
    ({ fresh with input := [.w 0x20 1, .w 0xFF 0] } : State).input = .w 0x20 1 :: [.w 0xFF 0] ∧
    decode (.w 0x20 1) = .instr (.chen .ch1 true) ∧ decode (.w 0xFF 0) = .nop .reservedChannel ∧ fresh.input = [] := by decide

/-- A fresh instance with both tables written. -/
def loaded : State := setUp fun b => (b.writeWave 63 [5, 6]).writeModt 31 [7]

theorem test_meets_WavupStoresConvertedBytes :
    loaded.block.wave.wf ∧ 31 < ramp.bytes.length ∧ 31 < waveAddress 1 0 ∧ waveAddress 1 32 ≤ 64 ∧
    loaded.block.readWave 63 = 5 ∧ loaded.block.readWave 64 = 6 := by decide

theorem test_meets_ModupStoresConvertedBytes :
    loaded.block.modt.wf ∧ 31 < ramp.bytes.length ∧ 32 ≤ 32 ∧ loaded.block.readModt 31 = 7 := by decide

theorem test_meets_AdvanceRunsAllCycles : 1 < (2 : Word).toNat := by decide

theorem test_meets_AdvanceComposes : (0xFFFFFFFF : Word).toNat + (0 : Word).toNat < 2 ^ 32 := by decide

/-- The dividers just below their periods. -/
def late : State := setUp fun b => ((b.setIntDiv 159).setEnvDiv 639).setSwDiv 39

theorem test_meets_DividersCountModuloPeriod :
    late.block.intDiv < late.cfg.intervalPeriod ∧ late.block.envDiv < late.cfg.envelopePeriod ∧
    late.block.swDiv < (if late.block.sweep.swLong then 320 else 40) ∧ 39 ≤ late.block.swDiv ∧
    late.cfg.sweepIntervalMode = .gate := by decide

/-- R106: a count of 319 left under the long period fires in the cycle after SWBASE 0, and one of 38 counts on. -/
theorem test_swbase_short_fires_next_cycle :
    let s := setUp fun b => (b.setSwDiv 318).modSweep fun w => { w with swLong := true, nextModFreq := 7 }
    gives (exec (.advance 1) s) (fun t => t.block.swDiv == 319 && t.block.sweep.modFreq == 0) = true ∧
    gives (execAll [.advance 1, .swbase false, .advance 1] s) (fun t => t.block.swDiv == 0 && t.block.sweep.modFreq == 7) =
      true := by decide

/-- Every envelope enabled, on channel 1 one count from its step, on channel 2 at it; the dividers about to fire. -/
def lateEnvelopes : State :=
  late.onBlock fun b => (b.mapChans fun r => { r with envEn := true, envStep := 2, envCnt := 1, outEn := true, intEn := true }).modChan
    .ch2 fun r => { r with envCnt := 2, intCnt := 1 }

theorem test_meets_EnvelopeInOneCycle :
    (¬ (fresh.cfg.envelopePeriod ≤ fresh.block.envDiv + 1 ∧ (fresh.chan .ch1).envEn = true)) ∧
    (lateEnvelopes.cfg.envelopePeriod ≤ lateEnvelopes.block.envDiv + 1 ∧ (lateEnvelopes.chan .ch1).envEn = true) ∧
    ¬ (lateEnvelopes.chan .ch1).envStep.toNat < (lateEnvelopes.chan .ch1).envCnt + 1 ∧
    (lateEnvelopes.chan .ch2).envStep.toNat < (lateEnvelopes.chan .ch2).envCnt + 1 := by decide

theorem test_meets_IntervalInOneCycle :
    (lateEnvelopes.cfg.intervalPeriod ≤ lateEnvelopes.block.intDiv + 1 ∧ (lateEnvelopes.chan .ch2).outEn = true ∧
      (lateEnvelopes.chan .ch2).intEn = true) ∧
    ¬ (fresh.cfg.intervalPeriod ≤ fresh.block.intDiv + 1 ∧ (fresh.chan .ch2).outEn = true ∧ (fresh.chan .ch2).intEn = true) := by
  decide

/-- Channel 5's buffer at the overflow bound with its divider about to fire. -/
def overflowing : State :=
  late.onBlock fun b => (b.modSweep fun w => { w with nextModFreq := 2048 }).modChan .ch5 fun r => { r with outEn := true }

/-- R127: 2048 itself silences. -/
theorem test_overflow_silences :
    gives (exec (.advance 1) overflowing) (fun t => !(t.chan .ch5).outEn && t.block.sweep.modFreq == 2048) = true := by decide

theorem test_meets_AccumulatorsInOneCycle :
    let s := setUp fun b => (b.modChan .ch1 fun r => { r with phCnt := 1920, freq := 8 }).modChan .ch6 fun r => { r with freq := 2036 }
    ((((s.chan .ch1).phCnt + 120 : Nat) : Int) ≥ 2048 - ((s.chan .ch1).freq.toNat : Int)) ∧
    ¬ ((((s.chan .ch2).phCnt + 120 : Nat) : Int) ≥ 2048 - ((s.chan .ch2).freq.toNat : Int)) ∧
    ((((s.chan .ch6).phCnt + 12 : Nat) : Int) ≥ 2048 - ((s.chan .ch6).freq.toNat : Int)) ∧
    ¬ ((((fresh.chan .ch6).phCnt + 12 : Nat) : Int) ≥ 2048 - ((fresh.chan .ch6).freq.toNat : Int)) := by decide

theorem test_meets_EnvelopeRampShapes :
    let r : ChanRegs := { ChanRegs.reset with envEn := true, envReload := 15, envLevel := 15, envRepeat := true }
    r.envEn = true ∧ r.envCnt = 0 ∧ r.envLevel = r.envReload := by decide

theorem test_meets_AdvanceTicksEnvelopes : late.block.envDiv < late.cfg.envelopePeriod := by decide

theorem test_meets_DisabledEnvelopeIsFrozen : (running.chan .ch1).envEn = false := by decide

theorem test_meets_DurationAfterInten :
    fresh.block.intDiv < fresh.cfg.intervalPeriod ∧
    gives (execAll [.inten .ch1 true, .advance 0] fresh) (fun t => (t.chan .ch1).outEn) = true ∧
    Channel.ch1 ≠ .ch5 ∧
    fresh.block.intDiv + (159 : Word).toNat < ((fresh.chan .ch1).intSet.toNat + 1) * fresh.cfg.intervalPeriod ∧
    ¬ fresh.block.intDiv + (160 : Word).toNat < ((fresh.chan .ch1).intSet.toNat + 1) * fresh.cfg.intervalPeriod := by decide

theorem test_meets_SilentChannelStaysSilent : (running.chan .ch1).outEn = false ∧ (running.chan .ch1).intCnt = 3 := by decide

theorem test_meets_WavePhaseStepsEveryPeriod :
    WaveChannel.ch4 ≠ .ch5 ∧ ((withChan .ch4 fun r => { r with freq := 0xFFFFFFFF }).chan WaveChannel.ch4.channel).phCnt = 0 := by
  decide

theorem test_meets_EighteenWavePeriods :
    (1 ≤ 18 ∧ 18 ≤ 18 ∧ 7 ≤ 2047 ∧ stepPeriod 120 7 = 18) ∧ (1928 ≤ 2047 ∧ stepPeriod 120 1928 = 1) ∧ 2048 ≤ 2048 := by decide

theorem test_meets_NoiseStepsEveryPeriod : (fresh.chan .ch6).phCnt = 0 := by decide

theorem test_meets_LfsrStepBits : 14 < 15 := by decide

theorem test_meets_LfsrZeroIsFixed :
    (setUp fun b => b.modNoise fun n => { n with lfsr := 0, tap := 7 }).block.noise.lfsr = 0 ∧
    fresh.block.noise.lfsr = 0x7FFF := by decide

theorem test_meets_LfsrTapZeroNeverDies :
    let s := setUp fun b => b.modNoise fun n => { n with lfsr := 0x4000 }
    s.block.noise.tap = 0 ∧ s.block.noise.lfsr ≠ 0 := by decide

/-- Channel 5 audible, its unit on at the frequency just below the overflow bound. -/
def sweeping : State :=
  setUp fun b => (b.modSweep fun w => { w with swEn := true, swInt := 1, nextModFreq := 2047, swUp := true }).modChan .ch5
    fun r => { r with outEn := true }

/-- The same in modulation. -/
def modulating : State := sweeping.onBlock fun b => b.modSweep fun w => { w with swMod := true, modPhase := 31 }

/-- The same with the unit's divider about to fire. -/
def firing (s : State) : State := s.onBlock fun b => b.setSwDiv 39

/-- In mode divide with an interval of 2. -/
def dividing (s : State) : State :=
  { s with cfg := { s.cfg with sweepIntervalMode := .divide } }.onBlock fun b => b.modSweep fun w => { w with swInt := 2 }

/-- The duration of channel 5 about to run out with its divider. -/
def expiring (s : State) : State := s.onBlock fun b => (b.setIntDiv 159).modChan .ch5 fun r => { r with intEn := true }

/-- Each case of the statement at a state: not firing; firing short of the interval; reaching it; computing in sweep and in
modulation; and stopped by the duration alone. -/
theorem test_meets_ModFreqComesFromBuffer :
    ¬ 40 ≤ sweeping.block.swDiv + 1 ∧
    (40 ≤ (firing (dividing sweeping)).block.swDiv + 1 ∧
      (dividing sweeping).cfg.sweepIntervalMode = .divide ∧
      ¬ max 1 (dividing sweeping).block.sweep.swInt.toNat ≤ (dividing sweeping).block.sweep.swCnt + 1) ∧
    (40 ≤ (firing sweeping).block.swDiv + 1 ∧ (firing sweeping).cfg.sweepIntervalMode ≠ .divide ∧
      (firing sweeping).block.sweep.swEn = true ∧ (firing sweeping).block.sweep.swInt.toNat ≠ 0 ∧
      (firing sweeping).block.sweep.nextModFreq.toNat < 2048 ∧ ((firing sweeping).chan .ch5).outEn = true ∧
      ((firing sweeping).chan .ch5).intEn = false ∧ (firing sweeping).block.sweep.swMod = false ∧
      (firing modulating).block.sweep.swMod = true) ∧
    (fresh.cfg.intervalPeriod ≤ (expiring sweeping).block.intDiv + 1 ∧ ((expiring sweeping).chan .ch5).intEn = true ∧
      ((expiring sweeping).chan .ch5).intSet.toNat < ((expiring sweeping).chan .ch5).intCnt + 1) := by decide

/-- R126, R128, R129: 2047 is applied and 4094 computed; the duration running out in the same cycle stops the computation
(R100), and channel 5 is silent. -/
theorem test_duration_stops_sweep :
    gives (exec (.advance 1) (firing sweeping)) (fun t => t.block.sweep.modFreq == 2047 && t.block.sweep.nextModFreq == 4094) =
      true ∧
    gives (exec (.advance 1) (expiring (firing sweeping)))
      (fun t => t.block.sweep.modFreq == 2047 && t.block.sweep.nextModFreq == 2047 && !(t.chan .ch5).outEn) = true := by decide

/-- R125: in mode divide with interval 2 the first firing only counts, and the second applies. -/
theorem test_divide_counts :
    gives (exec (.advance 1) (firing (dividing sweeping)))
      (fun t => t.block.sweep.swCnt == 1 && t.block.sweep.modFreq == 0 && t.block.sweep.nextModFreq == 2047) = true ∧
    gives (exec (.advance 1) ((firing (dividing sweeping)).onBlock fun b => b.modSweep fun w => { w with swCnt := 1 }))
      (fun t => t.block.sweep.swCnt == 0 && t.block.sweep.modFreq == 2047 && t.block.sweep.nextModFreq == 4094) = true := by
  decide

theorem test_meets_ModulationCandidate : modulating.block.sweep.swMod = true := by decide

theorem test_meets_ModulationIndexAdvances :
    (modulating.block.sweepApply.sweepComputes .outputEnabled = true ∧ modulating.block.sweep.swMod = true) ∧
    ¬ (sweeping.block.sweepApply.sweepComputes .outputEnabled = true ∧ sweeping.block.sweep.swMod = true) := by decide

theorem test_meets_SecondaryTick :
    (sweeping.block.sweep.swEn = true ∧
      ((sweeping.block.chan .ch5).outEn && decide (sweeping.block.sweep.nextModFreq.toNat < 2048)) = true ∧
      sweeping.block.sweep.swInt.toNat ≠ 0 ∧ sweeping.block.sweep.swMod = false) ∧
    (modulating.block.sweep.swEn = true ∧
      ((modulating.block.chan .ch5).outEn && decide (modulating.block.sweep.nextModFreq.toNat < 2048)) = true ∧
      modulating.block.sweep.swInt.toNat ≠ 0 ∧ modulating.block.sweep.swMod = true) ∧
    ¬ fresh.block.sweep.swEn = true := by decide

theorem test_meets_ModFreqSticksWhileUnitOff :
    let s := withSweep fun w => { w with modFreq := 0xFFFF, nextModFreq := 0xFFFF }
    s.block.sweep.swEn = false ∧ s.block.sweep.modFreq = s.block.sweep.nextModFreq := by decide

theorem test_meets_OverflowSilencesChannelFive :
    overflowing.cfg.sweepIntervalMode = .gate ∧ overflowing.block.sweep.swEn = false ∧
    overflowing.block.swDiv < (if overflowing.block.sweep.swLong then 320 else 40) ∧
    2048 ≤ overflowing.block.sweep.nextModFreq.toNat ∧
    (if overflowing.block.sweep.swLong then 320 else 40) ≤ overflowing.block.swDiv + (1 : Word).toNat ∧
    (overflowing.chan .ch5).intEn = false ∧
    overflowing.block.swDiv + (0 : Word).toNat < (if overflowing.block.sweep.swLong then 320 else 40) := by decide

theorem test_meets_GatedSweepNeverWraps :
    sweeping.block.sweepApply.sweepComputes .outputEnabled = true ∧ sweeping.block.sweep.swMod = false := by decide

/-- A fresh instance whose channel 1 selects table 4 and whose channel 2 selects none. -/
def selecting : State :=
  setUp fun b => (b.modWave .ch1 fun r => { r with wave := 4, phase := 31 }).modWave .ch2 fun r => { r with wave := 5 }

theorem test_meets_WaveSampleReadsSelectedTable :
    selecting.Inv ∧ (selecting.waveRegs .ch1).wave.toNat ≤ 4 ∧ 4 < (selecting.waveRegs .ch2).wave.toNat := by
  refine ⟨⟨by decide, ?_, fun _ h => absurd h List.not_mem_nil⟩, by decide, by decide⟩
  refine ⟨by decide, by decide, by decide, by decide, fun c => ?_, fun c => ?_, by decide, by decide, by decide, by decide,
    by decide⟩ <;> cases c <;> decide

theorem test_meets_MixRanges : fresh.Inv := by
  refine ⟨by decide, ?_, fun _ h => absurd h List.not_mem_nil⟩
  refine ⟨by decide, by decide, by decide, by decide, fun c => ?_, fun c => ?_, by decide, by decide, by decide, by decide,
    by decide⟩ <;> cases c <;> decide

/-- R144: channel 6 alone at noise output 63, level 15, left 15 and right 0: (63 * 29) >> 1 = 913, and 913 quantises to
3648. -/
theorem test_mix_of_noise :
    (setUp fun b => (b.modChan .ch6 fun r => { r with outEn := true, envLevel := 15, volR := 0 }).modNoise
      fun n => { n with noiseOut := 63 }).block.mix = ⟨3648, 0⟩ := by decide

theorem test_meets_GainFormulaAndBounds :
    (sweeping.block.chan .ch5).outEn = true ∧ (fresh.block.chan .ch6).outEn = false ∧
    (ChanRegs.volL ((withChan .ch1 fun r => { r with volL := 0 }).block.chan .ch1)).toNat = 0 ∧
    (fresh.block.chan .ch1).envLevel.toNat = 0 := by decide

theorem test_meets_SilentBlockPlaysZero : ∀ c, (running.chan c).outEn = false := fun c => by cases c <;> decide

theorem test_meets_OutputIsCorrectlyRounded : 0 < 1 ∧ 1 < 2 ^ 18 ∧ 0 < 2 ^ 18 - 1 ∧ 2 ^ 18 - 1 < 2 ^ 18 := by decide

theorem test_meets_EqualOutputsHaveEqualQ :
    684 ≤ 684 ∧ (outSample .binary32 (32 * 684)).value = (outSample .binary32 (32 * 684)).value := by decide

theorem test_meets_StepKeepsInvariant : fresh.Inv ∧ step fresh = .next fresh := ⟨test_meets_MixRanges, rfl⟩

theorem test_meets_ParametersNeverChange : step fresh = .next fresh := rfl

theorem test_meets_HiddenStateWriters :
    (∀ n, Instr.chen .ch1 true ≠ .advance n) ∧
    gives (exec (.inten .ch1 true) running) (fun t => (t.chan .ch1).intCnt != (running.chan .ch1).intCnt) = true ∧
    gives (exec (.chen .ch1 true) running) (fun t => (t.chan .ch1).envCnt != (running.chan .ch1).envCnt &&
      (t.chan .ch1).phCnt != (running.chan .ch1).phCnt && (t.waveRegs .ch1).phase != (running.waveRegs .ch1).phase) = true ∧
    gives (exec (.chen .ch6 true) running) (fun t => t.block.noise.lfsr != running.block.noise.lfsr) = true ∧
    gives (exec (.modfreq 1000) running) (fun t => t.block.sweep.modFreq != running.block.sweep.modFreq &&
      t.block.sweep.nextModFreq != running.block.sweep.nextModFreq) = true :=
  ⟨fun _ h => (nomatch h), by decide, by decide, by decide, by decide⟩

theorem test_meets_CommandsAreIdempotent :
    (∀ n, Instr.wavup 4 ramp ≠ .advance n) ∧ loaded.block.wave.wf ∧ loaded.block.modt.wf :=
  ⟨fun _ h => (nomatch h), by decide, by decide⟩

theorem test_meets_WriteOrder :
    let l : List Instr := [.modfreq 1, .swen true, .swint 2, .swshift 3, .swdir true, .swfunc true]
    .modfreq 1 ∈ l ∧ .swfunc true ∈ l := by decide

theorem test_meets_StandardChannelIsolation :
    let s' := withChan .ch2 fun r => { r with outEn := true, phCnt := 240 }
    WaveChannel.ch1 ≠ .ch5 ∧ s'.cfg = fresh.cfg ∧ s'.block.intDiv = fresh.block.intDiv ∧ s'.block.envDiv = fresh.block.envDiv ∧
    SameTables fresh.block s'.block ∧ s'.chan WaveChannel.ch1.channel = fresh.chan WaveChannel.ch1.channel ∧
    s'.waveRegs .ch1 = fresh.waveRegs .ch1 ∧ s' ≠ fresh := by
  refine ⟨by decide, by decide, by decide, by decide, ⟨fun _ => rfl, fun _ => rfl⟩, by decide, by decide, by decide⟩

end Sys2Proof.Tests
end

section
/-! The hidden state of R38 under the commands other than ADVANCE: one rule per way a command writes the block, the hidden
state after each command as a function of the command, and O55. -/

namespace Sys2Proof.Machine

/-! ## What CHEN(1) restarts (R71) -/

@[simp] theorem Block.retrigger_intDiv (b : Block) (c : Channel) : (b.retrigger c).intDiv = b.intDiv := by
  unfold Block.retrigger; cases c <;> rfl

@[simp] theorem Block.retrigger_envDiv (b : Block) (c : Channel) : (b.retrigger c).envDiv = b.envDiv := by
  unfold Block.retrigger; cases c <;> rfl

@[simp] theorem Block.retrigger_swDiv (b : Block) (c : Channel) : (b.retrigger c).swDiv = b.swDiv := by
  unfold Block.retrigger; cases c <;> rfl

@[simp] theorem Block.retrigger_sweep (b : Block) (c : Channel) : (b.retrigger c).sweep = b.sweep := by
  unfold Block.retrigger; cases c <;> rfl

@[simp] theorem Block.retrigger_noise (b : Block) (c : Channel) :
    (b.retrigger c).noise = if c = .ch6 then { b.noise with lfsr := 0x7FFF } else b.noise := by
  unfold Block.retrigger; cases c <;> rfl

@[simp] theorem Block.chan_retrigger (b : Block) (c d : Channel) :
    (b.retrigger c).chan d = if d = c then { b.chan d with envCnt := 0, phCnt := 0 } else b.chan d := by
  unfold Block.retrigger; cases c.wave? <;> simp

@[simp] theorem Block.waveRegs_retrigger (b : Block) (c : Channel) (w : WaveChannel) :
    (b.retrigger c).waveRegs w = if w.channel = c then { b.waveRegs w with phase := 0 } else b.waveRegs w := by
  unfold Block.retrigger
  cases h : c.wave? with
  | some v => simp [wave?_eq_some h]
  | none => simp [wave?_eq_none.mp h]

/-! ## Commands that leave the hidden state alone -/

/-- The counters of a channel that R38 lists are as before. -/
structure ChanRegs.SameCounters (r r' : ChanRegs) : Prop where
  intCnt : r'.intCnt = r.intCnt
  envCnt : r'.envCnt = r.envCnt
  phCnt : r'.phCnt = r.phCnt

/-- The sweep/modulation registers that R38 lists are as before. -/
structure SweepRegs.SameHidden (w w' : SweepRegs) : Prop where
  modFreq : w'.modFreq = w.modFreq
  nextModFreq : w'.nextModFreq = w.nextModFreq
  swCnt : w'.swCnt = w.swCnt
  modPhase : w'.modPhase = w.modPhase

/-- Every field that R38 lists is as before. -/
structure Block.SameHidden (b b' : Block) : Prop where
  dividers : SameDividers b b'
  counters : ∀ c, (b.chan c).SameCounters (b'.chan c)
  phase : ∀ w, (b'.waveRegs w).phase = (b.waveRegs w).phase
  sweep : b.sweep.SameHidden b'.sweep
  lfsr : b'.noise.lfsr = b.noise.lfsr
  noiseOut : b'.noise.noiseOut = b.noise.noiseOut

theorem Block.SameHidden.refl (b : Block) : b.SameHidden b :=
  ⟨⟨rfl, rfl, rfl⟩, fun _ => ⟨rfl, rfl, rfl⟩, fun _ => rfl, ⟨rfl, rfl, rfl, rfl⟩, rfl, rfl⟩

theorem Block.modChan_sameHidden (b : Block) (c : Channel) {f : ChanRegs → ChanRegs}
    (hf : ∀ r : ChanRegs, r.SameCounters (f r)) : b.SameHidden (b.modChan c f) := by
  refine ⟨⟨rfl, rfl, rfl⟩, fun d => ?_, fun _ => rfl, ⟨rfl, rfl, rfl, rfl⟩, rfl, rfl⟩
  rw [Block.chan_modChan]
  split_ifs
  · exact hf _
  · exact ⟨rfl, rfl, rfl⟩

theorem Block.modWave_sameHidden (b : Block) (w : WaveChannel) {f : WaveRegs → WaveRegs}
    (hf : ∀ r, (f r).phase = r.phase) : b.SameHidden (b.modWave w f) := by
  refine ⟨⟨rfl, rfl, rfl⟩, fun _ => ⟨rfl, rfl, rfl⟩, fun v => ?_, ⟨rfl, rfl, rfl, rfl⟩, rfl, rfl⟩
  rw [Block.waveRegs_modWave]
  split_ifs
  · exact hf _
  · rfl

theorem Block.modSweep_sameHidden (b : Block) {f : SweepRegs → SweepRegs}
    (hf : ∀ w : SweepRegs, w.SameHidden (f w)) : b.SameHidden (b.modSweep f) :=
  ⟨⟨rfl, rfl, rfl⟩, fun _ => ⟨rfl, rfl, rfl⟩, fun _ => rfl, hf b.sweep, rfl, rfl⟩

/-- The commands that write hidden state: CHEN(1), INTEN(1) and MODFREQ (R38), and ADVANCE. -/
def writesHidden : Instr → Bool
  | .chen _ en => en
  | .inten _ en => en
  | .modfreq _ => true
  | .advance _ => true
  | _ => false

theorem State.onBlock_sameOutside (s : State) (f : Block → Block) : SameOutside s (s.onBlock f) := ⟨rfl, rfl, rfl⟩

/-- A change of the block that keeps the hidden state gives a next state with the same hidden state. -/
theorem onBlock_sameHidden {s : State} {f : Block → Block} (hf : s.block.SameHidden (f s.block)) :
    ∃ t, (.next (s.onBlock f) : Host.Outcome State Fault Refusal) = .next t ∧ SameOutside s t ∧
      s.block.SameHidden t.block :=
  ⟨_, rfl, s.onBlock_sameOutside f, hf⟩

theorem execWavsel_sameHidden (c : Channel) (v : BitVec 3) (s : State) :
    ∃ t, execWavsel c v s = .next t ∧ SameOutside s t ∧ s.block.SameHidden t.block := by
  unfold execWavsel
  cases c.wave? with
  | some w => exact onBlock_sameHidden (Block.modWave_sameHidden _ w fun _ => rfl)
  | none => exact ⟨s, rfl, ⟨rfl, rfl, rfl⟩, .refl _⟩

/-- Every command that R38 does not name, ADVANCE apart, keeps the hidden state. -/
theorem exec_sameHidden {i : Instr} (hi : writesHidden i = false) (s : State) :
    ∃ t, exec i s = .next t ∧ SameOutside s t ∧ s.block.SameHidden t.block := by
  cases i with
  | chen c en => cases hi; exact onBlock_sameHidden (Block.modChan_sameHidden _ c fun _ => ⟨rfl, rfl, rfl⟩)
  | inten c en => cases hi; exact onBlock_sameHidden (Block.modChan_sameHidden _ c fun _ => ⟨rfl, rfl, rfl⟩)
  | intset c _ | envrld c _ | envdir c _ | envstp c _ | envrpt c _ | enven c _ | freq c _ | voll c _ | volr c _ =>
    exact onBlock_sameHidden (Block.modChan_sameHidden _ c fun _ => ⟨rfl, rfl, rfl⟩)
  | wavsel c v => exact execWavsel_sameHidden c v s
  | swdir _ | swen _ | swfunc _ | swint _ | swshift _ | swbase _ | modrpt _ =>
    exact onBlock_sameHidden (Block.modSweep_sameHidden _ fun _ => ⟨rfl, rfl, rfl, rfl⟩)
  | tap _ | wavup _ _ | modup _ =>
    exact onBlock_sameHidden ⟨⟨rfl, rfl, rfl⟩, fun _ => ⟨rfl, rfl, rfl⟩, fun _ => rfl, ⟨rfl, rfl, rfl, rfl⟩, rfl, rfl⟩
  | modfreq _ | advance _ => cases hi

/-! ## The hidden state after a command -/

/-- R38: every hidden field of `t` as a function of the command `i` that led from `s` to `t`. -/
structure HiddenAfter (i : Instr) (s t : State) : Prop where
  outside : SameOutside s t
  dividers : SameDividers s.block t.block
  modPhase : t.block.sweep.modPhase = s.block.sweep.modPhase
  swCnt : t.block.sweep.swCnt = s.block.sweep.swCnt
  noiseOut : t.block.noise.noiseOut = s.block.noise.noiseOut
  intCnt : ∀ c, (t.chan c).intCnt = if i = .inten c true then 0 else (s.chan c).intCnt
  envCnt : ∀ c, (t.chan c).envCnt = if i = .chen c true then 0 else (s.chan c).envCnt
  phCnt : ∀ c, (t.chan c).phCnt = if i = .chen c true then 0 else (s.chan c).phCnt
  phase : ∀ w, (t.waveRegs w).phase = if i = .chen w.channel true then 0 else (s.waveRegs w).phase
  lfsr : t.block.noise.lfsr = if i = .chen .ch6 true then 0x7FFF else s.block.noise.lfsr
  modFreq : t.block.sweep.modFreq = s.block.sweep.modFreq ∨ i = .modfreq t.block.sweep.modFreq
  nextModFreq : t.block.sweep.nextModFreq = s.block.sweep.nextModFreq ∨ i = .modfreq t.block.sweep.nextModFreq
  loaded : ∀ v, i = .modfreq v → t.block.sweep.modFreq = v ∨ t.block.sweep.nextModFreq = v

theorem hiddenAfter_of_sameHidden {i : Instr} {s t : State} (hi : writesHidden i = false) (ho : SameOutside s t)
    (h : s.block.SameHidden t.block) : HiddenAfter i s t where
  outside := ho
  dividers := h.dividers
  modPhase := h.sweep.modPhase
  swCnt := h.sweep.swCnt
  noiseOut := h.noiseOut
  intCnt c := by rw [if_neg (by rintro rfl; cases hi)]; exact (h.counters c).intCnt
  envCnt c := by rw [if_neg (by rintro rfl; cases hi)]; exact (h.counters c).envCnt
  phCnt c := by rw [if_neg (by rintro rfl; cases hi)]; exact (h.counters c).phCnt
  phase w := by rw [if_neg (by rintro rfl; cases hi)]; exact h.phase w
  lfsr := by rw [if_neg (by rintro rfl; cases hi)]; exact h.lfsr
  modFreq := .inl h.sweep.modFreq
  nextModFreq := .inl h.sweep.nextModFreq
  loaded := by rintro v rfl; cases hi

/-- CHEN(1) zeroes `envCnt`, `phCnt` and `phase` of its channel, or reseeds `lfsr` (R71). -/
theorem retrigger_hiddenAfter (c : Channel) (s : State) :
    HiddenAfter (.chen c true) s (s.onBlock fun b => (b.modChan c fun r => r.setOutEn true).retrigger c) where
  outside := s.onBlock_sameOutside _
  dividers := by constructor <;> simp
  modPhase := by simp
  swCnt := by simp
  noiseOut := by by_cases h : c = .ch6 <;> simp [h]
  intCnt d := by by_cases h : d = c <;> simp [h, State.chan, ChanRegs.setOutEn]
  envCnt d := by
    obtain rfl | h := eq_or_ne d c
    · simp [State.chan]
    · simp [h, h.symm, State.chan]
  phCnt d := by
    obtain rfl | h := eq_or_ne d c
    · simp [State.chan]
    · simp [h, h.symm, State.chan]
  phase w := by
    obtain rfl | h := eq_or_ne w.channel c
    · simp [State.waveRegs]
    · simp [h, h.symm, State.waveRegs]
  lfsr := by by_cases h : c = .ch6 <;> simp [h]
  modFreq := .inl (by simp)
  nextModFreq := .inl (by simp)
  loaded := by simp

/-- INTEN(1) zeroes `intCnt` of its channel (R72). -/
theorem inten_hiddenAfter (c : Channel) (s : State) :
    HiddenAfter (.inten c true) s
      (s.onBlock fun b => b.modChan c fun r => { r.setOutEn true with intEn := true, intCnt := 0 }) where
  outside := s.onBlock_sameOutside _
  dividers := ⟨rfl, rfl, rfl⟩
  modPhase := rfl
  swCnt := rfl
  noiseOut := rfl
  intCnt d := by
    obtain rfl | h := eq_or_ne d c
    · simp [State.chan]
    · simp [h, h.symm, State.chan]
  envCnt d := by by_cases h : d = c <;> simp [h, State.chan, ChanRegs.setOutEn]
  phCnt d := by by_cases h : d = c <;> simp [h, State.chan, ChanRegs.setOutEn]
  phase _ := rfl
  lfsr := rfl
  modFreq := .inl rfl
  nextModFreq := .inl rfl
  loaded := by simp

/-- MODFREQ loads the buffers that MODFREQ_WRITE_TARGET names (R90). -/
theorem execModfreq_hiddenAfter (v : BitVec 16) (s : State) :
    ∃ t, execModfreq v s = .next t ∧ HiddenAfter (.modfreq v) s t := by
  refine ⟨_, rfl, ?_⟩
  constructor
  case outside => exact s.onBlock_sameOutside _
  case dividers => exact ⟨rfl, rfl, rfl⟩
  case intCnt | envCnt | phCnt | phase => exact fun _ => rfl
  case lfsr | noiseOut => rfl
  all_goals cases s.cfg.modfreqTarget <;> simp

/-- Every command but ADVANCE completes with the hidden state R38 gives. -/
theorem exec_hiddenAfter {i : Instr} (hadv : ∀ n, i ≠ .advance n) (s : State) :
    ∃ t, exec i s = .next t ∧ HiddenAfter i s t := by
  cases hi : writesHidden i with
  | false =>
    obtain ⟨t, he, ho, hk⟩ := exec_sameHidden hi s
    exact ⟨t, he, hiddenAfter_of_sameHidden hi ho hk⟩
  | true =>
    match i with
    | .chen c true => exact ⟨_, rfl, retrigger_hiddenAfter c s⟩
    | .inten c true => exact ⟨_, rfl, inten_hiddenAfter c s⟩
    | .modfreq v => exact execModfreq_hiddenAfter v s
    | .advance n => exact absurd rfl (hadv n)

/-- A field that differs after a conditional write was written. -/
theorem written_of_ne {α : Type} {p : Prop} [Decidable p] {x y v : α} (h : x = if p then v else y) (hne : x ≠ y) :
    p ∧ x = v := by
  by_cases hp : p
  · exact ⟨hp, h.trans (if_pos hp)⟩
  · exact absurd (h.trans (if_neg hp)) hne

/-- Settles O55: the hidden state after each command is a function of the command (`exec_hiddenAfter`). -/
theorem hiddenStateWriters : Obligations.HiddenStateWriters := by
  intro i s hadv
  obtain ⟨t, he, h⟩ := exec_hiddenAfter hadv s
  exact ⟨t, he, h.outside, h.dividers, h.modPhase, h.swCnt, h.noiseOut,
    fun c => written_of_ne (h.intCnt c), fun c => written_of_ne (h.envCnt c), fun c => written_of_ne (h.phCnt c),
    fun w => written_of_ne (h.phase w), written_of_ne h.lfsr, h.modFreq.resolve_left, h.nextModFreq.resolve_left,
    fun c hi => ⟨(h.envCnt c).trans (if_pos hi), (h.phCnt c).trans (if_pos hi)⟩,
    fun w hi => (h.phase w).trans (if_pos hi), fun hi => h.lfsr.trans (if_pos hi),
    fun c hi => (h.intCnt c).trans (if_pos hi), h.loaded⟩

end Sys2Proof.Machine
end

section
/-! The field writes of a single channel: the fid and the reduced operand of a field write, what a change of one channel's
registers leaves alone, the registers after CHEN, and O9 to O11. -/

namespace Sys2Proof.Machine

/-! ## The encoding of a field write (R59, R60, R62) -/

/-- The number a field write's fid is written as is the fid of R59's two parts. -/
theorem fieldFid_code (k : FieldKind) (c : Channel) : fieldFid c k.code.toNat = fidOf c.selector k.code := by
  cases k <;> cases c <;> rfl

/-- A W command to the fid of a field its channel has decodes to that field's write (R64). -/
theorem decode_fieldFid (k : FieldKind) {c : Channel} {v : Word} {i : Instr} (hk : k.validOn c = true)
    (hi : k.instr c v = i) : decode (.w (fieldFid c k.code.toNat) v) = .instr i := by
  rw [fieldFid_code, ← hi]
  exact decode_fieldCommand hk v

/-- Bit 0 of a value is its remainder modulo 2 (R60). -/
theorem asBool_eq (v : Word) : asBool v = decide (v.toNat % 2 = 1) := by
  simp [asBool, BitVec.getLsbD, Nat.testBit_zero]

/-- The low `n` bits of a value are its remainder modulo `2 ^ n` (R60). -/
theorem setWidth_eq_ofNat_mod (n : Nat) (v : Word) : v.setWidth n = BitVec.ofNat n (v.toNat % 2 ^ n) := by
  apply BitVec.eq_of_toNat_eq
  simp

theorem asU4_eq (v : Word) : asU4 v = BitVec.ofNat 4 (v.toNat % 16) := setWidth_eq_ofNat_mod 4 v

theorem asU5_eq (v : Word) : asU5 v = BitVec.ofNat 5 (v.toNat % 32) := setWidth_eq_ofNat_mod 5 v

/-! ## The registers after a change of the block -/

/-- A change of one channel's registers changes nothing else. -/
theorem State.onBlock_modChan_registers (s : State) (c : Channel) (f : ChanRegs → ChanRegs) :
    Registers s (s.onBlock fun b => b.modChan c f) (onlyChan c f) unchanged id id where
  chan d := Block.chan_modChan s.block c d f
  wave _ := rfl
  sweep := rfl
  noise := rfl
  tables := ⟨fun _ => rfl, fun _ => rfl⟩
  dividers := ⟨rfl, rfl, rfl⟩
  outside := s.onBlock_sameOutside _

theorem Block.retrigger_sameTables (b : Block) (c : Channel) : SameTables b (b.retrigger c) := by
  unfold Block.retrigger
  cases c.wave? <;> exact ⟨fun _ => rfl, fun _ => rfl⟩

/-- CHEN(0) silences its channel (R71). -/
theorem execChen_false_registers (c : Channel) (s : State) :
    ∃ t, exec (.chen c false) s = .next t ∧
      Registers s t (onlyChan c fun r => { r with outEn := false }) unchanged id id :=
  ⟨_, rfl, s.onBlock_modChan_registers c _⟩

/-- CHEN(1) makes its channel audible and restarts it (R71). -/
theorem execChen_true_registers (c : Channel) (s : State) :
    ∃ t, exec (.chen c true) s = .next t ∧
      Registers s t (onlyChan c fun r => { r with outEn := true, envCnt := 0, phCnt := 0 })
        (fun w r => if w.channel = c then { r with phase := 0 } else r) id
        (fun n => if c = .ch6 then { n with lfsr := 0x7FFF } else n) := by
  refine ⟨_, rfl, ?_⟩
  constructor
  case chan => intro d; by_cases h : d = c <;> simp [h, onlyChan, State.chan, ChanRegs.setOutEn]
  case wave => intro w; simp [State.waveRegs]
  case sweep | noise => simp
  case tables =>
    obtain ⟨hw, hm⟩ := (s.block.modChan c fun r => r.setOutEn true).retrigger_sameTables c
    exact ⟨hw, hm⟩
  case dividers => constructor <;> simp
  case outside => exact s.onBlock_sameOutside _

/-! ## The obligations -/

/-- Settles O9: CHEN(0) is a change of `outEn`, and CHEN(1) restarts the channel as well. -/
theorem chenWrites : Obligations.ChenWrites := by
  refine ⟨fun c v => decode_fieldFid .chen rfl (congrArg (Instr.chen c) (asBool_eq v)), ?_, ?_⟩
  · intro w en s
    cases en with
    | false =>
      obtain ⟨t, he, h⟩ := execChen_false_registers w.channel s
      exact ⟨t, he, { h with wave := fun v => by simpa [onlyWave, unchanged] using h.wave v }⟩
    | true =>
      obtain ⟨t, he, h⟩ := execChen_true_registers w.channel s
      exact ⟨t, he, { h with
        wave := fun v => by simpa [onlyWave] using h.wave v
        noise := by simpa using h.noise }⟩
  · intro en s
    cases en with
    | false => exact execChen_false_registers .ch6 s
    | true =>
      obtain ⟨t, he, h⟩ := execChen_true_registers .ch6 s
      exact ⟨t, he, { h with wave := fun v => by simpa [unchanged] using h.wave v }⟩

/-- Settles O10: both writes change one channel's registers (`State.onBlock_modChan_registers`). -/
theorem intervalWrites : Obligations.IntervalWrites :=
  ⟨fun c v => ⟨decode_fieldFid .inten rfl (congrArg (Instr.inten c) (asBool_eq v)),
      decode_fieldFid .intset rfl (congrArg (Instr.intset c) (asU5_eq v))⟩,
    fun c _ s => ⟨_, rfl, s.onBlock_modChan_registers c _⟩,
    fun c _ s => ⟨_, rfl, s.onBlock_modChan_registers c _⟩⟩

/-- Settles O11: the five writes change one channel's registers (`State.onBlock_modChan_registers`). -/
theorem envelopeWrites : Obligations.EnvelopeWrites :=
  ⟨fun c v => ⟨decode_fieldFid .envrld rfl (congrArg (Instr.envrld c) (asU4_eq v)),
      decode_fieldFid .envdir rfl (congrArg (Instr.envdir c) (asBool_eq v)),
      decode_fieldFid .envstp rfl (congrArg (Instr.envstp c) (asU5_eq v)),
      decode_fieldFid .envrpt rfl (congrArg (Instr.envrpt c) (asBool_eq v)),
      decode_fieldFid .enven rfl (congrArg (Instr.enven c) (asBool_eq v))⟩,
    fun c _ s => ⟨_, rfl, s.onBlock_modChan_registers c _⟩,
    fun c _ s => ⟨_, rfl, s.onBlock_modChan_registers c _⟩,
    fun c _ s => ⟨_, rfl, s.onBlock_modChan_registers c _⟩,
    fun c _ s => ⟨_, rfl, s.onBlock_modChan_registers c _⟩,
    fun c _ s => ⟨_, rfl, s.onBlock_modChan_registers c _⟩⟩

end Sys2Proof.Machine
end

section
/-! The table uploads: their fids, a table's entries after a run of writes, the conversions of an upload's bytes, what an
upload leaves alone, and O17 and O18. -/

namespace Sys2Proof.Machine

/-! ## The encoding of an upload (R61, R63, R64) -/

/-- WAVUP's fid is the table's number (R63). -/
theorem fidOf_wavup (t : Fin 5) : fidOf 0 (BitVec.ofNat 5 t.val) = BitVec.ofNat 8 t.val := by
  revert t; decide

/-- A W command to an upload's fid is a no-op (R64). -/
theorem decode_valueToUpload {code : BitVec 5} (h : code.toNat ≤ 5) (v : Word) :
    decode (.w (fidOf 0 code) v) = .nop .formatMismatch := by
  have hadv : code ≠ advanceCode := by
    rintro rfl
    exact absurd h (by decide)
  simp [decode, Command.fid, decodeGlobal, hadv, h]

/-! ## A table's entries after a run of writes (R42, R43) -/

theorem Block.readWave_writeWave {b : Block} (hb : b.wave.wf) {a i : Nat} {vs : List Byte} (hi : i < vs.length) :
    (b.writeWave a vs).readWave (a + i) = vs[i] :=
  Memory.read_writeFrom hb hi

theorem Block.readWave_writeWave_outside (b : Block) {a x : Nat} {vs : List Byte} (h : x < a ∨ a + vs.length ≤ x) :
    (b.writeWave a vs).readWave x = b.readWave x :=
  Memory.read_writeFrom_outside b.wave h

theorem Block.readModt_writeModt {b : Block} (hb : b.modt.wf) {a i : Nat} {vs : List Byte} (hi : i < vs.length) :
    (b.writeModt a vs).readModt (a + i) = (vs[i]).toInt :=
  congrArg BitVec.toInt (Memory.read_writeFrom hb hi)

theorem Block.readModt_writeModt_outside (b : Block) {a x : Nat} {vs : List Byte} (h : x < a ∨ a + vs.length ≤ x) :
    (b.writeModt a vs).readModt x = b.readModt x :=
  congrArg BitVec.toInt (Memory.read_writeFrom_outside b.modt h)

/-- Entry `i` of table `t` stands `i` entries after the table's first (R42). -/
theorem waveAddress_eq_add (t i : Nat) : waveAddress t i = waveAddress t 0 + i := rfl

theorem State.onBlock_writeWave_sameButTables (s : State) (a : Nat) (vs : List Byte) :
    SameButTables s (s.onBlock fun b => b.writeWave a vs) where
  chan _ := rfl
  wave _ := rfl
  sweep := rfl
  noise := rfl
  dividers := ⟨rfl, rfl, rfl⟩
  outside := s.onBlock_sameOutside _

theorem State.onBlock_writeModt_sameButTables (s : State) (a : Nat) (vs : List Byte) :
    SameButTables s (s.onBlock fun b => b.writeModt a vs) where
  chan _ := rfl
  wave _ := rfl
  sweep := rfl
  noise := rfl
  dividers := ⟨rfl, rfl, rfl⟩
  outside := s.onBlock_sameOutside _

/-! ## The conversions as integers (R92, R93) -/

theorem waveConv_toNat (d : Byte) : (waveConv d).toNat = (if d.toNat = 0 then 0 else d.toNat - 1) % 64 := by
  have hz : d = 0 ↔ d.toNat = 0 := BitVec.toNat_inj.symm
  simp only [waveConv, hz, BitVec.toNat_ofNat]
  omega

/-- The reduction of R93 moves one integer only: -129, which is -128 less one, wraps to 127. -/
theorem modConvInt_eq (offset : Bool) (d : Byte) :
    modConvInt offset d =
      if offset = false ∨ d.toInt = 0 then d.toInt else if d.toInt = -128 then 127 else d.toInt - 1 := by
  have hlo : -128 ≤ d.toInt := d.le_toInt
  have hhi : d.toInt < 128 := d.toInt_lt
  cases offset with
  | false => simp only [modConvInt, sext8, Bool.false_eq_true, false_and, true_or, if_true, if_false]; omega
  | true =>
    simp only [modConvInt, sext8, true_and, Bool.true_eq_false, false_or]
    split_ifs <;> omega

/-- A MODT cell holds the converted integer exactly: it fits eight bits. -/
theorem modConv_toInt (offset : Bool) (d : Byte) : (modConv offset d).toInt = modConvInt offset d := by
  have hlo : -128 ≤ modConvInt offset d := by simp only [modConvInt]; omega
  have hhi : modConvInt offset d < 128 := by simp only [modConvInt]; omega
  rw [modConv, BitVec.toInt_ofInt]
  exact Int.bmod_eq_of_le hlo hhi

/-! ## The obligations -/

/-- Settles O17: WAVUP is a run of writes from the table's first entry on. -/
theorem wavupStoresConvertedBytes : Obligations.WavupStoresConvertedBytes := by
  refine ⟨fun t data => ?_, fun t v => ⟨.formatMismatch, ?_⟩, fun t data s hwf => ?_⟩
  · rw [← fidOf_wavup]
    exact decode_wavup t data
  · rw [← fidOf_wavup]
    exact decode_valueToUpload (by simp only [BitVec.toNat_ofNat]; omega) v
  · refine ⟨_, rfl, fun i hi => ?_, fun a ha => ?_, fun _ => Block.readModt_writeWave ..,
      s.onBlock_writeWave_sameButTables _ _⟩
    · rw [State.onBlock_block, waveAddress_eq_add t.val i, Block.readWave_writeWave hwf (by simpa using hi),
        List.getElem_map, waveConv_toNat]
    · refine Block.readWave_writeWave_outside _ ?_
      rwa [List.length_map, data.length_eq]

/-- Settles O18: MODUP is a run of writes from the modulation table's first entry on. -/
theorem modupStoresConvertedBytes : Obligations.ModupStoresConvertedBytes := by
  refine ⟨decode_modup, fun v => ⟨.formatMismatch, decode_valueToUpload (code := modupCode) (by decide) v⟩,
    fun data s hwf => ⟨_, rfl, fun i hi => ?_, fun a ha => ?_, fun _ => Block.readWave_writeModt ..,
      s.onBlock_writeModt_sameButTables _ _⟩⟩
  · have hread := Block.readModt_writeModt hwf (a := 0) (vs := data.bytes.map (modConv s.cfg.modUploadOffset))
      (by simpa using hi)
    rw [Nat.zero_add, List.getElem_map, modConv_toInt, modConvInt_eq] at hread
    exact hread
  · refine Block.readModt_writeModt_outside _ (.inr ?_)
    rwa [List.length_map, data.length_eq, Nat.zero_add]

end Sys2Proof.Machine
end

section
/-! The slow timers in one cycle: what an ADVANCE of 1 does to the block, to each channel's envelope, to each channel's
duration counter and to `outEn`, and O23 and O24. -/

namespace Sys2Proof.Machine

/-- ADVANCE 1 runs one cycle (R97). -/
theorem exec_advance_one (s : State) : ∃ t, exec (.advance 1) s = .next t ∧ t.block = s.block.tick s.cfg :=
  ⟨_, rfl, Block.runCycles_one_fst s.cfg s.block⟩

/-! ## The envelope (R103, R107) -/

/-- A level change as integers: the level stays within 0 to 15, so its 4 bits do not wrap. -/
theorem nextLevel_toNat (r : ChanRegs) :
    (nextLevel r).toNat =
      if r.envUp = true ∧ r.envLevel.toNat < 15 then r.envLevel.toNat + 1
      else if r.envUp = false ∧ 0 < r.envLevel.toNat then r.envLevel.toNat - 1
      else if r.envRepeat then r.envReload.toNat else r.envLevel.toNat := by
  unfold nextLevel
  split_ifs with hup hdown
  · exact BitVec.toNat_add_of_lt (Nat.succ_lt_succ hup.2)
  · exact BitVec.toNat_sub_of_le (BitVec.le_def.mpr hdown.2)
  · rfl
  · rfl

/-- The envelope tick does not read `outEn` (R107), nor `intCnt`, and commutes with writing them. -/
theorem envelopeTick_setInterval (r : ChanRegs) (o : Bool) (n : Nat) :
    envelopeTick { r with outEn := o, intCnt := n } = { envelopeTick r with outEn := o, intCnt := n } := by
  unfold envelopeTick
  dsimp only
  split_ifs <;> rfl

/-- An interval tick writes `outEn` and `intCnt` only (R112). -/
theorem intervalTick_eq_setInterval (r : ChanRegs) : ∃ o n, intervalTick r = { r with outEn := o, intCnt := n } := by
  obtain ⟨-, -, h⟩ | ⟨-, h⟩ := intervalTick_cases r
  · exact ⟨_, _, h⟩
  · exact ⟨r.outEn, r.intCnt, h⟩

/-- A channel after the envelope divider of a cycle. -/
def Block.envelopeTicked (p : Params) (b : Block) (c : Channel) : ChanRegs :=
  if p.envelopePeriod ≤ b.envDiv + 1 then envelopeTick (b.chan c) else b.chan c

/-- The slow ticks are the envelope divider's, but for what the interval divider writes (R100). -/
theorem Block.slowTicked_eq_setInterval (p : Params) (b : Block) (c : Channel) :
    ∃ o n, b.slowTicked p c = { b.envelopeTicked p c with outEn := o, intCnt := n } := by
  obtain ⟨o, n, h⟩ := intervalTick_eq_setInterval (b.chan c)
  unfold Block.slowTicked Block.envelopeTicked
  dsimp only
  split_ifs
  · exact ⟨o, n, by rw [h, envelopeTick_setInterval]⟩
  · exact ⟨_, _, rfl⟩
  · exact ⟨o, n, h⟩
  · exact ⟨_, _, rfl⟩

/-- A channel's envelope after a cycle is the one the envelope divider leaves. -/
theorem Block.tick_envelope (p : Params) (b : Block) (c : Channel) :
    ((b.tick p).chan c).envCnt = (b.envelopeTicked p c).envCnt ∧
    ((b.tick p).chan c).envLevel = (b.envelopeTicked p c).envLevel := by
  obtain ⟨o, ph, -, -, -, htick⟩ := b.tick_chan p c
  obtain ⟨o', n, hslow⟩ := b.slowTicked_eq_setInterval p c
  rw [htick, hslow]
  exact ⟨rfl, rfl⟩

/-- An envelope that is disabled, or whose divider does not fire, stands still. -/
theorem Block.envelopeTicked_of_idle {p : Params} {b : Block} {c : Channel}
    (h : ¬ (p.envelopePeriod ≤ b.envDiv + 1 ∧ (b.chan c).envEn = true)) : b.envelopeTicked p c = b.chan c := by
  unfold Block.envelopeTicked
  split_ifs with hp
  · have hen : ¬ (b.chan c).envEn = true := fun he => h ⟨hp, he⟩
    rw [envelopeTick, if_neg hen]
  · rfl

/-- An enabled envelope whose divider fires counts, or changes its level when its count passes `envStep`. -/
theorem Block.envelopeTicked_of_ticks {p : Params} {b : Block} {c : Channel}
    (h : p.envelopePeriod ≤ b.envDiv + 1 ∧ (b.chan c).envEn = true) :
    b.envelopeTicked p c =
      if (b.chan c).envStep.toNat < (b.chan c).envCnt + 1
      then { b.chan c with envCnt := 0, envLevel := nextLevel (b.chan c) }
      else { b.chan c with envCnt := (b.chan c).envCnt + 1 } := by
  simp only [Block.envelopeTicked, envelopeTick, if_pos h.1, if_pos h.2, envelopeStepDue_iff]

/-- Settles O23: the envelope after a cycle is the envelope divider's (`Block.tick_envelope`), case by case. -/
theorem envelopeInOneCycle : Obligations.EnvelopeInOneCycle := by
  intro s
  obtain ⟨t, he, ht⟩ := exec_advance_one s
  obtain ⟨-, henvDiv, -⟩ := s.block.tick_dividers s.cfg
  refine ⟨t, he, ht ▸ henvDiv, fun c => ?_⟩
  obtain ⟨hcnt, hlevel⟩ := s.block.tick_envelope s.cfg c
  simp only [State.chan, ht, hcnt, hlevel]
  refine ⟨fun hidle => ?_, fun hticks hdue => ?_, fun hticks hdue => ?_⟩
  · rw [Block.envelopeTicked_of_idle hidle]
    exact ⟨rfl, rfl⟩
  · rw [Block.envelopeTicked_of_ticks hticks, if_neg hdue]
    exact ⟨rfl, rfl⟩
  · rw [Block.envelopeTicked_of_ticks hticks, if_pos hdue]
    exact ⟨rfl, nextLevel_toNat _⟩

/-! ## The duration counter (R102, R112) -/

/-- An interval tick counts exactly on a channel with both flags set (R112). -/
theorem intervalTick_intCnt (r : ChanRegs) :
    (intervalTick r).intCnt = if r.outEn = true ∧ r.intEn = true then r.intCnt + 1 else r.intCnt := by
  obtain ⟨ho, hi, h⟩ | ⟨hoff, h⟩ := intervalTick_cases r
  · rw [h, if_pos ⟨ho, hi⟩]
  · rw [h, if_neg (by rintro ⟨ho, hi⟩; simp [ho, hi] at hoff)]

/-- A channel's duration counter after a cycle. -/
theorem Block.tick_intCnt (p : Params) (b : Block) (c : Channel) :
    ((b.tick p).chan c).intCnt =
      if p.intervalPeriod ≤ b.intDiv + 1 ∧ (b.chan c).outEn = true ∧ (b.chan c).intEn = true
      then (b.chan c).intCnt + 1 else (b.chan c).intCnt := by
  obtain ⟨o, ph, -, -, -, htick⟩ := b.tick_chan p c
  have hslow : (b.slowTicked p c).intCnt =
      (if p.intervalPeriod ≤ b.intDiv + 1 then intervalTick (b.chan c) else b.chan c).intCnt := by
    unfold Block.slowTicked; dsimp only; split_ifs <;> simp
  rw [htick, hslow]
  by_cases hp : p.intervalPeriod ≤ b.intDiv + 1
  · simp only [hp, if_true, true_and, intervalTick_intCnt]
  · simp only [hp, if_false, false_and]

/-! ## Channel 5's overflow (R125, R127) -/

/-- In this cycle channel 5's unit applies a frequency that overflows: its divider fires, in mode divide its count is
full, and the buffered frequency is at least 2048 (R104, R125, R127). -/
def Block.overflowDue (p : Params) (b : Block) : Prop :=
  sweepPeriod b.sweep.swLong ≤ b.swDiv + 1 ∧
  (p.sweepIntervalMode = .divide → max 1 b.sweep.swInt.toNat ≤ b.sweep.swCnt + 1) ∧
  2048 ≤ b.sweep.nextModFreq.toNat

theorem Block.sweepApply_outEn (b : Block) :
    (b.sweepApply.chan .ch5).outEn = true ↔ (b.chan .ch5).outEn = true ∧ ¬ 2048 ≤ b.sweep.nextModFreq.toNat := by
  unfold Block.sweepApply
  dsimp only
  split_ifs with h
  · have hover : 2048 ≤ b.sweep.nextModFreq.toNat := by simpa using h
    simp [ChanRegs.setOutEn, hover]
  · have hbelow : ¬ 2048 ≤ b.sweep.nextModFreq.toNat := by simpa using h
    simp [hbelow]

@[simp] theorem Block.chan_sweepCompute (b : Block) (c : Channel) : b.sweepCompute.chan c = b.chan c := by
  unfold Block.sweepCompute; dsimp only; split_ifs <;> rfl

theorem Block.chan_sweepModTick (g : SweepRunGate) (b : Block) (c : Channel) :
    (b.sweepModTick g).chan c = b.sweepApply.chan c := by
  unfold Block.sweepModTick; dsimp only; split_ifs <;> simp

/-- The base tick silences channel 5 exactly when it runs the unit (R125) and the frequency applied overflows. -/
theorem Block.sweepModBaseTick_outEn (p : Params) (b : Block) :
    ((b.sweepModBaseTick p).chan .ch5).outEn = true ↔ (b.chan .ch5).outEn = true ∧
      ¬ ((p.sweepIntervalMode = .divide → max 1 b.sweep.swInt.toNat ≤ b.sweep.swCnt + 1) ∧
        2048 ≤ b.sweep.nextModFreq.toNat) := by
  obtain ⟨hmode, h⟩ | ⟨hmode, hwait, h⟩ | ⟨hmode, hfull, h⟩ := b.sweepModBaseTick_cases p
  · rw [h, Block.chan_sweepModTick, Block.sweepApply_outEn]; simp [hmode]
  · rw [h, Block.chan_modSweep]; simp only [hmode, true_imp_iff, Nat.not_le.mpr hwait, false_and, not_false_iff, and_true]
  · rw [h, Block.chan_sweepModTick, Block.sweepApply_outEn]; simp only [hmode, true_imp_iff, hfull, true_and]; rfl

theorem Block.sweepModDivider_outEn (p : Params) (b : Block) :
    ((b.sweepModDivider p).chan .ch5).outEn = true ↔ (b.chan .ch5).outEn = true ∧ ¬ b.overflowDue p := by
  unfold Block.overflowDue
  by_cases h : sweepPeriod b.sweep.swLong ≤ b.swDiv + 1
  · rw [Block.sweepModDivider_fires h, Block.sweepModBaseTick_outEn]
    simp only [h, true_and]
    rfl
  · rw [Block.sweepModDivider_counts h]
    simp [h]

theorem Block.waveTicks_outEn_ch5 (b : Block) : (b.waveTicks.chan .ch5).outEn = (b.chan .ch5).outEn :=
  (congrArg ChanRegs.outEn (b.chan_waveTicks .ch5) :)

/-- Channel 5 is audible after a cycle exactly if the slow ticks leave it so and no overflow comes. -/
theorem Block.tick_outEn_ch5 (p : Params) (b : Block) :
    ((b.tick p).chan .ch5).outEn = true ↔ (b.slowTicked p .ch5).outEn = true ∧ ¬ b.overflowDue p := by
  obtain ⟨hchan, -, -, -, -, hsweep, hswDiv, -, -⟩ := b.slowDividers p
  have hdue : ((b.intervalDivider p).envelopeDivider p).overflowDue p ↔ b.overflowDue p := by
    simp only [Block.overflowDue, hsweep, hswDiv]
  unfold Block.tick
  rw [Block.chan_noiseFreqTick, if_neg (by decide), Block.waveTicks_outEn_ch5, ← hchan, ← hdue]
  exact Block.sweepModDivider_outEn p _

/-- The core's writers of `outEn` in a cycle (R36): the duration running out, and on channel 5 an overflow. -/
theorem Block.tick_outEn (p : Params) (b : Block) (c : Channel) :
    ((b.tick p).chan c).outEn = true ↔ (b.slowTicked p c).outEn = true ∧ ¬ (c = .ch5 ∧ b.overflowDue p) := by
  by_cases hc : c = .ch5
  · subst hc
    simpa using b.tick_outEn_ch5 p
  · obtain ⟨o, ph, -, ho, -, htick⟩ := b.tick_chan p c
    rw [htick, ho hc]
    simp [hc]

/-- Settles O24: the counter by `Block.tick_intCnt`, `outEn` by its two writers (`Block.tick_outEn`). -/
theorem intervalInOneCycle : Obligations.IntervalInOneCycle := by
  intro s
  obtain ⟨t, he, ht⟩ := exec_advance_one s
  obtain ⟨hintDiv, -, -⟩ := s.block.tick_dividers s.cfg
  refine ⟨t, he, ht ▸ hintDiv, fun c => ?_⟩
  simp only [State.chan, ht, Block.tick_intCnt]
  refine ⟨fun h => if_pos h, fun h => if_neg h, ?_⟩
  rw [Block.tick_outEn, Block.slowTicked_outEn]
  unfold Block.overflowDue sweepPeriod
  tauto

end Sys2Proof.Machine
end

section
/-! The accumulators in one cycle: the signed compare of R117 in natural numbers, the frequency each wave channel plays in a
cycle, what the cycle does to the wave accumulators and the noise accumulator, and O25. -/

namespace Sys2Proof.Machine

/-! ## The signed compare (R117, R135) -/

/-- A count reaches 2048 less the frequency, as integers, exactly if count and frequency sum to 2048 or more. -/
theorem reachesThreshold_iff (count f : Nat) : (count : Int) ≥ 2048 - (f : Int) ↔ 2048 ≤ count + f := by omega

theorem accNext_of_reached {inc f ph : Nat} (h : 2048 ≤ ph + inc + f) : accNext inc f ph = 0 := if_pos h

theorem accNext_of_below {inc f ph : Nat} (h : ¬ 2048 ≤ ph + inc + f) : accNext inc f ph = ph + inc := if_neg h

/-! ## The wave accumulators (R99, R117) -/

/-- The frequency that a wave channel plays in a cycle: on channel 5, `modFreq` as the cycle's own secondary tick leaves it. -/
def Block.cycleFreq (p : Params) (b : Block) (w : WaveChannel) : Nat :=
  if w = .ch5 then (b.tick p).sweep.modFreq.toNat else (b.chan w.channel).freq.toNat

theorem Block.cycleFreq_ch5 (p : Params) (b : Block) : b.cycleFreq p .ch5 = (b.tick p).sweep.modFreq.toNat := if_pos rfl

theorem Block.cycleFreq_standard (p : Params) (b : Block) {w : WaveChannel} (hw : w ≠ .ch5) :
    b.cycleFreq p w = (b.chan w.channel).freq.toNat := if_neg hw

/-- A wave channel's counter after a cycle. -/
theorem Block.tick_phCnt_wave (p : Params) (b : Block) (w : WaveChannel) :
    ((b.tick p).chan w.channel).phCnt = accNext waveIncrement (b.cycleFreq p w) (b.chan w.channel).phCnt := by
  by_cases hw : w = .ch5
  · subst hw
    obtain ⟨o, -, htick⟩ := b.tick_chan_ch5 p
    rw [Block.cycleFreq_ch5, show WaveChannel.ch5.channel = Channel.ch5 from rfl, htick]
  · rw [Block.cycleFreq_standard p b hw, Block.tick_chan_standard p b hw]

/-- A wave channel's registers after a cycle. -/
theorem Block.tick_waveRegs (p : Params) (b : Block) (w : WaveChannel) :
    (b.tick p).waveRegs w =
      if 2048 ≤ (b.chan w.channel).phCnt + waveIncrement + b.cycleFreq p w
      then { b.waveRegs w with phase := (b.waveRegs w).phase + 1 } else b.waveRegs w := by
  by_cases hw : w = .ch5
  · subst hw
    rw [Block.cycleFreq_ch5]
    exact b.tick_waveRegs_ch5 p
  · rw [Block.cycleFreq_standard p b hw]
    exact b.tick_waveRegs_standard p hw

/-- A wave accumulator that reaches its threshold restarts, and the phase steps once around its 32 entries. -/
theorem Block.tick_wave_of_reached {p : Params} {b : Block} {w : WaveChannel}
    (h : 2048 ≤ (b.chan w.channel).phCnt + waveIncrement + b.cycleFreq p w) :
    ((b.tick p).chan w.channel).phCnt = 0 ∧
    ((b.tick p).waveRegs w).phase.toNat = ((b.waveRegs w).phase.toNat + 1) % 32 := by
  rw [Block.tick_phCnt_wave, Block.tick_waveRegs, if_pos h]
  exact ⟨accNext_of_reached h, BitVec.toNat_add ..⟩

/-- A wave accumulator below its threshold counts on, and the phase stands still. -/
theorem Block.tick_wave_of_below {p : Params} {b : Block} {w : WaveChannel}
    (h : ¬ 2048 ≤ (b.chan w.channel).phCnt + waveIncrement + b.cycleFreq p w) :
    ((b.tick p).chan w.channel).phCnt = (b.chan w.channel).phCnt + waveIncrement ∧
    ((b.tick p).waveRegs w).phase = (b.waveRegs w).phase := by
  rw [Block.tick_phCnt_wave, Block.tick_waveRegs, if_neg h]
  exact ⟨accNext_of_below h, rfl⟩

/-! ## The noise accumulator (R135) -/

/-- Channel 6's counter after a cycle. -/
theorem Block.tick_phCnt_ch6 (p : Params) (b : Block) :
    ((b.tick p).chan .ch6).phCnt = accNext noiseIncrement (b.chan .ch6).freq.toNat (b.chan .ch6).phCnt := by
  rw [Block.tick_chan_ch6]

/-- A noise accumulator that reaches its threshold restarts, and the shift register steps once. -/
theorem Block.tick_noise_of_reached {p : Params} {b : Block}
    (h : 2048 ≤ (b.chan .ch6).phCnt + noiseIncrement + (b.chan .ch6).freq.toNat) :
    ((b.tick p).chan .ch6).phCnt = 0 ∧ (b.tick p).noise = b.noise.lfsrStep := by
  rw [Block.tick_phCnt_ch6, Block.tick_noise, if_pos h]
  exact ⟨accNext_of_reached h, rfl⟩

/-- A noise accumulator below its threshold counts on, and the noise registers stand still. -/
theorem Block.tick_noise_of_below {p : Params} {b : Block}
    (h : ¬ 2048 ≤ (b.chan .ch6).phCnt + noiseIncrement + (b.chan .ch6).freq.toNat) :
    ((b.tick p).chan .ch6).phCnt = (b.chan .ch6).phCnt + noiseIncrement ∧ (b.tick p).noise = b.noise := by
  rw [Block.tick_phCnt_ch6, Block.tick_noise, if_neg h]
  exact ⟨accNext_of_below h, rfl⟩

/-- Settles O25: each accumulator by whether it reaches its threshold, the compare moved to natural numbers. -/
theorem accumulatorsInOneCycle : Obligations.AccumulatorsInOneCycle := by
  intro s
  obtain ⟨t, he, ht⟩ := exec_advance_one s
  refine ⟨t, he, fun w => ?_, ?_⟩
  · intro f count steps
    have hfreq : f = (s.block.cycleFreq s.cfg w : Int) := by
      simp only [f, ht, Block.cycleFreq, Nat.cast_ite, State.chan]
    have hsteps : steps ↔ 2048 ≤ (s.block.chan w.channel).phCnt + waveIncrement + s.block.cycleFreq s.cfg w := by
      simp only [steps, hfreq]
      exact reachesThreshold_iff ..
    simp only [hsteps, State.chan, State.waveRegs, ht]
    exact ⟨Block.tick_wave_of_reached, Block.tick_wave_of_below⟩
  · simp only [reachesThreshold_iff, State.chan, ht]
    exact ⟨Block.tick_noise_of_reached, Block.tick_noise_of_below⟩

end Sys2Proof.Machine
end

section
/-! Channel 5's sweep/modulation unit: the candidates as integers, the modulation index, the two halves of the secondary
tick as equations, and O37 to O40. -/

namespace Sys2Proof.Machine

/-! ## The candidates (R129, R131) -/

theorem sweepCand_up_toNat (mf : BitVec 16) (shift : BitVec 3) :
    (sweepCand mf shift true).toNat = (mf.toNat + mf.toNat / 2 ^ shift.toNat) % 65536 := by
  simp [sweepCand, Nat.shiftRight_eq_div_pow]

/-- Going down the candidate does not wrap, as the shifted value is at most the value. -/
theorem sweepCand_down_toNat (mf : BitVec 16) (shift : BitVec 3) :
    (sweepCand mf shift false).toNat = mf.toNat - mf.toNat / 2 ^ shift.toNat := by
  have hdelta : (mf >>> shift.toNat).toNat = mf.toNat / 2 ^ shift.toNat := by
    simp [Nat.shiftRight_eq_div_pow]
  have hle : mf >>> shift.toNat ≤ mf := BitVec.le_def.mpr (hdelta ▸ Nat.div_le_self ..)
  rw [← hdelta]
  exact BitVec.toNat_sub_of_le hle

/-- Settles O37: the two directions by `sweepCand_up_toNat` and `sweepCand_down_toNat`, also at shift 0. -/
theorem sweepCandidate : Obligations.SweepCandidate := by
  intro mf shift
  have hdelta : mf.toNat / 2 ^ shift.toNat ≤ mf.toNat := Nat.div_le_self ..
  refine ⟨sweepCand_up_toNat mf shift, sweepCand_down_toNat mf shift, hdelta, ?_, ?_, ?_⟩
  · have := mf.isLt
    omega
  · rw [sweepCand_up_toNat]
    simp [Nat.two_mul]
  · apply BitVec.eq_of_toNat_eq
    rw [sweepCand_down_toNat]
    simp

/-- The reduced sum fits in 16 bits, so the candidate is that sum. -/
theorem modCand_toNat (f : BitVec 32) (m : Int) : ((modCand f m).toNat : Int) = ((f.toNat : Int) + m) % 2048 := by
  rw [modCand, BitVec.toNat_ofInt]
  omega

theorem modCand_lt (f : BitVec 32) (m : Int) : (modCand f m).toNat < 2048 := by
  have := modCand_toNat f m
  omega

/-! ## The second half of the secondary tick (R126) -/

theorem Block.sweepCompute_of_sweep {b : Block} (h : b.sweep.swMod = false) :
    b.sweepCompute.sweep =
      { b.sweep with nextModFreq := sweepCand b.sweep.modFreq b.sweep.swShift b.sweep.swUp } := by
  simp [Block.sweepCompute, h]

theorem Block.sweepCompute_of_modulation {b : Block} (h : b.sweep.swMod = true) :
    b.sweepCompute.sweep =
      { modPhaseAdvance b.sweep with
        nextModFreq := modCand (b.chan .ch5).freq (b.readModt b.sweep.modPhase.toNat) } := by
  simp [Block.sweepCompute, h]

/-- Settles O38: the candidate as an integer, its one use (`Block.sweepCompute_of_modulation`), and its bound. -/
theorem modulationCandidate : Obligations.ModulationCandidate := by
  refine ⟨fun f m => ⟨modCand_toNat f m, modCand_lt f m⟩, fun b h => ?_, fun f m => ?_⟩
  · rw [Block.sweepCompute_of_modulation h]
  · rw [Bool.eq_false_iff, ne_eq, sweepOverflows_iff]
    exact Nat.not_le.mpr (modCand_lt f m)

/-! ## The modulation index (R132) -/

theorem modPhaseAdvance_eq (w : SweepRegs) :
    modPhaseAdvance w =
      { w with modPhase := if w.modRepeat = false ∧ w.modPhase.toNat = 31 then w.modPhase
                           else BitVec.ofNat 5 ((w.modPhase.toNat + 1) % 32) } := by
  have hlast : w.modPhase = 31 ↔ w.modPhase.toNat = 31 := BitVec.toNat_inj.symm
  have hnext : w.modPhase + 1 = BitVec.ofNat 5 ((w.modPhase.toNat + 1) % 32) :=
    BitVec.eq_of_toNat_eq (by simp)
  unfold modPhaseAdvance
  simp only [hlast, hnext]
  split_ifs <;> rfl

/-- The index advances whatever frequency is applied. -/
theorem modPhaseAdvance_setModFreq (w : SweepRegs) (f : BitVec 16) :
    modPhaseAdvance { w with modFreq := f } = { modPhaseAdvance w with modFreq := f } := by
  unfold modPhaseAdvance
  split_ifs <;> rfl

/-! ## The first half of the secondary tick (R127, R128) -/

/-- Whether channel 5 is audible once the buffered frequency is applied (R127). -/
def Block.audibleAfterApply (b : Block) : Bool :=
  (b.chan .ch5).outEn && decide (b.sweep.nextModFreq.toNat < 2048)

@[simp] theorem Block.sweepApply_sweep (b : Block) :
    b.sweepApply.sweep = { b.sweep with modFreq := b.sweep.nextModFreq } := by
  unfold Block.sweepApply; dsimp only; split_ifs <;> rfl

@[simp] theorem Block.sweepApply_readModt (b : Block) (a : Nat) : b.sweepApply.readModt a = b.readModt a :=
  congrArg (fun m => (Memory.read m a).toInt) b.sweepApply_keeps.modt

theorem Block.sweepApply_chan_ch5 (b : Block) :
    b.sweepApply.chan .ch5 = { b.chan .ch5 with outEn := b.audibleAfterApply } := by
  have hout : (b.sweepApply.chan .ch5).outEn = b.audibleAfterApply :=
    Bool.eq_iff_iff.mpr (by rw [Block.sweepApply_outEn]; simp [Block.audibleAfterApply])
  rw [← hout]
  obtain h | h := b.sweepApply_keeps.ch5
  · rw [h]
  · rw [h]; rfl

theorem Block.sweepApply_chan (b : Block) (c : Channel) :
    b.sweepApply.chan c = onlyChan .ch5 (fun r => { r with outEn := b.audibleAfterApply }) c (b.chan c) := by
  unfold onlyChan
  split_ifs with hc
  · rw [hc, Block.sweepApply_chan_ch5]
  · exact b.sweepApply_keeps.others c hc

/-- The stop conditions of R128, on the state before the tick. -/
theorem Block.sweepApply_computes_iff (g : SweepRunGate) (b : Block) :
    b.sweepApply.sweepComputes g = true ↔
      b.sweep.swEn = true ∧ (g = .outputEnabled → b.audibleAfterApply = true) ∧ b.sweep.swInt.toNat ≠ 0 := by
  have hint : b.sweep.swInt ≠ 0 ↔ b.sweep.swInt.toNat ≠ 0 := BitVec.toNat_inj.symm.not
  unfold Block.sweepComputes
  rw [Block.sweepApply_sweep, Block.sweepApply_chan_ch5]
  cases g <;> simp only [sweepRunning, Bool.and_eq_true, decide_eq_true_eq, hint, and_assoc, reduceCtorEq, false_imp_iff,
    true_imp_iff]

/-! ## The whole secondary tick -/

/-- A secondary tick that stops applies the frequency and does no more (R128). -/
theorem Block.sweepModTick_of_stops {g : SweepRunGate} {b : Block} (h : ¬ b.sweepApply.sweepComputes g = true) :
    (b.sweepModTick g).sweep = { b.sweep with modFreq := b.sweep.nextModFreq } := by
  rw [Block.sweepModTick, if_neg h, Block.sweepApply_sweep]

/-- A secondary tick that computes in sweep: the candidate is made from the frequency just applied (R126, R129). -/
theorem Block.sweepModTick_of_sweep {g : SweepRunGate} {b : Block} (h : b.sweepApply.sweepComputes g = true)
    (hmode : b.sweep.swMod = false) :
    (b.sweepModTick g).sweep =
      { b.sweep with
        modFreq := b.sweep.nextModFreq
        nextModFreq := sweepCand b.sweep.nextModFreq b.sweep.swShift b.sweep.swUp } := by
  rw [Block.sweepModTick, if_pos h, Block.sweepCompute_of_sweep (by simpa using hmode), Block.sweepApply_sweep]

/-- A secondary tick that computes in modulation: the candidate is made from channel 5's own `freq` and the table, and the
index advances (R126, R131, R132). -/
theorem Block.sweepModTick_of_modulation {g : SweepRunGate} {b : Block} (h : b.sweepApply.sweepComputes g = true)
    (hmode : b.sweep.swMod = true) :
    (b.sweepModTick g).sweep =
      { modPhaseAdvance b.sweep with
        modFreq := b.sweep.nextModFreq
        nextModFreq := modCand (b.chan .ch5).freq (b.readModt b.sweep.modPhase.toNat) } := by
  rw [Block.sweepModTick, if_pos h, Block.sweepCompute_of_modulation (by simpa using hmode), Block.sweepApply_sweep,
    Block.sweepApply_readModt, Block.sweepApply_chan_ch5, modPhaseAdvance_setModFreq]

@[simp] theorem Block.sweepModTick_modFreq (g : SweepRunGate) (b : Block) :
    (b.sweepModTick g).sweep.modFreq = b.sweep.nextModFreq := by
  by_cases h : b.sweepApply.sweepComputes g = true
  · cases hmode : b.sweep.swMod with
    | false => rw [Block.sweepModTick_of_sweep h hmode]
    | true => rw [Block.sweepModTick_of_modulation h hmode]
  · rw [Block.sweepModTick_of_stops h]

/-- Settles O39: the advance by `modPhaseAdvance_eq`; of the three ends of a secondary tick only modulation moves it. -/
theorem modulationIndexAdvances : Obligations.ModulationIndexAdvances := by
  refine ⟨modPhaseAdvance_eq, fun g b => ⟨fun ⟨h, hmode⟩ => ?_, fun hnot => ?_⟩⟩
  · rw [Block.sweepModTick_of_modulation h hmode]
  · by_cases h : b.sweepApply.sweepComputes g = true
    · have hmode : b.sweep.swMod = false := by simpa [h] using hnot
      rw [Block.sweepModTick_of_sweep h hmode]
    · rw [Block.sweepModTick_of_stops h]

theorem Block.SweepKeeps.sameTables {b b' : Block} (h : b.SweepKeeps b') : SameTables b b' where
  wave a := congrArg (fun m => Memory.read m a) h.wave
  modt a := congrArg (fun m => (Memory.read m a).toInt) h.modt

theorem Block.SweepKeeps.waveRegs {b b' : Block} (h : b.SweepKeeps b') (w : WaveChannel) :
    b'.waveRegs w = b.waveRegs w := congrArg (fun x => Five.get x w) h.waves

/-- Settles O40: the unit's registers by the three ends of the tick, channel 5's `outEn` by the first half, and the rest
kept by the unit (`Block.sweepModTick_keeps`). -/
theorem secondaryTick : Obligations.SecondaryTick := by
  intro g b w out computes b'
  have hcomputes : computes ↔ b.sweepApply.sweepComputes g = true := (b.sweepApply_computes_iff g).symm
  have hkeeps : b.SweepKeeps b' := b.sweepModTick_keeps g
  rw [hcomputes]
  exact ⟨fun c => (b.chan_sweepModTick g c).trans (b.sweepApply_chan c), b.sweepModTick_modFreq g,
    Block.sweepModTick_of_sweep, Block.sweepModTick_of_modulation, Block.sweepModTick_of_stops,
    hkeeps.waveRegs, hkeeps.noise, hkeeps.sameTables, hkeeps.intDiv, hkeeps.envDiv, b.sweepModTick_swDiv g⟩

end Sys2Proof.Machine
end

section
/-! The noise channel's shift register: each bit of a step, and O34. -/

namespace Sys2Proof.Machine

/-! ## LfsrStep bit by bit (R138) -/

/-- The `& 1` of R138 leaves bits 7 and `t` only. -/
theorem lfsrFeedback_eq_xor (sr : BitVec 15) (t : Nat) :
    lfsrFeedback sr t = xor (sr.getLsbD 7) (sr.getLsbD t) := by
  rw [lfsrFeedback, BitVec.getLsbD_xor, BitVec.getLsbD_ushiftRight, BitVec.getLsbD_ushiftRight, Nat.add_zero, Nat.add_zero]

/-- The feedback enters at bit 0, and each other bit comes from the one below it. -/
theorem lfsrNext_getLsbD (sr : BitVec 15) (t : Nat) {i : Nat} (hi : i < 15) :
    (lfsrNext sr t).getLsbD i = if i = 0 then lfsrFeedback sr t else sr.getLsbD (i - 1) := by
  have hlow : (if lfsrFeedback sr t then 1 else 0 : BitVec 15).getLsbD i = (decide (i = 0) && lfsrFeedback sr t) := by
    cases lfsrFeedback sr t <;> simp [BitVec.getLsbD_one]
  rw [lfsrNext, BitVec.getLsbD_or, BitVec.getLsbD_shiftLeft, hlow]
  cases i with
  | zero => simp
  | succ j => simp [hi]

/-! ## The step on the noise registers (R137, R139) -/

@[simp] theorem NoiseRegs.lfsrStep_lfsr (n : NoiseRegs) : n.lfsrStep.lfsr = lfsrNext n.lfsr (tapOffset n.tap) := rfl

@[simp] theorem NoiseRegs.lfsrStep_noiseOut (n : NoiseRegs) :
    n.lfsrStep.noiseOut = if lfsrFeedback n.lfsr (tapOffset n.tap) then 0 else 63 := rfl

@[simp] theorem NoiseRegs.lfsrStep_tap (n : NoiseRegs) : n.lfsrStep.tap = n.tap := rfl

/-- Settles O34: the step shifts the feedback in, and the feedback is bit 7 XOR the tap's bit. -/
theorem lfsrStepBits : Obligations.LfsrStepBits := by
  refine ⟨fun n i hi => ?_, fun n => ?_, NoiseRegs.lfsrStep_tap, by decide⟩
  · rw [NoiseRegs.lfsrStep_lfsr, lfsrNext_getLsbD _ _ hi, lfsrFeedback_eq_xor]
  · rw [NoiseRegs.lfsrStep_noiseOut, lfsrFeedback_eq_xor]

end Sys2Proof.Machine
end

section
/-! The mixer's gain and how it scales a channel's contribution: one rule per case of `gain` and of `Block.contribution`,
and O45. -/

namespace Sys2Proof.Machine

/-! ## The gain (R143) -/

theorem gain_eq_ite_toNat (v e : BitVec 4) :
    gain v e = if v.toNat = 0 ∨ e.toNat = 0 then 0 else v.toNat * e.toNat / 8 + 1 := by
  have hzero (x : BitVec 4) : x = 0 ↔ x.toNat = 0 := BitVec.toNat_inj.symm
  simp only [gain, hzero, Nat.shiftRight_eq_div_pow, Nat.reducePow]

/-- The `+ 1` of R143 keeps the gain of two non-zero operands above 0. -/
theorem gain_eq_zero_iff (v e : BitVec 4) : gain v e = 0 ↔ v.toNat = 0 ∨ e.toNat = 0 := by
  rw [gain_eq_ite_toNat]
  by_cases h : v.toNat = 0 ∨ e.toNat = 0
  · rw [if_pos h]; exact iff_of_true rfl h
  · rw [if_neg h]; exact iff_of_false (Nat.succ_ne_zero _) h

theorem gain_le (v e : BitVec 4) : gain v e ≤ 29 := by
  have hprod : v.toNat * e.toNat ≤ 15 * 15 := Nat.mul_le_mul (Nat.le_of_lt_succ v.isLt) (Nat.le_of_lt_succ e.isLt)
  rw [gain_eq_ite_toNat]
  split_ifs <;> omega

theorem gain_comm (v e : BitVec 4) : gain v e = gain e v := by
  simp only [gain_eq_ite_toNat, Nat.mul_comm, or_comm]

/-! ## A channel's contribution to a side (R144) -/

theorem Block.contribution_of_audible {b : Block} {c : Channel} (h : (b.chan c).outEn = true)
    (vol : ChanRegs → BitVec 4) :
    b.contribution vol c = b.rawSample c * gain (vol (b.chan c)) (b.chan c).envLevel / 2 := by
  rw [Block.contribution, if_pos h, Nat.shiftRight_one]

theorem Block.contribution_of_silent {b : Block} {c : Channel} (h : (b.chan c).outEn = false)
    (vol : ChanRegs → BitVec 4) : b.contribution vol c = 0 := by
  rw [Block.contribution, if_neg (ne_true_of_eq_false h)]

/-- A gain of 0 leaves nothing of the sample, audible or not. -/
theorem Block.contribution_of_gain_eq_zero {b : Block} {vol : ChanRegs → BitVec 4} {c : Channel}
    (h : gain (vol (b.chan c)) (b.chan c).envLevel = 0) : b.contribution vol c = 0 := by
  cases hout : (b.chan c).outEn with
  | false => exact Block.contribution_of_silent hout vol
  | true => rw [Block.contribution_of_audible hout, h, Nat.mul_zero, Nat.zero_div]

/-- Settles O45: the rules of the gain, and the contribution of a channel that is audible, silent, or of gain 0. -/
theorem gainFormulaAndBounds : Obligations.GainFormulaAndBounds := by
  refine ⟨gain_eq_ite_toNat, gain_eq_zero_iff, gain_le, by decide, gain_comm, fun b vol c =>
    ⟨fun hout => Block.contribution_of_audible hout vol, ?_⟩⟩
  rintro (hsilent | hlevel)
  · exact Block.contribution_of_silent hsilent vol
  · exact Block.contribution_of_gain_eq_zero ((gain_eq_zero_iff _ _).mpr hlevel)

end Sys2Proof.Machine
end

section
/-! One step by what stands in the queue and what the decoder makes of it, and O8. -/

namespace Sys2Proof.Machine

/-! ## The step (R48, R49, R64, R163) -/

theorem step_of_waiting {s : State} (h : s.input = []) : step s = .next s := by
  rw [step, State.takeCommand_nil h]

theorem step_of_instr {s : State} {cmd : Command} {rest : List Command} {i : Instr} (h : s.input = cmd :: rest)
    (hd : decode cmd = .instr i) : step s = exec i { s with input := rest } := by
  simp only [step, State.takeCommand_cons h, hd]

theorem step_of_nop {s : State} {cmd : Command} {rest : List Command} {why : NopReason} (h : s.input = cmd :: rest)
    (hd : decode cmd = .nop why) : step s = .next { s with input := rest } := by
  simp only [step, State.takeCommand_cons h, hd]

/-! ## Completion (R150) -/

/-- ADVANCE always runs to completion (R97); every other command completes with the hidden state R38 gives. -/
theorem exec_completes (i : Instr) (s : State) : ∃ t, exec i s = .next t := by
  by_cases hadv : ∃ n, i = .advance n
  · obtain ⟨n, rfl⟩ := hadv
    exact ⟨_, rfl⟩
  · obtain ⟨t, he, _⟩ := exec_hiddenAfter (not_exists.mp hadv) s
    exact ⟨t, he⟩

theorem step_completes (s : State) : ∃ t, step s = .next t := by
  cases hin : s.input with
  | nil => exact ⟨s, step_of_waiting hin⟩
  | cons cmd rest =>
    cases hd : decode cmd with
    | instr i =>
      obtain ⟨t, he⟩ := exec_completes i { s with input := rest }
      exact ⟨t, (step_of_instr hin hd).trans he⟩
    | nop why => exact ⟨_, step_of_nop hin hd⟩

/-- Settles O8: the block waits, drops a NOP, or runs an instruction, and every instruction completes. -/
theorem everyStepCompletes : Obligations.EveryStepCompletes := ⟨step_completes, exec_completes⟩

end Sys2Proof.Machine
end

section
/-! The encoding: the round trip of an operand, what an instruction's encoding and the opcode table's rows stand for, the
reserved encodings in numbers, the assembler's lines, and O1 to O6. -/

namespace Sys2Proof

/-! ## The round trip (R60, R64) -/

@[simp] theorem asBool_boolWord (b : Bool) : asBool (boolWord b) = b := by cases b <;> rfl

/-- Widening an operand to a command's value loses no bit. -/
theorem setWidth_setWidth_word {n : Nat} (h : n ≤ 32) (v : BitVec n) : (v.setWidth 32).setWidth n = v := by
  apply BitVec.eq_of_toNat_eq
  have hv : v.toNat < 2 ^ 32 := Nat.lt_of_lt_of_le v.isLt (Nat.pow_le_pow_right (by decide) h)
  rw [BitVec.toNat_setWidth, BitVec.toNat_setWidth, Nat.mod_eq_of_lt hv, Nat.mod_eq_of_lt v.isLt]

@[simp] theorem asU3_setWidth (v : BitVec 3) : asU3 (v.setWidth 32) = v := setWidth_setWidth_word (by decide) v

@[simp] theorem asU4_setWidth (v : BitVec 4) : asU4 (v.setWidth 32) = v := setWidth_setWidth_word (by decide) v

@[simp] theorem asU5_setWidth (v : BitVec 5) : asU5 (v.setWidth 32) = v := setWidth_setWidth_word (by decide) v

@[simp] theorem asU16_setWidth (v : BitVec 16) : asU16 (v.setWidth 32) = v := setWidth_setWidth_word (by decide) v

/-- The command of a field its channel has decodes to the instruction the reduced operand makes. -/
theorem decode_fieldCommand_eq (k : FieldKind) {c : Channel} {v : Word} {i : Instr} (hk : k.validOn c = true)
    (hi : k.instr c v = i) : decode (fieldCommand k c v) = .instr i :=
  hi ▸ decode_fieldCommand hk v

/-- Settles O1: a field write by its row of R62 and the round trip of its operand, the other three by R63. -/
theorem decodeOfEncode : Obligations.DecodeOfEncode := by
  intro i hwf
  cases i with
  | chen c b => exact decode_fieldCommand_eq .chen rfl (congrArg (Instr.chen c) (asBool_boolWord b))
  | inten c b => exact decode_fieldCommand_eq .inten rfl (congrArg (Instr.inten c) (asBool_boolWord b))
  | intset c v => exact decode_fieldCommand_eq .intset rfl (congrArg (Instr.intset c) (asU5_setWidth v))
  | envrld c v => exact decode_fieldCommand_eq .envrld rfl (congrArg (Instr.envrld c) (asU4_setWidth v))
  | envdir c b => exact decode_fieldCommand_eq .envdir rfl (congrArg (Instr.envdir c) (asBool_boolWord b))
  | envstp c v => exact decode_fieldCommand_eq .envstp rfl (congrArg (Instr.envstp c) (asU5_setWidth v))
  | envrpt c b => exact decode_fieldCommand_eq .envrpt rfl (congrArg (Instr.envrpt c) (asBool_boolWord b))
  | enven c b => exact decode_fieldCommand_eq .enven rfl (congrArg (Instr.enven c) (asBool_boolWord b))
  | freq c v => exact decode_fieldCommand_eq .freq rfl rfl
  | voll c v => exact decode_fieldCommand_eq .voll rfl (congrArg (Instr.voll c) (asU4_setWidth v))
  | volr c v => exact decode_fieldCommand_eq .volr rfl (congrArg (Instr.volr c) (asU4_setWidth v))
  | wavsel c v => exact decode_fieldCommand_eq .wavsel hwf (congrArg (Instr.wavsel c) (asU3_setWidth v))
  | tap v => exact decode_fieldCommand_eq .tap rfl (congrArg Instr.tap (asU3_setWidth v))
  | swdir b => exact decode_fieldCommand_eq .swdir rfl (congrArg Instr.swdir (asBool_boolWord b))
  | swen b => exact decode_fieldCommand_eq .swen rfl (congrArg Instr.swen (asBool_boolWord b))
  | swfunc b => exact decode_fieldCommand_eq .swfunc rfl (congrArg Instr.swfunc (asBool_boolWord b))
  | swint v => exact decode_fieldCommand_eq .swint rfl (congrArg Instr.swint (asU3_setWidth v))
  | swshift v => exact decode_fieldCommand_eq .swshift rfl (congrArg Instr.swshift (asU3_setWidth v))
  | swbase b => exact decode_fieldCommand_eq .swbase rfl (congrArg Instr.swbase (asBool_boolWord b))
  | modfreq v => exact decode_fieldCommand_eq .modfreq rfl (congrArg Instr.modfreq (asU16_setWidth v))
  | modrpt b => exact decode_fieldCommand_eq .modrpt rfl (congrArg Instr.modrpt (asBool_boolWord b))
  | wavup t data => exact decode_wavup t data
  | modup data => exact decode_modup data
  | advance n => exact decode_advance n

/-! ## What decodes encodes to its own row (R62) -/

/-- Of a field's channel and code both are kept by decoding and encoding; the value is reduced. -/
theorem encode_fieldInstr {k : FieldKind} {c : Channel} (h : k.validOn c = true) (v : Word) :
    WellFormed (k.instr c v) ∧ ∃ v', encode (k.instr c v) = fieldCommand k c v' := by
  cases k
  case wavsel => exact ⟨h, _, rfl⟩
  case tap =>
    obtain rfl : c = .ch6 := by simpa [FieldKind.validOn] using h
    exact ⟨rfl, _, rfl⟩
  case swdir | swen | swfunc | swint | swshift | swbase | modfreq | modrpt =>
    obtain rfl : c = .ch5 := by simpa [FieldKind.validOn] using h
    exact ⟨rfl, _, rfl⟩
  all_goals exact ⟨rfl, _, rfl⟩

/-- Settles O3: each of the four commands that decode (`decode_eq_instr`) is its instruction's own but for the value. -/
theorem decodedInstructionsReencode : Obligations.DecodedInstructionsReencode := by
  intro cmd i h
  obtain ⟨k, c, v, hv, rfl, rfl⟩ | ⟨t, data, rfl, rfl⟩ | ⟨data, rfl, rfl⟩ | ⟨n, rfl, rfl⟩ := decode_eq_instr h
  · obtain ⟨hwf, v', he⟩ := encode_fieldInstr hv v
    rw [he]
    exact ⟨hwf, rfl, rfl⟩
  all_goals exact ⟨rfl, rfl, rfl⟩

/-! ## The rows of the opcode table -/

/-- Every instruction's encoding stands in a row of its mnemonic. -/
theorem encodedRow (i : Instr) : Laws.EncodedRow.Statement i := by
  cases i with
  | chen c b => exact Laws.EncodedRow.chen c b
  | inten c b => exact Laws.EncodedRow.inten c b
  | intset c v => exact Laws.EncodedRow.intset c v
  | envrld c v => exact Laws.EncodedRow.envrld c v
  | envdir c b => exact Laws.EncodedRow.envdir c b
  | envstp c v => exact Laws.EncodedRow.envstp c v
  | envrpt c b => exact Laws.EncodedRow.envrpt c b
  | enven c b => exact Laws.EncodedRow.enven c b
  | freq c v => exact Laws.EncodedRow.freq c v
  | voll c v => exact Laws.EncodedRow.voll c v
  | volr c v => exact Laws.EncodedRow.volr c v
  | wavsel c v => exact Laws.EncodedRow.wavsel c v
  | tap v => exact Laws.EncodedRow.tap v
  | swdir b => exact Laws.EncodedRow.swdir b
  | swen b => exact Laws.EncodedRow.swen b
  | swfunc b => exact Laws.EncodedRow.swfunc b
  | swint v => exact Laws.EncodedRow.swint v
  | swshift v => exact Laws.EncodedRow.swshift v
  | swbase b => exact Laws.EncodedRow.swbase b
  | modfreq v => exact Laws.EncodedRow.modfreq v
  | modrpt b => exact Laws.EncodedRow.modrpt b
  | wavup t data => exact Laws.EncodedRow.wavup t data
  | modup data => exact Laws.EncodedRow.modup data
  | advance n => exact Laws.EncodedRow.advance n

/-- The rows of one field: one for each channel that has it (R62). -/
def fieldRows (k : FieldKind) : List OpcodeRow :=
  (Channel.all.filter k.validOn).map fun c => ⟨.field k, .W, fidOf c.selector k.code⟩

/-- The rows of the five wavetable uploads (R63). -/
def wavupRows : List OpcodeRow :=
  (List.finRange 5).map fun t => ⟨.wavup, .T, fidOf 0 (BitVec.ofNat 5 t.val)⟩

/-- The opcode table, row by row, is the map of R62 and R63. -/
theorem opcodeRows_eq : opcodeRows = FieldKind.all.flatMap fieldRows ++ wavupRows ++
    [⟨.modup, .T, fidOf 0 modupCode⟩, ⟨.advance, .W, fidOf 0 advanceCode⟩] := by
  decide

/-- Every row of the opcode table is that of a field on a channel that has it, of an upload, or of ADVANCE. -/
theorem opcodeRows_cases {row : OpcodeRow} (h : row ∈ opcodeRows) :
    (∃ k c, k.validOn c = true ∧ row = ⟨.field k, .W, fidOf c.selector k.code⟩) ∨
    (∃ t : Fin 5, row = ⟨.wavup, .T, fidOf 0 (BitVec.ofNat 5 t.val)⟩) ∨
    row = ⟨.modup, .T, fidOf 0 modupCode⟩ ∨ row = ⟨.advance, .W, fidOf 0 advanceCode⟩ := by
  rw [opcodeRows_eq, List.mem_append, List.mem_append, List.mem_flatMap] at h
  obtain (⟨k, -, hk⟩ | ht) | hg := h
  · obtain ⟨c, hc, rfl⟩ := List.mem_map.mp hk
    exact .inl ⟨k, c, (List.mem_filter.mp hc).2, rfl⟩
  · obtain ⟨t, -, rfl⟩ := List.mem_map.mp ht
    exact .inr (.inl ⟨t, rfl⟩)
  · exact .inr (.inr (by simpa using hg))

theorem instr_mnemonic (k : FieldKind) (c : Channel) (v : Word) : (k.instr c v).mnemonic = .field k := by
  cases k <;> rfl

theorem Command.eq_w {cmd : Command} (h : cmd.format = .W) : ∃ v, cmd = .w cmd.fid v := by
  cases cmd with
  | w fid v => exact ⟨v, rfl⟩
  | t fid data => cases h

theorem Command.eq_t {cmd : Command} (h : cmd.format = .T) : ∃ data, cmd = .t cmd.fid data := by
  cases cmd with
  | w fid v => cases h
  | t fid data => exact ⟨data, rfl⟩

/-- A command of a row's format and fid decodes to an instruction of the row's mnemonic. -/
theorem decode_of_row {row : OpcodeRow} (hrow : row ∈ opcodeRows) {cmd : Command} (hformat : cmd.format = row.format)
    (hfid : cmd.fid = row.fid) : ∃ i, decode cmd = .instr i ∧ i.mnemonic = row.mnemonic := by
  obtain ⟨k, c, hk, rfl⟩ | ⟨t, rfl⟩ | rfl | rfl := opcodeRows_cases hrow
  · obtain ⟨v, hcmd⟩ := Command.eq_w hformat
    rw [hcmd, hfid]
    exact ⟨_, decode_fieldCommand hk v, instr_mnemonic k c v⟩
  · obtain ⟨data, hcmd⟩ := Command.eq_t hformat
    rw [hcmd, hfid]
    exact ⟨_, decode_wavup t data, rfl⟩
  · obtain ⟨data, hcmd⟩ := Command.eq_t hformat
    rw [hcmd, hfid]
    exact ⟨_, decode_modup data, rfl⟩
  · obtain ⟨v, hcmd⟩ := Command.eq_w hformat
    rw [hcmd, hfid]
    exact ⟨_, decode_advance v, rfl⟩

/-- Settles O2: an instruction's encoding stands in a row (`encodedRow`), and each row decodes (`decode_of_row`). -/
theorem decodeMatchesOpcodeTable : Obligations.DecodeMatchesOpcodeTable := by
  refine ⟨fun cmd i h => ?_, fun row hrow cmd => decode_of_row hrow⟩
  obtain ⟨hwf, hformat, hfid⟩ := decodedInstructionsReencode cmd i h
  obtain ⟨row, hrow, hm, hf, hi⟩ := encodedRow i hwf
  exact ⟨row, hrow, hm, hf.trans hformat, hi.trans hfid⟩

/-! ## The reserved encodings in numbers (R65, R66) -/

theorem fidSelector_toNat (fid : Byte) : (fidSelector fid).toNat = fid.toNat / 32 := by
  have := fid.isLt
  simp only [fidSelector, BitVec.extractLsb'_toNat, Nat.shiftRight_eq_div_pow]
  omega

theorem fidCode_toNat (fid : Byte) : (fidCode fid).toNat = fid.toNat % 32 := by
  simp only [fidCode, BitVec.extractLsb'_toNat, Nat.shiftRight_zero]

/-- Selector 7 names no channel (R59). -/
theorem ofSelector_eq_none_iff {sel : BitVec 3} (h : sel ≠ 0) : Channel.ofSelector sel = none ↔ sel.toNat = 7 := by
  revert sel; decide

theorem selector_toNat_mem (c : Channel) : 1 ≤ c.selector.toNat ∧ c.selector.toNat ≤ 6 := by
  cases c <;> decide

/-- The codes of R62's table that no field has. -/
theorem ofCode_eq_none_iff (code : BitVec 5) :
    FieldKind.ofCode code = none ↔ (0x0D ≤ code.toNat ∧ code.toNat ≤ 0x0F) ∨ 0x18 ≤ code.toNat := by
  revert code; decide

/-- The fields a channel lacks (R66), by channel and code. -/
theorem validOn_eq_false_iff (k : FieldKind) (c : Channel) :
    k.validOn c = false ↔
      (k.code.toNat = 0x0B ∧ c.selector.toNat = 6) ∨ (k.code.toNat = 0x0C ∧ c.selector.toNat ≤ 5) ∨
      (0x10 ≤ k.code.toNat ∧ k.code.toNat ≤ 0x17 ∧ c.selector.toNat ≠ 5) := by
  cases k <;> cases c <;> decide

/-- The global commands that are no operation: every code but that of the format's own commands (R63, R65). -/
theorem decodeGlobal_nop_iff (code : BitVec 5) (cmd : Command) :
    (∃ why, decodeGlobal code cmd = .nop why) ↔
      (cmd.format = .T ∧ 5 < code.toNat) ∨ (cmd.format = .W ∧ code.toNat ≠ 0x1F) := by
  have hmodup : code = modupCode ↔ code.toNat = 5 := BitVec.toNat_inj.symm
  have hadv : code = advanceCode ↔ code.toNat = 0x1F := BitVec.toNat_inj.symm
  cases cmd with
  | w fid v =>
    simp only [decodeGlobal, hadv, Command.format, reduceCtorEq, false_and, true_and, false_or]
    split_ifs <;> simp_all
  | t fid data =>
    simp only [decodeGlobal, hmodup, hadv, Command.format, reduceCtorEq, false_and, true_and, or_false]
    split_ifs <;> simp <;> omega

/-- The per-channel commands that are no operation (R62, R65, R66). -/
theorem decodeField_nop_iff (c : Channel) (code : BitVec 5) (cmd : Command) :
    (∃ why, decodeField c code cmd = .nop why) ↔
      cmd.format = .T ∨ ((0x0D ≤ code.toNat ∧ code.toNat ≤ 0x0F) ∨ 0x18 ≤ code.toNat) ∨
      (code.toNat = 0x0B ∧ c.selector.toNat = 6) ∨ (code.toNat = 0x0C ∧ c.selector.toNat ≤ 5) ∨
      (0x10 ≤ code.toNat ∧ code.toNat ≤ 0x17 ∧ c.selector.toNat ≠ 5) := by
  unfold decodeField
  cases hk : FieldKind.ofCode code with
  | none =>
    have hcode := (ofCode_eq_none_iff code).mp hk
    exact iff_of_true ⟨_, rfl⟩ (.inr (.inl hcode))
  | some k =>
    have hcode := mt (ofCode_eq_none_iff code).mpr (by simp [hk])
    obtain rfl := ofCode_eq_some hk
    rw [← validOn_eq_false_iff, or_iff_right hcode]
    simp only
    cases k.validOn c <;> cases cmd <;> simp [Command.format]

/-- Settles O4: the selector says which decoder answers; each one's no-operations are listed above. -/
theorem nopCommandsAreTheReservedSet : Obligations.NopCommandsAreTheReservedSet := by
  intro cmd
  extract_lets chan code
  have hchan : (fidSelector cmd.fid).toNat = chan := fidSelector_toNat cmd.fid
  have hcode : (fidCode cmd.fid).toNat = code := fidCode_toNat cmd.fid
  have hfid : cmd.fid.toNat = 32 * chan + code := (Nat.div_add_mod ..).symm
  have hlt : code < 32 := Nat.mod_lt _ (by decide)
  have hformat : cmd.format = .T ∨ cmd.format = .W := by cases cmd <;> simp [Command.format]
  unfold decode
  by_cases h0 : fidSelector cmd.fid = 0
  · have hzero : chan = 0 := by rw [← hchan, h0]; rfl
    rw [if_pos h0, decodeGlobal_nop_iff, hcode, hfid, hzero]
    obtain hf | hf := hformat <;> simp only [hf, reduceCtorEq, true_and, false_and, or_false, false_or] <;> omega
  · rw [if_neg h0]
    cases hc : Channel.ofSelector (fidSelector cmd.fid) with
    | none =>
      have hseven := (ofSelector_eq_none_iff h0).mp hc
      exact iff_of_true ⟨_, rfl⟩ (.inl (hchan.symm.trans hseven))
    | some c =>
      have hsel : c.selector.toNat = chan := by rw [ofSelector_eq_some hc, hchan]
      obtain ⟨hlo, hhi⟩ := selector_toNat_mem c
      rw [hsel] at hlo hhi
      show (∃ why, decodeField c (fidCode cmd.fid) cmd = .nop why) ↔ _
      rw [decodeField_nop_iff, hcode, hsel, hfid]
      obtain hf | hf := hformat <;> simp only [hf, reduceCtorEq, true_and, false_and, false_or, true_or,
        true_iff] <;> omega

/-! ## Samples and assembler lines (R68, R69) -/

/-- Settles O5: each sample is computed; the uploads by the rows of R63. -/
theorem sampleCommandsDecode : Obligations.SampleCommandsDecode :=
  ⟨by decide, by decide, by decide, by decide, by decide, by decide, by decide, by decide, decode_wavup 0, decode_modup,
    by decide⟩

/-- The "valid channels" column of R62 as the assembler's condition on a line (R68). -/
theorem validOn_iff (k : FieldKind) (c : Channel) :
    k.validOn c = true ↔ (k = .wavsel → c ≠ .ch6) ∧ (k = .tap → c = .ch6) ∧
      (k ∈ [.swdir, .swen, .swfunc, .swint, .swshift, .swbase, .modfreq, .modrpt] → c = .ch5) := by
  cases k <;> cases c <;> decide

theorem fieldCommand_eq (k : FieldKind) (c : Channel) (v : Word) :
    fieldCommand k c v = .w (Machine.fieldFid c k.code.toNat) v := by
  rw [fieldCommand, Machine.fieldFid_code]

theorem AsmLine.assemble_field {k : FieldKind} {c : Channel} (h : k.validOn c = true) (v : Word) :
    (AsmLine.field k c v).assemble = some (.w (Machine.fieldFid c k.code.toNat) v) := by
  rw [AsmLine.assemble, if_pos h, fieldCommand_eq]

theorem AsmLine.assemble_wavup (t : Fin 5) (data : Payload) :
    (AsmLine.wavup t data).assemble = some (.t (BitVec.ofNat 8 t.val) data) := by
  rw [← Machine.fidOf_wavup]
  rfl

/-- A pseudo-instruction expands only to uploads, RAW lines, and fields that every channel has (R69). -/
theorem Pseudo.expand_assembles (p : Pseudo) {l : AsmLine} (h : l ∈ p.expand) : ∃ cmd, l.assemble = some cmd := by
  cases p with
  | nop | play | stop | wavefill =>
    obtain rfl := List.mem_singleton.mp h
    exact ⟨_, rfl⟩
  | vol | duration =>
    simp only [Pseudo.expand, List.mem_cons, List.not_mem_nil, or_false] at h
    obtain rfl | rfl := h <;> exact ⟨_, rfl⟩
  | env =>
    simp only [Pseudo.expand, List.mem_cons, List.not_mem_nil, or_false] at h
    obtain rfl | rfl | rfl | rfl | rfl := h <;> exact ⟨_, rfl⟩

/-- DURATION ends with INTEN, which makes its channel audible (R69, R72). -/
theorem duration_audible (c : Channel) (v : BitVec 5) (s : Machine.State) :
    ∃ t, Machine.execAll [.intset c v, .inten c true] s = .next t ∧ (t.chan c).outEn = true :=
  ⟨_, rfl, by simp [Machine.State.chan, Machine.ChanRegs.setOutEn]⟩

/-- Settles O6: a field line by its row of R62 (`AsmLine.assemble_field`), the other lines by R63. -/
theorem assemblerLinesDecode : Obligations.AssemblerLinesDecode := by
  refine ⟨fun k c v => ?_, fun t data => ⟨AsmLine.assemble_wavup t data, ?_⟩, fun data => ⟨rfl, decode_modup data⟩,
    fun n => ⟨rfl, decode_advance n⟩, fun _ _ => rfl, ⟨rfl, .reservedChannel, by decide⟩, fun _ => ⟨rfl, rfl⟩,
    fun _ _ _ => rfl, fun _ _ _ _ _ => rfl, fun _ _ => rfl, fun t b => ⟨Payload.fill b, rfl, rfl⟩,
    fun p _ => p.expand_assembles, duration_audible⟩
  · rw [← validOn_iff]
    refine ⟨fun h => ⟨AsmLine.assemble_field h v, Machine.decode_fieldFid k h rfl, instr_mnemonic k c v⟩, fun h => ?_⟩
    exact if_neg h
  · rw [← Machine.fidOf_wavup]
    exact decode_wavup t data

end Sys2Proof
end

section
/-! The mixer over all channels: a channel's raw sample, how near a contribution comes to full scale, the quantised sum, a
silent block, and O46 and O47. -/

namespace Sys2Proof.Machine

/-! ## Samples (R122, R139) -/

/-- Every entry of the wavetable space fits six bits (R42). -/
theorem Block.Inv.readWave_lt {p : Params} {b : Block} (h : b.Inv p) (a : Nat) : (b.readWave a).toNat < 64 := by
  obtain hu | hm := Memory.read_cases b.wave a
  · rw [Block.readWave, hu]; decide
  · exact (h.waveCells _ hm).2

theorem Block.waveSample_of_select_above {b : Block} {w : WaveChannel} (h : 4 < (b.waveRegs w).wave.toNat) :
    b.waveSample w = 0 := if_pos h

theorem Block.waveSample_of_select {b : Block} {w : WaveChannel} (h : (b.waveRegs w).wave.toNat ≤ 4) :
    b.waveSample w =
      (b.readWave (waveAddress (b.waveRegs w).wave.toNat (b.waveRegs w).phase.toNat)).toNat :=
  if_neg (Nat.not_lt.mpr h)

theorem Block.Inv.waveSample_le {p : Params} {b : Block} (h : b.Inv p) (w : WaveChannel) : b.waveSample w ≤ 63 := by
  obtain hs | hs := Nat.lt_or_ge 4 (b.waveRegs w).wave.toNat
  · rw [Block.waveSample_of_select_above hs]; decide
  · rw [Block.waveSample_of_select hs]; exact Nat.le_of_lt_succ (h.readWave_lt _)

@[simp] theorem Block.rawSample_channel (b : Block) (w : WaveChannel) : b.rawSample w.channel = b.waveSample w := by
  cases w <;> rfl

theorem Block.rawSample_ch6 (b : Block) : b.rawSample .ch6 = b.noise.noiseOut.toNat := rfl

theorem Block.Inv.rawSample_ch6 {p : Params} {b : Block} (h : b.Inv p) :
    b.rawSample .ch6 = 0 ∨ b.rawSample .ch6 = 63 := by
  obtain ho | ho := h.noiseOut <;> simp [Block.rawSample_ch6, ho]

theorem Block.Inv.rawSample_le {p : Params} {b : Block} (h : b.Inv p) (c : Channel) : b.rawSample c ≤ 63 := by
  cases hc : c.wave? with
  | some w => rw [wave?_eq_some hc, Block.rawSample_channel]; exact h.waveSample_le w
  | none =>
    rw [wave?_eq_none.mp hc]
    obtain h6 | h6 := h.rawSample_ch6 <;> omega

/-- Settles O46: the table by `Block.waveSample_of_select`, its range and that of `noiseOut` by the invariant. -/
theorem waveSampleReadsSelectedTable : Obligations.WaveSampleReadsSelectedTable := fun s hs =>
  ⟨fun w => ⟨Block.waveSample_of_select_above, Block.waveSample_of_select, hs.block.waveSample_le w,
    s.block.rawSample_channel w⟩, s.block.rawSample_ch6, hs.block.rawSample_ch6⟩

/-! ## Contributions near full scale (R145) -/

/-- A channel at its loudest on a side: audible, its sample 63 and its gain 29. -/
def Block.atFullScale (b : Block) (vol : ChanRegs → BitVec 4) (c : Channel) : Prop :=
  (b.chan c).outEn = true ∧ b.rawSample c = 63 ∧ gain (vol (b.chan c)) (b.chan c).envLevel = 29

theorem Block.contribution_of_atFullScale {b : Block} {vol : ChanRegs → BitVec 4} {c : Channel}
    (h : b.atFullScale vol c) : b.contribution vol c = 913 := by
  obtain ⟨hout, hraw, hgain⟩ := h
  rw [Block.contribution_of_audible hout, hraw, hgain]

/-- Short of full scale a contribution is at most 899: no value lies between 899 and 913. -/
theorem Block.contribution_of_not_atFullScale {b : Block} {vol : ChanRegs → BitVec 4} {c : Channel}
    (hle : b.rawSample c ≤ 63) (h : ¬ b.atFullScale vol c) : b.contribution vol c ≤ 899 := by
  cases hout : (b.chan c).outEn with
  | false => rw [Block.contribution_of_silent hout]; decide
  | true =>
    have hgain := gain_le (vol (b.chan c)) (b.chan c).envLevel
    have hbelow : b.rawSample c ≤ 62 ∨ gain (vol (b.chan c)) (b.chan c).envLevel ≤ 28 := by
      by_contra hboth
      exact h ⟨hout, by omega, by omega⟩
    have hprod : b.rawSample c * gain (vol (b.chan c)) (b.chan c).envLevel ≤ 62 * 29 := by
      obtain hs | hg := hbelow
      · exact Nat.mul_le_mul hs hgain
      · exact (Nat.mul_le_mul hle hg).trans (by decide)
    rw [Block.contribution_of_audible hout]
    omega

theorem Block.Inv.contribution_le {p : Params} {b : Block} (h : b.Inv p) (vol : ChanRegs → BitVec 4) (c : Channel) :
    b.contribution vol c ≤ 913 := by
  by_cases hfull : b.atFullScale vol c
  · exact Nat.le_of_eq (Block.contribution_of_atFullScale hfull)
  · exact (Block.contribution_of_not_atFullScale (h.rawSample_le c) hfull).trans (by decide)

/-! ## The quantised sum (R144, R146) -/

theorem Block.sideSum_eq (b : Block) (vol : ChanRegs → BitVec 4) :
    b.sideSum vol = b.contribution vol .ch1 + b.contribution vol .ch2 + b.contribution vol .ch3 +
      b.contribution vol .ch4 + b.contribution vol .ch5 + b.contribution vol .ch6 := by
  simp [Block.sideSum, Channel.all, Nat.add_assoc]

theorem Block.Inv.sideSum_le {p : Params} {b : Block} (h : b.Inv p) (vol : ChanRegs → BitVec 4) :
    b.sideSum vol ≤ 5478 := by
  have hle := h.contribution_le vol
  have h1 := hle .ch1; have h2 := hle .ch2; have h3 := hle .ch3
  have h4 := hle .ch4; have h5 := hle .ch5; have h6 := hle .ch6
  rw [Block.sideSum_eq]
  omega

/-- The mask 0xFFF8 clears the low three bits of a 16-bit number. -/
theorem and_mask_eq {l : Nat} (h : l < 2 ^ 16) : l &&& 0xFFF8 = l - l % 8 := by
  have hclear : l - l % 8 = l >>> 3 <<< 3 := by
    rw [Nat.shiftRight_eq_div_pow, Nat.shiftLeft_eq]; omega
  have hmask : (0xFFF8 : Nat) = (2 ^ 13 - 1) <<< 3 := rfl
  rw [hclear, hmask]
  apply Nat.eq_of_testBit_eq
  intro i
  rw [Nat.testBit_and, Nat.testBit_shiftLeft, Nat.testBit_shiftLeft, Nat.testBit_two_pow_sub_one,
    Nat.testBit_shiftRight]
  by_cases hlo : 3 ≤ i
  · rw [Nat.add_sub_cancel' hlo]
    by_cases hhi : i < 16
    · simp [hlo, show i - 3 < 13 by omega]
    · have hbit : l.testBit i = false :=
        Nat.testBit_lt_two_pow (Nat.lt_of_lt_of_le h (Nat.pow_le_pow_right (by decide) (Nat.not_lt.mp hhi)))
      simp [hbit]
  · simp [hlo]

theorem quantise_eq {l : Nat} (h : l < 2 ^ 16) : quantise l = (l - l % 8) * 4 := by
  rw [quantise, and_mask_eq h, Nat.shiftLeft_eq]

theorem Block.Inv.quantise_sideSum {p : Params} {b : Block} (h : b.Inv p) (vol : ChanRegs → BitVec 4) :
    quantise (b.sideSum vol) = (b.sideSum vol - b.sideSum vol % 8) * 4 :=
  quantise_eq (Nat.lt_of_le_of_lt (h.sideSum_le vol) (by decide))

/-- Every output of the mixer is a multiple of 32 in 0..21888 (R145). -/
theorem Block.Inv.quantise_sideSum_range {p : Params} {b : Block} (h : b.Inv p) (vol : ChanRegs → BitVec 4) :
    quantise (b.sideSum vol) % 32 = 0 ∧ quantise (b.sideSum vol) ≤ 21888 := by
  have hle := h.sideSum_le vol
  rw [h.quantise_sideSum]
  omega

/-- One channel short of full scale keeps the sum below 5472, the least that quantises to 21888. -/
theorem Block.Inv.quantise_eq_fullScale_iff {p : Params} {b : Block} (h : b.Inv p) (vol : ChanRegs → BitVec 4) :
    quantise (b.sideSum vol) = 21888 ↔ ∀ c, b.atFullScale vol c := by
  rw [h.quantise_sideSum]
  constructor
  · intro hq c
    by_contra hc
    have hshort := Block.contribution_of_not_atFullScale (h.rawSample_le c) hc
    have hsum := b.sideSum_eq vol
    have hle := h.contribution_le vol
    have h1 := hle .ch1; have h2 := hle .ch2; have h3 := hle .ch3
    have h4 := hle .ch4; have h5 := hle .ch5; have h6 := hle .ch6
    cases c <;> omega
  · intro hfull
    simp only [Block.sideSum_eq, fun c => Block.contribution_of_atFullScale (hfull c)]

/-- Settles O47: the sum by its six contributions (`Block.sideSum_eq`), its bounds and quantisation by the invariant. -/
theorem mixRanges : Obligations.MixRanges := by
  intro s hs
  extract_lets total
  have htotal : ∀ vol, s.block.sideSum vol = total vol := s.block.sideSum_eq
  have hquant := hs.block.quantise_sideSum
  refine ⟨?_, ?_, fun vol => ⟨hs.block.contribution_le vol, htotal vol, hs.block.sideSum_le vol, hquant vol,
    (hs.block.quantise_sideSum_range vol).1, (hs.block.quantise_sideSum_range vol).2,
    hs.block.quantise_eq_fullScale_iff vol⟩⟩
  · rw [← htotal, Nat.mul_comm]; exact hquant _
  · rw [← htotal, Nat.mul_comm]; exact hquant _

end Sys2Proof.Machine
end

section
/-! ADVANCE as a run of cycles: the state and the samples it leaves, what no run changes, silence, and O19 to O21, O30 and
O48. -/

namespace Sys2Proof.Machine

/-! ## The state after an ADVANCE (R97) -/

/-- What `n` cycles return to the host: the samples of their frames (R149). -/
def State.returned (s : State) (n : Nat) : Returned :=
  returnedOf s.cfg.outputFloatFormat (s.block.runCycles s.cfg n).2

/-- The machine after `n` cycles: the block has run them and their samples are handed over. -/
def State.afterCycles (s : State) (n : Nat) : State :=
  (s.onBlock (Block.tick s.cfg)^[n]).emit (s.returned n)

theorem exec_advance (n : Word) (s : State) : exec (.advance n) s = .next (s.afterCycles n.toNat) := by
  rw [State.afterCycles, State.onBlock, ← Block.runCycles_fst]
  rfl

@[simp] theorem State.afterCycles_block (s : State) (n : Nat) :
    (s.afterCycles n).block = (Block.tick s.cfg)^[n] s.block := rfl
@[simp] theorem State.afterCycles_cfg (s : State) (n : Nat) : (s.afterCycles n).cfg = s.cfg := rfl
@[simp] theorem State.afterCycles_output (s : State) (n : Nat) :
    (s.afterCycles n).output = s.output ++ [s.returned n] := rfl

theorem Block.runCycles_getElem? (p : Params) (b : Block) {n k : Nat} (hk : k < n) :
    (b.runCycles p n).2[k]? = some ((Block.tick p)^[k + 1] b).mix := by
  rw [Block.runCycles_snd, List.getElem?_map, List.getElem?_range hk, Option.map_some]

/-- Settles O19: the run by `exec_advance`, and sample `k` by the frame of cycle `k` (`Block.runCycles_getElem?`). -/
theorem advanceRunsAllCycles : Obligations.AdvanceRunsAllCycles := by
  refine ⟨decode_advance, fun n s => ⟨_, s.returned n.toNat, exec_advance n s, rfl, rfl, rfl, rfl, ?_, ?_,
    fun k hk => ?_⟩⟩
  · simp [State.returned, returnedOf, Block.runCycles_length]
  · simp [State.returned, returnedOf, Block.runCycles_length]
  · simp [State.returned, returnedOf, Block.runCycles_getElem? s.cfg s.block hk]

/-! ## Two runs in a row (R52) -/

theorem returnedOf_append (fmt : FloatFormat) (f g : List Frame) :
    returnedOf fmt (f ++ g) =
      ⟨(returnedOf fmt f).left ++ (returnedOf fmt g).left, (returnedOf fmt f).right ++ (returnedOf fmt g).right⟩ := by
  simp [returnedOf]

theorem State.returned_add (s : State) (m n : Nat) :
    s.returned (m + n) =
      ⟨(s.returned m).left ++ ((s.afterCycles m).returned n).left,
        (s.returned m).right ++ ((s.afterCycles m).returned n).right⟩ := by
  simp only [State.returned, State.afterCycles_cfg, State.afterCycles_block, Block.runCycles_add, returnedOf_append,
    Block.runCycles_fst]

/-- Settles O21: the cycles compose as iterates, the samples by `State.returned_add`. -/
theorem advanceComposes : Obligations.AdvanceComposes := by
  intro a b s hlt
  have hadd : (a + b).toNat = b.toNat + a.toNat := by rw [BitVec.toNat_add_of_lt hlt, Nat.add_comm]
  refine ⟨(s.afterCycles a.toNat).afterCycles b.toNat, _, s.returned a.toNat, (s.afterCycles a.toNat).returned b.toNat,
    ?_, exec_advance (a + b) s, ?_, ?_, ?_⟩
  · simp only [execAll, exec_advance]
  · rw [hadd]
    exact (Function.iterate_add_apply (Block.tick s.cfg) b.toNat a.toNat s.block).symm
  · simp
  · rw [hadd, Nat.add_comm, State.afterCycles_output, State.returned_add]

/-! ## What no run of cycles changes (R36, R37) -/

/-- What every cycle keeps holds after a run of cycles if it holds before. -/
theorem Block.iterate_tick_induction {p : Params} (P : Block → Prop) (hstep : ∀ b, P b → P (b.tick p)) {b : Block}
    (h : P b) (n : Nat) : P ((Block.tick p)^[n] b) :=
  Block.runCycles_fst p n b ▸ Block.runCycles_induction hstep h n

theorem Block.iterate_tick_tables (p : Params) (n : Nat) (b : Block) :
    ((Block.tick p)^[n] b).wave = b.wave ∧ ((Block.tick p)^[n] b).modt = b.modt :=
  Block.iterate_tick_induction (fun b' => b'.wave = b.wave ∧ b'.modt = b.modt)
    (fun b' h => ⟨(b'.tick_tables p).1.trans h.1, (b'.tick_tables p).2.trans h.2⟩) ⟨rfl, rfl⟩ n

theorem Block.iterate_tick_sameTables (p : Params) (n : Nat) (b : Block) : SameTables b ((Block.tick p)^[n] b) := by
  obtain ⟨hw, hm⟩ := b.iterate_tick_tables p n
  exact ⟨fun a => congrArg (Memory.read · a) hw, fun a => congrArg (fun m => (Memory.read m a).toInt) hm⟩

theorem Block.iterate_tick_settings (p : Params) (n : Nat) (b : Block) (c : Channel) :
    (b.chan c).SameSettings (((Block.tick p)^[n] b).chan c) :=
  Block.iterate_tick_induction (fun b' => (b.chan c).SameSettings (b'.chan c))
    (fun b' h => h.trans (b'.tick_settings p c)) (.refl _) n

theorem Block.iterate_tick_sweepSettings (p : Params) (n : Nat) (b : Block) :
    b.sweep.SameSettings ((Block.tick p)^[n] b).sweep :=
  Block.iterate_tick_induction (fun b' => b.sweep.SameSettings b'.sweep)
    (fun b' h => h.trans (b'.tick_sweepSettings p)) (.refl _) n

theorem Block.iterate_tick_waveSelect (p : Params) (n : Nat) (b : Block) (w : WaveChannel) :
    (((Block.tick p)^[n] b).waveRegs w).wave = (b.waveRegs w).wave :=
  Block.iterate_tick_induction (fun b' => (b'.waveRegs w).wave = (b.waveRegs w).wave)
    (fun b' h => (b'.tick_waveSelect p w).trans h) rfl n

theorem Block.iterate_tick_tap (p : Params) (n : Nat) (b : Block) :
    ((Block.tick p)^[n] b).noise.tap = b.noise.tap :=
  Block.iterate_tick_induction (fun b' => b'.noise.tap = b.noise.tap) (fun b' h => (b'.tick_tap p).trans h) rfl n

/-- Settles O20: every cycle keeps the tables and the settings, and so does a run of them. -/
theorem advanceKeepsHostSettings : Obligations.AdvanceKeepsHostSettings := fun n s =>
  ⟨_, exec_advance n s, s.block.iterate_tick_sameTables s.cfg n.toNat, s.block.iterate_tick_settings s.cfg n.toNat,
    s.block.iterate_tick_waveSelect s.cfg n.toNat, s.block.iterate_tick_sweepSettings s.cfg n.toNat,
    s.block.iterate_tick_tap s.cfg n.toNat⟩

/-! ## Silence (R114, R115, R147) -/

theorem Block.tick_outEn_of_silent {p : Params} {b : Block} {c : Channel} (h : (b.chan c).outEn = false) :
    ((b.tick p).chan c).outEn = false := by
  rw [Bool.eq_false_iff, ne_eq, Block.tick_outEn, Block.slowTicked_outEn, h]
  simp

theorem Block.tick_intCnt_of_silent {p : Params} {b : Block} {c : Channel} (h : (b.chan c).outEn = false) :
    ((b.tick p).chan c).intCnt = (b.chan c).intCnt := by
  rw [Block.tick_intCnt, h]
  simp

theorem Block.iterate_tick_silent {p : Params} {b : Block} {c : Channel} (h : (b.chan c).outEn = false) (n : Nat) :
    (((Block.tick p)^[n] b).chan c).outEn = false ∧
    (((Block.tick p)^[n] b).chan c).intCnt = (b.chan c).intCnt :=
  Block.iterate_tick_induction (fun b' => (b'.chan c).outEn = false ∧ (b'.chan c).intCnt = (b.chan c).intCnt)
    (fun _ hb => ⟨Block.tick_outEn_of_silent hb.1, (Block.tick_intCnt_of_silent hb.1).trans hb.2⟩) ⟨h, rfl⟩ n

/-- Settles O30: no cycle makes a silent channel audible or counts its duration. -/
theorem silentChannelStaysSilent : Obligations.SilentChannelStaysSilent := fun n s _ h =>
  ⟨_, exec_advance n s, Block.iterate_tick_silent h n.toNat⟩

theorem Block.sideSum_of_silent {b : Block} (h : ∀ c, (b.chan c).outEn = false) (vol : ChanRegs → BitVec 4) :
    b.sideSum vol = 0 := by
  simp only [Block.sideSum_eq, fun c => Block.contribution_of_silent (h c) vol]

theorem Block.mix_of_silent {b : Block} (h : ∀ c, (b.chan c).outEn = false) : b.mix = ⟨0, 0⟩ := by
  simp only [Block.mix, Block.sideSum_of_silent h]
  rfl

/-- Every sample an ADVANCE returns is that of one side of a cycle's mix. -/
theorem State.mem_returned {s : State} {n : Nat} {x : Sample}
    (h : x ∈ (s.returned n).left ∨ x ∈ (s.returned n).right) :
    ∃ k, let frame := ((Block.tick s.cfg)^[k] s.block).mix
      x = outSample s.cfg.outputFloatFormat frame.ql ∨ x = outSample s.cfg.outputFloatFormat frame.qr := by
  simp only [State.returned, returnedOf, Block.runCycles_snd, List.map_map, List.mem_map, Function.comp_apply] at h
  obtain ⟨k, -, rfl⟩ | ⟨k, -, rfl⟩ := h
  · exact ⟨k + 1, .inl rfl⟩
  · exact ⟨k + 1, .inr rfl⟩

theorem outSample_zero (fmt : FloatFormat) :
    outSample fmt 0 = ⟨0, match fmt with | .binary64 => .b64 0 | .binary32 => .b32 0⟩ := by
  cases fmt <;> rfl

/-- Settles O48: silent channels stay silent, so every frame of the run is ⟨0, 0⟩ (`Block.mix_of_silent`). -/
theorem silentBlockPlaysZero : Obligations.SilentBlockPlaysZero := by
  refine ⟨fun b h => ⟨Block.sideSum_of_silent h, Block.mix_of_silent h⟩, fun n s h => ?_, fun c => by cases c <;> rfl⟩
  refine ⟨_, s.returned n.toNat, exec_advance n s, rfl, fun x hx => ?_⟩
  obtain ⟨k, hk⟩ := State.mem_returned hx
  have hsilent (c : Channel) := (Block.iterate_tick_silent (p := s.cfg) (h c) k).1
  rw [Block.mix_of_silent hsilent, or_self, outSample_zero] at hk
  subst hk
  exact ⟨rfl, by cases s.cfg.outputFloatFormat <;> rfl⟩

end Sys2Proof.Machine
end

section
/-! The machine's invariant: a cycle keeps it, the tables' part through an upload, the rest by the hidden state of R38, and
O7 and O51 to O54. -/

namespace Sys2Proof.Machine

/-- Settles O7: the three cases of a step. -/
theorem stepRunsOldestCommand : Obligations.StepRunsOldestCommand :=
  ⟨fun _ _ _ hin => ⟨fun _ => step_of_instr hin, fun _ => step_of_nop hin⟩, fun _ => step_of_waiting⟩

/-! ## A cycle (R27, R30, R32, R34, R106) -/

/-- An envelope counter never passes `envStep` by more than the tick that clears it (R27). -/
theorem envelopeTick_envCnt_le {r : ChanRegs} (h : r.envCnt ≤ 31) : (envelopeTick r).envCnt ≤ 31 := by
  obtain ⟨-, ht⟩ | ⟨-, hle, ht⟩ | ⟨-, -, ht⟩ := envelopeTick_cases r <;> rw [ht]
  · exact h
  · exact hle.trans (Nat.le_of_lt_succ r.envStep.isLt)
  · exact Nat.zero_le _

theorem Block.tick_envCnt_le {p : Params} {b : Block} {c : Channel} (h : (b.chan c).envCnt ≤ 31) :
    ((b.tick p).chan c).envCnt ≤ 31 := by
  rw [(b.tick_envelope p c).1, Block.envelopeTicked]
  split_ifs
  · exact envelopeTick_envCnt_le h
  · exact h

theorem Block.tick_phCnt_le (p : Params) (b : Block) (c : Channel) : ((b.tick p).chan c).phCnt ≤ 2047 := by
  obtain ⟨o, ph, -, -, hph, h⟩ := b.tick_chan p c
  rw [h]
  exact hph

theorem Block.tick_swCnt_le {p : Params} {b : Block} (h : b.sweep.swCnt ≤ 7) : (b.tick p).sweep.swCnt ≤ 7 := by
  have hsweep := (b.slowDividers p).2.2.2.2.2.1
  rw [Block.tick_sweep]
  rw [← hsweep] at h
  generalize (b.intervalDivider p).envelopeDivider p = b' at h ⊢
  by_cases hfires : sweepPeriod b'.sweep.swLong ≤ b'.swDiv + 1
  · rw [Block.sweepModDivider_fires hfires]
    exact Block.sweepModBaseTick_swCnt p _ h
  · rw [Block.sweepModDivider_counts hfires]
    exact h

theorem sweepPeriod_le (swLong : Bool) : sweepPeriod swLong ≤ 320 := by cases swLong <;> decide

theorem NoiseRegs.lfsrStep_noiseOut_mem (n : NoiseRegs) : n.lfsrStep.noiseOut = 0 ∨ n.lfsrStep.noiseOut = 63 := by
  rw [NoiseRegs.lfsrStep_noiseOut]
  exact ite_eq_or_eq ..

/-- A cycle keeps the block's invariant. -/
theorem Block.Inv.tick {p : Params} (hp : p.wf) {b : Block} (h : b.Inv p) : (b.tick p).Inv p := by
  obtain ⟨hint, henv⟩ := hp
  obtain ⟨hwave, hmodt⟩ := b.tick_tables p
  obtain ⟨hintDiv, henvDiv, hswDiv⟩ := b.tick_dividers p
  have hlong := sweepPeriod_le b.sweep.swLong
  constructor
  case waveWf => exact hwave ▸ h.waveWf
  case modtWf => exact hmodt ▸ h.modtWf
  case waveCells => exact hwave ▸ h.waveCells
  case modtCells => exact hmodt ▸ h.modtCells
  case envCnt => exact fun c => Block.tick_envCnt_le (h.envCnt c)
  case phCnt => exact b.tick_phCnt_le p
  case swCnt => exact Block.tick_swCnt_le h.swCnt
  case intDiv => rw [hintDiv]; split_ifs <;> omega
  case envDiv => rw [henvDiv]; split_ifs <;> omega
  case swDiv => rw [hswDiv]; split_ifs <;> omega
  case noiseOut =>
    rw [Block.tick_noise]
    split_ifs
    · exact b.noise.lfsrStep_noiseOut_mem
    · exact h.noiseOut

theorem Block.Inv.iterate_tick {p : Params} (hp : p.wf) {b : Block} (h : b.Inv p) (n : Nat) :
    ((Block.tick p)^[n] b).Inv p :=
  Block.iterate_tick_induction (Block.Inv p) (fun _ => Block.Inv.tick hp) h n

/-! ## An ADVANCE (R97, R145) -/

/-- A sample of one side of a frame is in range. -/
theorem Block.Inv.outSample_quantise {p : Params} {b : Block} (h : b.Inv p) (fmt : FloatFormat)
    (vol : ChanRegs → BitVec 4) {x : Sample} (hx : x = outSample fmt (quantise (b.sideSum vol))) :
    x = outSample fmt x.q ∧ x.q % 32 = 0 ∧ x.q ≤ 21888 := by
  subst hx
  exact ⟨rfl, h.quantise_sideSum_range vol⟩

theorem State.Inv.returned_wf {s : State} (h : s.Inv) (n : Nat) : (s.returned n).wf s.cfg.outputFloatFormat where
  sameLength := by simp [State.returned, returnedOf]
  samples x hx := by
    obtain ⟨k, hx⟩ := State.mem_returned hx
    have hk := h.block.iterate_tick h.cfg k
    obtain hl | hr := hx
    · exact hk.outSample_quantise _ ChanRegs.volL hl
    · exact hk.outSample_quantise _ ChanRegs.volR hr

theorem State.Inv.afterCycles {s : State} (h : s.Inv) (n : Nat) : (s.afterCycles n).Inv where
  cfg := h.cfg
  block := h.block.iterate_tick h.cfg n
  output r hr := by
    rw [State.afterCycles_output, List.mem_append, List.mem_singleton] at hr
    obtain hold | rfl := hr
    · exact h.output r hold
    · exact h.returned_wf n

/-! ## The tables (R42, R43) -/

/-- The part of the invariant that speaks of the tables. -/
structure Block.TablesInv (b : Block) : Prop where
  waveWf : b.wave.wf
  modtWf : b.modt.wf
  waveCells : ∀ c ∈ b.wave, c.1 < 160 ∧ c.2.toNat < 64
  modtCells : ∀ c ∈ b.modt, c.1 < 32

theorem Block.Inv.tables {p : Params} {b : Block} (h : b.Inv p) : b.TablesInv :=
  ⟨h.waveWf, h.modtWf, h.waveCells, h.modtCells⟩

theorem waveConv_lt (d : Byte) : (waveConv d).toNat < 64 := by
  rw [waveConv_toNat]
  exact Nat.mod_lt _ (by decide)

/-- WAVUP writes 32 converted bytes inside its own table (R94). -/
theorem Block.TablesInv.wavup {b : Block} (h : b.TablesInv) (t : Fin 5) (data : Payload) :
    (b.writeWave (waveAddress t.val 0) (data.bytes.map waveConv)).TablesInv where
  waveWf := Memory.writeFrom_wf h.waveWf _ _
  modtWf := h.modtWf
  waveCells c hc := by
    obtain ⟨-, hhi, hv⟩ | hold := Memory.mem_writeFrom hc
    · obtain ⟨d, -, hd⟩ := List.mem_map.mp hv
      rw [List.length_map, data.length_eq, waveAddress] at hhi
      exact ⟨by omega, hd ▸ waveConv_lt d⟩
    · exact h.waveCells c hold
  modtCells := h.modtCells

/-- MODUP writes 32 entries from the first on (R95). -/
theorem Block.TablesInv.modup {b : Block} (h : b.TablesInv) (data : Payload) (f : Byte → Byte) :
    (b.writeModt 0 (data.bytes.map f)).TablesInv where
  waveWf := h.waveWf
  modtWf := Memory.writeFrom_wf h.modtWf _ _
  waveCells := h.waveCells
  modtCells c hc := by
    obtain ⟨-, hhi, -⟩ | hold := Memory.mem_writeFrom hc
    · rwa [List.length_map, data.length_eq, Nat.zero_add] at hhi
    · exact h.modtCells c hold

theorem Block.retrigger_tables (b : Block) (c : Channel) :
    (b.retrigger c).wave = b.wave ∧ (b.retrigger c).modt = b.modt := by
  unfold Block.retrigger
  cases c.wave? <;> exact ⟨rfl, rfl⟩

theorem execWavsel_tables (c : Channel) (v : BitVec 3) (s : State) :
    ∃ t, execWavsel c v s = .next t ∧ t.block.wave = s.block.wave ∧ t.block.modt = s.block.modt := by
  unfold execWavsel
  cases c.wave? <;> exact ⟨_, rfl, rfl, rfl⟩

/-- Only the uploads write the tables (R36). -/
theorem exec_tables {i : Instr} (hw : ∀ t data, i ≠ .wavup t data) (hm : ∀ data, i ≠ .modup data) (s : State) :
    ∃ t, exec i s = .next t ∧ t.block.wave = s.block.wave ∧ t.block.modt = s.block.modt := by
  cases i with
  | chen c en =>
    cases en with
    | false => exact ⟨_, rfl, rfl, rfl⟩
    | true => exact ⟨_, rfl, Block.retrigger_tables _ c⟩
  | wavsel c v => exact execWavsel_tables c v s
  | wavup t data => exact absurd rfl (hw t data)
  | modup data => exact absurd rfl (hm data)
  | advance n => exact ⟨_, exec_advance n s, s.block.iterate_tick_tables s.cfg n.toNat⟩
  | inten | intset | envrld | envdir | envstp | envrpt | enven | freq | voll | volr | tap | swdir | swen | swfunc | swint
  | swshift | swbase | modfreq | modrpt => exact ⟨_, rfl, rfl, rfl⟩

theorem exec_tablesInv {i : Instr} {s t : State} (h : s.block.TablesInv) (he : exec i s = .next t) :
    t.block.TablesInv := by
  by_cases hw : ∃ tbl data, i = .wavup tbl data
  · obtain ⟨tbl, data, rfl⟩ := hw
    cases he
    exact h.wavup tbl data
  by_cases hm : ∃ data, i = .modup data
  · obtain ⟨data, rfl⟩ := hm
    cases he
    exact h.modup data _
  push Not at hw hm
  obtain ⟨t', he', hwave, hmodt⟩ := exec_tables hw hm s
  cases he.symm.trans he'
  exact ⟨hwave ▸ h.waveWf, hmodt ▸ h.modtWf, hwave ▸ h.waveCells, hmodt ▸ h.modtCells⟩

/-! ## A step -/

/-- A command that leaves the hidden state as R38 gives it keeps the invariant of counters and dividers. -/
theorem HiddenAfter.inv {i : Instr} {s t : State} (h : HiddenAfter i s t) (hs : s.Inv) (ht : t.block.TablesInv) :
    t.Inv where
  cfg := h.outside.cfg ▸ hs.cfg
  output := by rw [h.outside.cfg, h.outside.output]; exact hs.output
  block := by
    rw [h.outside.cfg]
    constructor
    case waveWf => exact ht.waveWf
    case modtWf => exact ht.modtWf
    case waveCells => exact ht.waveCells
    case modtCells => exact ht.modtCells
    case envCnt =>
      intro c
      have hc : (t.block.chan c).envCnt = if i = .chen c true then 0 else (s.block.chan c).envCnt := h.envCnt c
      rw [hc]
      split_ifs
      · exact Nat.zero_le _
      · exact hs.block.envCnt c
    case phCnt =>
      intro c
      have hc : (t.block.chan c).phCnt = if i = .chen c true then 0 else (s.block.chan c).phCnt := h.phCnt c
      rw [hc]
      split_ifs
      · exact Nat.zero_le _
      · exact hs.block.phCnt c
    case swCnt => exact h.swCnt ▸ hs.block.swCnt
    case intDiv => exact h.dividers.intDiv ▸ hs.block.intDiv
    case envDiv => exact h.dividers.envDiv ▸ hs.block.envDiv
    case swDiv => exact h.dividers.swDiv ▸ hs.block.swDiv
    case noiseOut => exact h.noiseOut ▸ hs.block.noiseOut

theorem exec_keepsInvariant {i : Instr} {s t : State} (hs : s.Inv) (he : exec i s = .next t) : t.Inv := by
  by_cases hadv : ∃ n, i = .advance n
  · obtain ⟨n, rfl⟩ := hadv
    cases he.symm.trans (exec_advance n s)
    exact hs.afterCycles n.toNat
  · obtain ⟨t', he', h⟩ := exec_hiddenAfter (not_exists.mp hadv) s
    cases he.symm.trans he'
    exact h.inv hs (exec_tablesInv hs.block.tables he)

/-- Everything a step can do: wait, drop a NOP, or run an instruction (R48, R64, R163). -/
theorem step_cases {s t : State} (h : step s = .next t) :
    t = s ∨ ∃ rest, t = { s with input := rest } ∨ ∃ i, exec i { s with input := rest } = .next t := by
  cases hin : s.input with
  | nil =>
    cases h.symm.trans (step_of_waiting hin)
    exact .inl rfl
  | cons cmd rest =>
    cases hd : decode cmd with
    | instr i => exact .inr ⟨rest, .inr ⟨i, (step_of_instr hin hd).symm.trans h⟩⟩
    | nop why =>
      cases h.symm.trans (step_of_nop hin hd)
      exact .inr ⟨rest, .inl rfl⟩

/-- Settles O51: taking a command is outside the invariant, and running it keeps it (`exec_keepsInvariant`). -/
theorem stepKeepsInvariant : Obligations.StepKeepsInvariant := by
  intro s t hs h
  have htaken (rest : List Command) : State.Inv { s with input := rest } := ⟨hs.cfg, hs.block, hs.output⟩
  obtain rfl | ⟨rest, rfl | ⟨i, he⟩⟩ := step_cases h
  · exact hs
  · exact htaken rest
  · exact exec_keepsInvariant (htaken rest) he

theorem exec_cfg {i : Instr} {s t : State} (he : exec i s = .next t) : t.cfg = s.cfg := by
  by_cases hadv : ∃ n, i = .advance n
  · obtain ⟨n, rfl⟩ := hadv
    cases he.symm.trans (exec_advance n s)
    rfl
  · obtain ⟨t', he', h⟩ := exec_hiddenAfter (not_exists.mp hadv) s
    cases he.symm.trans he'
    exact h.outside.cfg

/-- Settles O54: no instruction writes the parameters (`exec_cfg`), nor does taking a command. -/
theorem parametersNeverChange : Obligations.ParametersNeverChange := by
  intro s t h
  obtain rfl | ⟨rest, rfl | ⟨i, he⟩⟩ := step_cases h
  · rfl
  · rfl
  · exact (exec_cfg he :)

/-! ## Construction (R162) -/

theorem Block.chan_reset (p : Params) (c : Channel) : (Block.reset p).chan c = .reset := by cases c <;> rfl

theorem Block.waveRegs_reset (p : Params) (w : WaveChannel) : (Block.reset p).waveRegs w = .reset := by cases w <;> rfl

theorem State.construct_inv {p : Params} (hp : p.wf) : (State.construct p).Inv where
  cfg := hp
  output := by simp [State.construct]
  block := by
    show (Block.reset p).Inv p
    constructor
    case waveWf | modtWf => exact Memory.wf_nil
    case waveCells | modtCells => simp [Block.reset]
    case envCnt | phCnt => intro c; rw [Block.chan_reset]; exact Nat.zero_le _
    case swCnt => exact Nat.zero_le _
    case intDiv => exact hp.1
    case envDiv => exact hp.2
    case swDiv => exact Nat.zero_lt_succ _
    case noiseOut => exact .inl rfl

/-- Settles O52: the uninterpreted periods are positive, so reset is a construction with parameters in their domains. -/
theorem resetMeetsInvariant : Obligations.ResetMeetsInvariant :=
  State.construct_inv ⟨Config.intervalPeriod.pos, Config.envelopePeriod.pos⟩

/-- Settles O53: the registers channel by channel, the empty tables read as 0. -/
theorem resetValues : Obligations.ResetValues :=
  ⟨fun p => ⟨Block.chan_reset p, Block.waveRegs_reset p, rfl, rfl, fun _ => rfl, fun _ => rfl, rfl, rfl, rfl⟩,
    Config.params, rfl, rfl⟩

end Sys2Proof.Machine
end

section
/-! Channel 5's sweep/modulation unit in a whole cycle: the block its secondary tick starts from, the five things a cycle can
do to the unit, what a unit that is off keeps, and O41, O42 and O44. -/

namespace Sys2Proof.Machine

/-! ## The secondary tick of a cycle (R99, R125) -/

/-- The unit's divider fires in this cycle (R104). -/
def Block.sweepFires (b : Block) : Prop := sweepPeriod b.sweep.swLong ≤ b.swDiv + 1

/-- A firing goes on to the secondary tick: always in mode gate, at a full count in mode divide (R125). -/
def Block.sweepReached (p : Params) (b : Block) : Prop :=
  p.sweepIntervalMode = .divide → max 1 b.sweep.swInt.toNat ≤ b.sweep.swCnt + 1

/-- The block that the secondary tick of a cycle starts from. -/
def Block.sweepReady (p : Params) (b : Block) : Block :=
  (((b.intervalDivider p).envelopeDivider p).setSwDiv 0).modSweep fun w =>
    { w with swCnt := if p.sweepIntervalMode = .divide then 0 else w.swCnt }

theorem Block.slowDividers_sweep (p : Params) (b : Block) :
    ((b.intervalDivider p).envelopeDivider p).sweep = b.sweep := by
  obtain ⟨-, -, -, -, -, hsweep, -⟩ := b.slowDividers p
  exact hsweep

theorem Block.slowDividers_swDiv (p : Params) (b : Block) :
    ((b.intervalDivider p).envelopeDivider p).swDiv = b.swDiv := by
  obtain ⟨-, -, -, -, -, -, hswDiv, -⟩ := b.slowDividers p
  exact hswDiv

theorem Block.sweepReady_sweep (p : Params) (b : Block) :
    (b.sweepReady p).sweep =
      { b.sweep with swCnt := if p.sweepIntervalMode = .divide then 0 else b.sweep.swCnt } := by
  rw [Block.sweepReady, Block.modSweep_sweep, Block.setSwDiv_sweep, Block.slowDividers_sweep]

theorem Block.sweepReady_chan (p : Params) (b : Block) (c : Channel) : (b.sweepReady p).chan c = b.slowTicked p c :=
  (b.slowDividers p).1 c

theorem Block.sweepReady_readModt (p : Params) (b : Block) (a : Nat) : (b.sweepReady p).readModt a = b.readModt a := by
  obtain ⟨-, -, hmodt, -⟩ := b.slowDividers p
  exact congrArg (fun m => (Memory.read m a).toInt) hmodt

theorem Block.tick_sweep_of_idle {p : Params} {b : Block} (h : ¬ b.sweepFires) : (b.tick p).sweep = b.sweep := by
  rw [Block.sweepFires, ← b.slowDividers_sweep p, ← b.slowDividers_swDiv p] at h
  rw [Block.tick_sweep, Block.sweepModDivider_counts h, Block.setSwDiv_sweep, Block.slowDividers_sweep]

/-- A firing is a base tick on the block after the slow dividers. -/
theorem Block.tick_sweep_of_fires {p : Params} {b : Block} (h : b.sweepFires) :
    (b.tick p).sweep =
      ((((b.intervalDivider p).envelopeDivider p).setSwDiv 0).sweepModBaseTick p).sweep := by
  rw [Block.sweepFires, ← b.slowDividers_sweep p, ← b.slowDividers_swDiv p] at h
  rw [Block.tick_sweep, Block.sweepModDivider_fires h]

theorem Block.tick_sweep_of_counts {p : Params} {b : Block} (h : b.sweepFires) (hr : ¬ b.sweepReached p) :
    (b.tick p).sweep = { b.sweep with swCnt := b.sweep.swCnt + 1 } := by
  rw [Block.sweepReached, Classical.not_imp] at hr
  obtain ⟨hmode, hwait⟩ := hr
  rw [Block.tick_sweep_of_fires h]
  simp only [Block.sweepModBaseTick, hmode, Block.setSwDiv_sweep, Block.slowDividers_sweep, if_neg hwait,
    Block.modSweep_sweep]

theorem Block.tick_sweep_of_reached {p : Params} {b : Block} (h : b.sweepFires) (hr : b.sweepReached p) :
    (b.tick p).sweep = ((b.sweepReady p).sweepModTick p.sweepRunGate).sweep := by
  rw [Block.tick_sweep_of_fires h, Block.sweepReady]
  cases hmode : p.sweepIntervalMode with
  | gate => simp only [Block.sweepModBaseTick, hmode]; rfl
  | divide =>
    simp only [Block.sweepModBaseTick, hmode, Block.setSwDiv_sweep, Block.slowDividers_sweep, if_pos (hr hmode), if_true]

/-! ## Whether the secondary tick computes (R128) -/

/-- Channel 5 is audible when the unit asks: after this cycle's interval tick and the overflow check (R100, R127). -/
def Block.sweepRuns (p : Params) (b : Block) : Prop :=
  (b.chan .ch5).outEn = true ∧
  ¬ (p.intervalPeriod ≤ b.intDiv + 1 ∧ (b.chan .ch5).intEn = true ∧
    (b.chan .ch5).intSet.toNat < (b.chan .ch5).intCnt + 1) ∧
  b.sweep.nextModFreq.toNat < 2048

theorem Block.sweepReady_audible (p : Params) (b : Block) :
    (b.sweepReady p).audibleAfterApply = true ↔ b.sweepRuns p := by
  rw [Block.audibleAfterApply, Block.sweepReady_chan, Block.sweepReady_sweep, Bool.and_eq_true, Block.slowTicked_outEn,
    decide_eq_true_eq, and_assoc, Block.sweepRuns]

/-- The stop conditions of R128 on the state before the cycle. -/
theorem Block.sweepReady_computes_iff (p : Params) (b : Block) :
    (b.sweepReady p).sweepApply.sweepComputes p.sweepRunGate = true ↔
      b.sweep.swEn = true ∧ (p.sweepRunGate = .outputEnabled → b.sweepRuns p) ∧ b.sweep.swInt.toNat ≠ 0 := by
  rw [Block.sweepApply_computes_iff, Block.sweepReady_audible, Block.sweepReady_sweep]

/-- Settles O41: the five things a cycle can do to the unit, by its divider, its count and the stop conditions. -/
theorem modFreqComesFromBuffer : Obligations.ModFreqComesFromBuffer := by
  intro s
  obtain ⟨t, he, ht⟩ := exec_advance_one s
  refine ⟨t, he, ?_⟩
  extract_lets w r fires reached expires running computes applied
  rw [ht]
  have hidle (hf : ¬ fires) : (s.block.tick s.cfg).sweep = w := Block.tick_sweep_of_idle hf
  have hcounts (hf : fires) (hr : ¬ reached) : (s.block.tick s.cfg).sweep = { w with swCnt := w.swCnt + 1 } :=
    Block.tick_sweep_of_counts hf hr
  have htick (hf : fires) (hr : reached) : (s.block.tick s.cfg).sweep =
      ((s.block.sweepReady s.cfg).sweepModTick s.cfg.sweepRunGate).sweep := Block.tick_sweep_of_reached hf hr
  have hcomputes : computes ↔ (s.block.sweepReady s.cfg).sweepApply.sweepComputes s.cfg.sweepRunGate = true :=
    (s.block.sweepReady_computes_iff s.cfg).symm
  have hready := s.block.sweepReady_sweep s.cfg
  refine ⟨?_, hidle, hcounts, fun hf hr hc => ?_, fun hf hr hc hmode => ?_, fun hf hr hc hmode => ?_⟩
  · by_cases hf : fires
    · by_cases hr : reached
      · rw [if_pos ⟨hf, hr⟩, htick hf hr, Block.sweepModTick_modFreq, hready]
      · rw [if_neg (fun h => hr h.2), hcounts hf hr]
    · rw [if_neg (fun h => hf h.1), hidle hf]
  · rw [htick hf hr, Block.sweepModTick_of_stops (mt hcomputes.mpr hc), hready]
  · rw [htick hf hr, Block.sweepModTick_of_sweep (hcomputes.mp hc) (by rw [hready]; exact hmode), hready]
  · rw [htick hf hr, Block.sweepModTick_of_modulation (hcomputes.mp hc) (by rw [hready]; exact hmode), hready,
      modPhaseAdvance_eq, Block.sweepReady_chan, (s.block.slowTicked_settings s.cfg .ch5).freq,
      Block.sweepReady_readModt]
    rfl

/-! ## The unit off (R128) -/

/-- A cycle of a unit that is off keeps its buffer and its index, and plays its old frequency or the buffered one. -/
theorem Block.tick_sweep_of_off {b : Block} (p : Params) (h : b.sweep.swEn = false) :
    (b.tick p).sweep.nextModFreq = b.sweep.nextModFreq ∧ (b.tick p).sweep.modPhase = b.sweep.modPhase ∧
    ((b.tick p).sweep.modFreq = b.sweep.modFreq ∨ (b.tick p).sweep.modFreq = b.sweep.nextModFreq) := by
  by_cases hf : b.sweepFires
  · by_cases hr : b.sweepReached p
    · have hstops : ¬ (b.sweepReady p).sweepApply.sweepComputes p.sweepRunGate = true := by
        rw [Block.sweepReady_computes_iff, h]
        simp
      rw [Block.tick_sweep_of_reached hf hr, Block.sweepModTick_of_stops hstops, Block.sweepReady_sweep]
      exact ⟨rfl, rfl, .inr rfl⟩
    · rw [Block.tick_sweep_of_counts hf hr]
      exact ⟨rfl, rfl, .inl rfl⟩
  · rw [Block.tick_sweep_of_idle hf]
    exact ⟨rfl, rfl, .inl rfl⟩

/-- A run of cycles of a unit that is off keeps its buffer and its index. -/
theorem Block.iterate_tick_sweep_of_off {b : Block} (p : Params) (h : b.sweep.swEn = false) (n : Nat) :
    ((Block.tick p)^[n] b).sweep.nextModFreq = b.sweep.nextModFreq ∧
    ((Block.tick p)^[n] b).sweep.modPhase = b.sweep.modPhase ∧
    (((Block.tick p)^[n] b).sweep.modFreq = b.sweep.modFreq ∨
      ((Block.tick p)^[n] b).sweep.modFreq = b.sweep.nextModFreq) := by
  induction n with
  | zero => exact ⟨rfl, rfl, .inl rfl⟩
  | succ n ih =>
    rw [Function.iterate_succ_apply']
    obtain ⟨hnext, hphase, hfreq⟩ := ih
    have hoff := (b.iterate_tick_sweepSettings p n).swEn.trans h
    obtain ⟨hnext', hphase', hfreq'⟩ := Block.tick_sweep_of_off p hoff
    rw [hnext', hphase', hnext]
    refine ⟨rfl, hphase, ?_⟩
    obtain hold | hbuffer := hfreq'
    · rwa [hold]
    · exact .inr (hbuffer.trans hnext)

/-- Settles O42: a unit that is off plays its old frequency or the buffered one, here the same. -/
theorem modFreqSticksWhileUnitOff : Obligations.ModFreqSticksWhileUnitOff := by
  intro n s hoff hsame
  obtain ⟨hnext, hphase, hfreq⟩ := Block.iterate_tick_sweep_of_off s.cfg hoff n.toNat
  rw [← hsame, or_self] at hfreq
  exact ⟨_, exec_advance n s, hfreq, hnext, hphase⟩

/-! ## The gated sweep (R130) -/

/-- Settles O44: under the gate the frequency applied is below 2048, so adding at most itself stays below 4096. -/
theorem gatedSweepNeverWraps : Obligations.GatedSweepNeverWraps := by
  intro b hc hmode b'
  obtain ⟨-, hgate, -⟩ := (b.sweepApply_computes_iff .outputEnabled).mp hc
  have haudible := hgate rfl
  rw [Block.audibleAfterApply, Bool.and_eq_true, decide_eq_true_eq] at haudible
  have hlt := haudible.2
  have hdelta : b.sweep.nextModFreq.toNat / 2 ^ b.sweep.swShift.toNat ≤ b.sweep.nextModFreq.toNat := Nat.div_le_self ..
  simp only [b', Block.sweepModTick_of_sweep hc hmode]
  cases b.sweep.swUp with
  | true =>
    rw [sweepCand_up_toNat, Nat.mod_eq_of_lt (by omega)]
    exact ⟨hlt, by omega, rfl⟩
  | false =>
    rw [sweepCand_down_toNat]
    exact ⟨hlt, Nat.lt_of_le_of_lt (Nat.sub_le ..) (by omega), rfl⟩

end Sys2Proof.Machine
end

section
/-! Counting over a run of cycles: a counter that wraps at its period, the three dividers, the envelope's ramps and its ticks,
the duration after INTEN(1), channel 5's overflow, and O22, O26 to O29 and O43. -/

namespace Sys2Proof.Machine

/-! ## A counter that wraps at its period (R105) -/

/-- One more at the end of a period starts the next one. -/
theorem succ_modDiv_of_wraps {k n : Nat} (hk : 0 < k) (h : k ≤ n % k + 1) : (n + 1) % k = 0 ∧ (n + 1) / k = n / k + 1 := by
  have hlast : n % k + 1 = k := Nat.le_antisymm (Nat.mod_lt n hk) h
  have hdecomp := Nat.mod_add_div n k
  have hsum : 0 + k * (n / k + 1) = n + 1 := by rw [Nat.mul_add, Nat.mul_one]; omega
  exact ((Nat.div_mod_unique hk).mpr ⟨hsum, hk⟩).symm

/-- One more before the end of a period counts within it. -/
theorem succ_modDiv_of_counts {k n : Nat} (h : ¬ k ≤ n % k + 1) : (n + 1) % k = n % k + 1 ∧ (n + 1) / k = n / k := by
  have hdecomp := Nat.mod_add_div n k
  exact ((Nat.div_mod_unique (by omega)).mpr ⟨by omega, by omega⟩).symm

/-- A count that goes back to 0 at its period is the number of steps modulo that period. -/
theorem divider_sequence {period : Nat} {d : Nat → Nat} (h0 : d 0 < period)
    (hstep : ∀ n, d (n + 1) = if period ≤ d n + 1 then 0 else d n + 1) (n : Nat) : d n = (d 0 + n) % period := by
  induction n with
  | zero => exact (Nat.mod_eq_of_lt h0).symm
  | succ n ih =>
    rw [hstep, ih, ← Nat.add_assoc]
    split_ifs with h
    · exact (succ_modDiv_of_wraps (Nat.zero_lt_of_lt h0) h).1.symm
    · exact (succ_modDiv_of_counts h).1.symm

/-! ## The dividers (R105, R106) -/

theorem Block.iterate_tick_intDiv {p : Params} {b : Block} (h : b.intDiv < p.intervalPeriod) (n : Nat) :
    ((Block.tick p)^[n] b).intDiv = (b.intDiv + n) % p.intervalPeriod :=
  divider_sequence (d := fun n => ((Block.tick p)^[n] b).intDiv) h
    (fun n => by rw [Function.iterate_succ_apply']; exact (Block.tick_dividers p _).1) n

theorem Block.iterate_tick_envDiv {p : Params} {b : Block} (h : b.envDiv < p.envelopePeriod) (n : Nat) :
    ((Block.tick p)^[n] b).envDiv = (b.envDiv + n) % p.envelopePeriod :=
  divider_sequence (d := fun n => ((Block.tick p)^[n] b).envDiv) h
    (fun n => by rw [Function.iterate_succ_apply']; exact (Block.tick_dividers p _).2.1) n

theorem Block.iterate_tick_swDiv {b : Block} (p : Params) (h : b.swDiv < sweepPeriod b.sweep.swLong) (n : Nat) :
    ((Block.tick p)^[n] b).swDiv = (b.swDiv + n) % sweepPeriod b.sweep.swLong :=
  divider_sequence (d := fun n => ((Block.tick p)^[n] b).swDiv) h
    (fun n => by
      rw [Function.iterate_succ_apply', ← (b.iterate_tick_sweepSettings p n).swLong]
      exact (Block.tick_dividers p _).2.2) n

/-- In mode gate every firing of the unit's divider applies the buffered frequency (R125, R127). -/
theorem Block.tick_modFreq_of_gate {p : Params} {b : Block} (hgate : p.sweepIntervalMode = .gate) (h : b.sweepFires) :
    (b.tick p).sweep.modFreq = b.sweep.nextModFreq := by
  have hreached : b.sweepReached p := fun hdivide => absurd (hgate.symm.trans hdivide) (by decide)
  rw [Block.tick_sweep_of_reached h hreached, Block.sweepModTick_modFreq, Block.sweepReady_sweep]

/-- The unit after SWBASE(0): the short period is selected (R89). -/
def SweepRegs.selectShort (w : SweepRegs) : SweepRegs := { w with swLong := false }

theorem exec_swbase_false (s : State) :
    exec (.swbase false) s = .next (s.onBlock fun b => b.modSweep SweepRegs.selectShort) := rfl

/-- Settles O22: the fixed periods by `divider_sequence`, a single cycle by `Block.tick_dividers`. -/
theorem dividersCountModuloPeriod : Obligations.DividersCountModuloPeriod := by
  refine ⟨fun n s hint henv hsw => ?_, fun s => ?_, fun s hlate => ?_⟩
  · exact ⟨_, exec_advance n s, Block.iterate_tick_intDiv hint n.toNat, Block.iterate_tick_envDiv henv n.toNat,
      Block.iterate_tick_swDiv s.cfg hsw n.toNat⟩
  · obtain ⟨t, he, ht⟩ := exec_advance_one s
    exact ⟨t, he, ht ▸ (s.block.tick_dividers s.cfg).2.2⟩
  · obtain ⟨t, he, ht⟩ := exec_advance_one (s.onBlock fun b => b.modSweep SweepRegs.selectShort)
    have hfires : (s.block.modSweep SweepRegs.selectShort).sweepFires := Nat.succ_le_succ hlate
    refine ⟨t, by simp only [execAll, exec_swbase_false, he], ?_, fun hgate => ?_⟩
    · rw [ht]
      exact (Block.tick_dividers s.cfg _).2.2.trans (if_pos hfires)
    · rw [ht]
      exact Block.tick_modFreq_of_gate hgate hfires

/-! ## The envelope's ramps (R107, R109) -/

/-- A ramp's next level: one further towards its bound, and at the bound back to the reload or not at all. -/
theorem rampLevel_succ (up rep : Bool) {r : Nat} (hr : r ≤ 15) (j : Nat) :
    rampLevel up rep r (j + 1) =
      if up = true ∧ rampLevel up rep r j < 15 then rampLevel up rep r j + 1
      else if up = false ∧ 0 < rampLevel up rep r j then rampLevel up rep r j - 1
      else if rep then r else rampLevel up rep r j := by
  match up, rep with
  | true, false =>
    simp only [rampLevel, true_and, Bool.true_eq_false, Bool.false_eq_true, false_and, if_false]
    split_ifs <;> omega
  | false, false =>
    simp only [rampLevel, true_and, Bool.false_eq_true, false_and, if_false]
    split_ifs <;> omega
  | true, true =>
    simp only [rampLevel, true_and, Bool.true_eq_false, false_and, if_false, if_true]
    have hmod := Nat.mod_lt j (show 0 < 16 - r by omega)
    by_cases h : 16 - r ≤ j % (16 - r) + 1
    · rw [(succ_modDiv_of_wraps (by omega) h).1, if_neg (by omega), Nat.add_zero]
    · rw [(succ_modDiv_of_counts h).1, if_pos (by omega), Nat.add_assoc]
  | false, true =>
    simp only [rampLevel, true_and, Bool.false_eq_true, false_and, if_false, if_true]
    have hmod := Nat.mod_lt j (Nat.succ_pos r)
    by_cases h : r + 1 ≤ j % (r + 1) + 1
    · rw [(succ_modDiv_of_wraps (Nat.succ_pos r) h).1, if_neg (by omega), Nat.sub_zero]
    · rw [(succ_modDiv_of_counts h).1, if_pos (by omega), Nat.sub_sub]

/-- Where an enabled envelope stands after `n` envelope ticks from the start of its ramp. -/
structure OnRamp (r : ChanRegs) (n : Nat) (r' : ChanRegs) : Prop where
  settings : r.SameSettings r'
  envCnt : r'.envCnt = n % (r.envStep.toNat + 1)
  envLevel : r'.envLevel.toNat = rampLevel r.envUp r.envRepeat r.envReload.toNat (n / (r.envStep.toNat + 1))

/-- An envelope tick goes one on along the ramp: the count within a level, or the level. -/
theorem OnRamp.tick {r r' : ChanRegs} {n : Nat} (hen : r.envEn = true) (h : OnRamp r n r') :
    OnRamp r (n + 1) (envelopeTick r') := by
  have hsettings := h.settings.trans (envelopeTick_settings r')
  have hstep := congrArg BitVec.toNat h.settings.envStep
  have hcnt := h.envCnt
  obtain ⟨hoff, -⟩ | ⟨-, hwait, ht⟩ | ⟨-, hdue, ht⟩ := envelopeTick_cases r'
  · exact absurd (h.settings.envEn.symm.trans hoff) (by simp [hen])
  · obtain ⟨hmod, hdiv⟩ := succ_modDiv_of_counts (k := r.envStep.toNat + 1) (n := n) (by omega)
    rw [ht] at hsettings ⊢
    exact ⟨hsettings, by rw [hmod, ← hcnt], by rw [hdiv]; exact h.envLevel⟩
  · obtain ⟨hmod, hdiv⟩ := succ_modDiv_of_wraps (k := r.envStep.toNat + 1) (n := n) (Nat.succ_pos _) (by omega)
    rw [ht] at hsettings ⊢
    refine ⟨hsettings, hmod.symm, ?_⟩
    rw [hdiv, rampLevel_succ _ _ (Nat.le_of_lt_succ r.envReload.isLt), ← h.envLevel, nextLevel_toNat, h.settings.envUp,
      h.settings.envRepeat, h.settings.envReload]

/-- Settles O26: the ramp's start, and its tick (`OnRamp.tick`), by induction on the number of ticks. -/
theorem envelopeRampShapes : Obligations.EnvelopeRampShapes := by
  intro r n hen hcnt hlevel
  suffices h : OnRamp r n (envelopeTick^[n] r) from h.envLevel
  induction n with
  | zero =>
    refine ⟨.refl r, by rw [Nat.zero_mod]; exact hcnt, ?_⟩
    rw [Nat.zero_div, Function.iterate_zero_apply, hlevel]
    have := r.envReload.isLt
    cases r.envUp <;> cases r.envRepeat <;> simp [rampLevel]
    omega
  | succ n ih =>
    rw [Function.iterate_succ_apply']
    exact ih.tick hen

/-! ## The envelope through an ADVANCE (R101, R108, R111) -/

/-- The envelope tick neither reads nor writes `outEn`, `intCnt` and `phCnt`. -/
theorem envelopeTick_setOthers (r : ChanRegs) (o : Bool) (n ph : Nat) :
    envelopeTick { r with outEn := o, intCnt := n, phCnt := ph } =
      { envelopeTick r with outEn := o, intCnt := n, phCnt := ph } := by
  unfold envelopeTick
  dsimp only
  split_ifs <;> rfl

/-- A channel after a cycle, but for `outEn`, `intCnt` and `phCnt`, is what the envelope divider leaves. -/
theorem Block.tick_chan_envelopeTicked (p : Params) (b : Block) (c : Channel) :
    ∃ o n ph, (b.tick p).chan c = { b.envelopeTicked p c with outEn := o, intCnt := n, phCnt := ph } := by
  obtain ⟨o, ph, -, -, -, htick⟩ := b.tick_chan p c
  obtain ⟨_, n, hslow⟩ := b.slowTicked_eq_setInterval p c
  exact ⟨o, n, ph, by rw [htick, hslow]⟩

/-- A channel after `n` cycles, but for `outEn`, `intCnt` and `phCnt`, is its envelope's ticks. -/
theorem Block.iterate_tick_chan_envelope {p : Params} {b : Block} (h : b.envDiv < p.envelopePeriod) (c : Channel)
    (n : Nat) :
    ∃ o m ph, ((Block.tick p)^[n] b).chan c =
      { envelopeTick^[(b.envDiv + n) / p.envelopePeriod] (b.chan c) with outEn := o, intCnt := m, phCnt := ph } := by
  induction n with
  | zero => exact ⟨(b.chan c).outEn, (b.chan c).intCnt, (b.chan c).phCnt, by rw [Nat.add_zero, Nat.div_eq_of_lt h]; rfl⟩
  | succ n ih =>
    obtain ⟨o, m, ph, hn⟩ := ih
    obtain ⟨o', m', ph', htick⟩ := ((Block.tick p)^[n] b).tick_chan_envelopeTicked p c
    refine ⟨o', m', ph', ?_⟩
    rw [Function.iterate_succ_apply', htick, Block.envelopeTicked, Block.iterate_tick_envDiv h, hn, ← Nat.add_assoc]
    split_ifs with hdue
    · rw [(succ_modDiv_of_wraps (Nat.zero_lt_of_lt h) hdue).2, Function.iterate_succ_apply', envelopeTick_setOthers]
    · rw [(succ_modDiv_of_counts hdue).2]

/-- Settles O27: the registers of the channel after the run (`Block.iterate_tick_chan_envelope`). -/
theorem advanceTicksEnvelopes : Obligations.AdvanceTicksEnvelopes := by
  intro n s c h
  obtain ⟨o, m, ph, hn⟩ := Block.iterate_tick_chan_envelope h c n.toNat
  exact ⟨_, exec_advance n s, (congrArg ChanRegs.envLevel hn :), (congrArg ChanRegs.envCnt hn :)⟩

theorem Block.tick_envelope_of_disabled {p : Params} {b : Block} {c : Channel} (h : (b.chan c).envEn = false) :
    ((b.tick p).chan c).envLevel = (b.chan c).envLevel ∧ ((b.tick p).chan c).envCnt = (b.chan c).envCnt := by
  obtain ⟨hcnt, hlevel⟩ := b.tick_envelope p c
  have hidle : b.envelopeTicked p c = b.chan c := Block.envelopeTicked_of_idle (by simp [h])
  rw [hcnt, hlevel, hidle]
  exact ⟨rfl, rfl⟩

/-- Settles O28: no cycle moves a disabled envelope, nor enables it. -/
theorem disabledEnvelopeIsFrozen : Obligations.DisabledEnvelopeIsFrozen := by
  intro n s c h
  refine ⟨_, exec_advance n s, ?_⟩
  have hrun := Block.iterate_tick_induction (p := s.cfg) (fun b => (b.chan c).envEn = false ∧
      (b.chan c).envLevel = (s.chan c).envLevel ∧ (b.chan c).envCnt = (s.chan c).envCnt)
    (fun b ⟨hoff, hlevel, hcnt⟩ =>
      have hkeep := Block.tick_envelope_of_disabled (p := s.cfg) hoff
      ⟨(b.tick_settings s.cfg c).envEn.trans hoff, hkeep.1.trans hlevel, hkeep.2.trans hcnt⟩)
    (b := s.block) ⟨h, rfl, rfl⟩ n.toNat
  exact hrun.2

/-! ## The duration after INTEN(1) (R113) -/

/-- A channel whose duration starts with the run is audible only within its interval ticks, which it counts; and until then,
if no overflow can silence it. -/
theorem Block.iterate_tick_duration {p : Params} {b : Block} {c : Channel} (hdiv : b.intDiv < p.intervalPeriod)
    (hout : (b.chan c).outEn = true) (hen : (b.chan c).intEn = true) (hcnt : (b.chan c).intCnt = 0) (n : Nat) :
    ((((Block.tick p)^[n] b).chan c).outEn = true →
      (((Block.tick p)^[n] b).chan c).intCnt = (b.intDiv + n) / p.intervalPeriod ∧
      (b.intDiv + n) / p.intervalPeriod ≤ (b.chan c).intSet.toNat) ∧
    (c ≠ .ch5 → (b.intDiv + n) / p.intervalPeriod ≤ (b.chan c).intSet.toNat →
      (((Block.tick p)^[n] b).chan c).outEn = true) := by
  induction n with
  | zero =>
    rw [Nat.add_zero, Nat.div_eq_of_lt hdiv]
    exact ⟨fun _ => ⟨hcnt, Nat.zero_le _⟩, fun _ _ => hout⟩
  | succ n ih =>
    obtain ⟨hcounted, haudible⟩ := ih
    have hsettings := b.iterate_tick_settings p n c
    have hn := Block.iterate_tick_intDiv hdiv n
    rw [Function.iterate_succ_apply', Block.tick_outEn, Block.slowTicked_outEn, Block.tick_intCnt, hn, hsettings.intEn,
      hsettings.intSet, hen, ← Nat.add_assoc]
    by_cases hfires : p.intervalPeriod ≤ (b.intDiv + n) % p.intervalPeriod + 1
    · rw [(succ_modDiv_of_wraps (Nat.zero_lt_of_lt hdiv) hfires).2]
      simp only [hfires, true_and, and_true]
      constructor
      · rintro ⟨⟨ho, hlive⟩, -⟩
        obtain ⟨hc, -⟩ := hcounted ho
        rw [if_pos ho, hc]
        exact ⟨rfl, by omega⟩
      · intro hc5 hle
        have ho := haudible hc5 (by omega)
        obtain ⟨hc, -⟩ := hcounted ho
        exact ⟨⟨ho, by omega⟩, by simp [hc5]⟩
    · rw [(succ_modDiv_of_counts hfires).2]
      simp only [hfires, false_and, if_false, not_false_eq_true, and_true]
      exact ⟨fun ⟨ho, _⟩ => hcounted ho, fun hc5 hle => ⟨haudible hc5 hle, by simp [hc5]⟩⟩

/-- A channel after INTEN(1): audible, its duration at its start (R72). -/
def ChanRegs.startDuration (r : ChanRegs) : ChanRegs := { r.setOutEn true with intEn := true, intCnt := 0 }

theorem exec_inten_true (c : Channel) (s : State) :
    exec (.inten c true) s = .next (s.onBlock fun b => b.modChan c ChanRegs.startDuration) := rfl

theorem Block.chan_startDuration (b : Block) (c : Channel) :
    (b.modChan c ChanRegs.startDuration).chan c = (b.chan c).startDuration := by
  rw [Block.chan_modChan, if_pos rfl]

/-- Settles O29: INTEN(1) starts the duration, and `intSet + 1` ticks come when the cycles fill as many periods. -/
theorem durationAfterInten : Obligations.DurationAfterInten := by
  intro n s c hdiv
  have hticks : s.block.intDiv + n.toNat < ((s.chan c).intSet.toNat + 1) * s.cfg.intervalPeriod ↔
      (s.block.intDiv + n.toNat) / s.cfg.intervalPeriod ≤ (s.chan c).intSet.toNat := by
    rw [← Nat.div_lt_iff_lt_mul (Nat.zero_lt_of_lt hdiv), Nat.lt_succ_iff]
  have hchan := s.block.chan_startDuration c
  obtain ⟨hlate, hearly⟩ := Block.iterate_tick_duration (p := s.cfg) (b := s.block.modChan c ChanRegs.startDuration)
    hdiv (by rw [hchan]; rfl) (by rw [hchan]; rfl) (by rw [hchan]; rfl) n.toNat
  rw [hchan] at hlate hearly
  refine ⟨State.afterCycles (s.onBlock fun b => b.modChan c ChanRegs.startDuration) n.toNat, ?_, ?_, ?_⟩
  · simp only [execAll, exec_inten_true, exec_advance]
  · rw [hticks]
    exact fun ho => (hlate ho).2
  · rw [hticks]
    exact hearly

/-! ## Channel 5's overflow (R127) -/

theorem Block.overflowDue_of_gate {p : Params} (hgate : p.sweepIntervalMode = .gate) (b : Block) :
    b.overflowDue p ↔ sweepPeriod b.sweep.swLong ≤ b.swDiv + 1 ∧ 2048 ≤ b.sweep.nextModFreq.toNat := by
  simp [Block.overflowDue, hgate]

/-- When an overflow comes in a run of a unit that is off, in mode gate. -/
theorem Block.iterate_tick_overflowDue {p : Params} {b : Block} (hgate : p.sweepIntervalMode = .gate)
    (hoff : b.sweep.swEn = false) (hdiv : b.swDiv < sweepPeriod b.sweep.swLong) (n : Nat) :
    ((Block.tick p)^[n] b).overflowDue p ↔
      sweepPeriod b.sweep.swLong ≤ (b.swDiv + n) % sweepPeriod b.sweep.swLong + 1 ∧
      2048 ≤ b.sweep.nextModFreq.toNat := by
  rw [Block.overflowDue_of_gate hgate, (b.iterate_tick_sweepSettings p n).swLong, Block.iterate_tick_swDiv p hdiv,
    (Block.iterate_tick_sweep_of_off p hoff n).1]

/-- By the end of a period of the divider an overflowed frequency has silenced channel 5. -/
theorem Block.iterate_tick_silenced {p : Params} {b : Block} (hgate : p.sweepIntervalMode = .gate)
    (hoff : b.sweep.swEn = false) (hdiv : b.swDiv < sweepPeriod b.sweep.swLong)
    (hover : 2048 ≤ b.sweep.nextModFreq.toNat) {n : Nat} (hn : sweepPeriod b.sweep.swLong ≤ b.swDiv + n) :
    (((Block.tick p)^[n] b).chan .ch5).outEn = false := by
  induction n with
  | zero => exact absurd hn (Nat.not_le.mpr hdiv)
  | succ n ih =>
    rw [Function.iterate_succ_apply']
    by_cases hbefore : sweepPeriod b.sweep.swLong ≤ b.swDiv + n
    · exact Block.tick_outEn_of_silent (ih hbefore)
    · have hdue : ((Block.tick p)^[n] b).overflowDue p := by
        rw [Block.iterate_tick_overflowDue hgate hoff hdiv, Nat.mod_eq_of_lt (Nat.not_le.mp hbefore)]
        exact ⟨hn, hover⟩
      rw [Bool.eq_false_iff, ne_eq, Block.tick_outEn_ch5]
      exact fun h => h.2 hdue

/-- Without a duration only an overflow, from a frequency of 2048 or more at the end of a period, silences channel 5. -/
theorem Block.iterate_tick_audible {p : Params} {b : Block} (hgate : p.sweepIntervalMode = .gate)
    (hoff : b.sweep.swEn = false) (hdiv : b.swDiv < sweepPeriod b.sweep.swLong) (hen : (b.chan .ch5).intEn = false)
    {n : Nat} (hn : b.sweep.nextModFreq.toNat < 2048 ∨ b.swDiv + n < sweepPeriod b.sweep.swLong) :
    (((Block.tick p)^[n] b).chan .ch5).outEn = (b.chan .ch5).outEn := by
  induction n with
  | zero => rfl
  | succ n ih =>
    have hnot : ¬ ((Block.tick p)^[n] b).overflowDue p := by
      rw [Block.iterate_tick_overflowDue hgate hoff hdiv]
      rintro ⟨hfires, hover⟩
      have hend : b.swDiv + n + 1 < sweepPeriod b.sweep.swLong := hn.resolve_left (Nat.not_lt.mpr hover)
      rw [Nat.mod_eq_of_lt (by omega)] at hfires
      omega
    rw [Function.iterate_succ_apply', ← ih (hn.imp_right (by omega)), Bool.eq_iff_iff, Block.tick_outEn_ch5,
      Block.slowTicked_outEn, (b.iterate_tick_settings p n .ch5).intEn, hen]
    simp [hnot]

/-- Settles O43: the two halves above, for the run of an ADVANCE. -/
theorem overflowSilencesChannelFive : Obligations.OverflowSilencesChannelFive := by
  intro n s hgate hoff hdiv
  exact ⟨_, exec_advance n s, fun hover hn => Block.iterate_tick_silenced hgate hoff hdiv hover hn,
    fun hen hn => Block.iterate_tick_audible hgate hoff hdiv hen hn⟩

end Sys2Proof.Machine
end

section
/-! The accumulators and the shift register over a run of cycles: the step period as the least count that reaches the
threshold, and O31 to O33, O35 and O36. -/

namespace Sys2Proof.Machine

/-! ## The step period (R118, R136) -/

theorem stepPeriod_pos (inc f : Nat) : 0 < stepPeriod inc f := Nat.lt_of_lt_of_le Nat.one_pos (Nat.le_max_left ..)

/-- The step period is the least number of increments, at least one, that reaches the threshold. -/
theorem stepPeriod_le_iff {inc f m : Nat} (hinc : 0 < inc) (hm : 1 ≤ m) :
    stepPeriod inc f ≤ m ↔ 2048 ≤ inc * m + f := by
  have hceil : (2048 - f + (inc - 1)) / inc ≤ m ↔ 2048 - f + (inc - 1) < (m + 1) * inc := by
    rw [← Nat.lt_succ_iff, Nat.div_lt_iff_lt_mul hinc]
  have hexpand : (m + 1) * inc = inc * m + inc := by rw [Nat.add_mul, Nat.one_mul, Nat.mul_comm]
  rw [stepPeriod, max_le_iff, hceil, hexpand]
  omega

/-- Settles O32: with the increment 120 the period is a ceiling of 120ths. -/
theorem eighteenWavePeriods : Obligations.EighteenWavePeriods := by
  unfold Obligations.EighteenWavePeriods stepPeriod
  refine ⟨fun f => ?_, fun f k hlo hhi hf => ?_, fun f hf => ?_⟩ <;> omega

/-- An accumulator in its `n`-th cycle from 0 reaches the threshold at the end of a step period. -/
theorem reaches_iff_periodEnd {inc : Nat} (hinc : 0 < inc) (f n : Nat) :
    2048 ≤ inc * (n % stepPeriod inc f) + inc + f ↔ stepPeriod inc f ≤ n % stepPeriod inc f + 1 := by
  rw [stepPeriod_le_iff hinc (Nat.le_add_left ..), Nat.mul_add, Nat.mul_one]

/-- An accumulator that starts at 0 counts its increments within the step period. -/
theorem accNext_sequence {inc f : Nat} (hinc : 0 < inc) {d : Nat → Nat} (h0 : d 0 = 0)
    (hstep : ∀ n, d (n + 1) = accNext inc f (d n)) (n : Nat) : d n = inc * (n % stepPeriod inc f) := by
  induction n with
  | zero => rw [h0, Nat.zero_mod, Nat.mul_zero]
  | succ n ih =>
    rw [hstep, ih]
    by_cases h : stepPeriod inc f ≤ n % stepPeriod inc f + 1
    · rw [accNext_of_reached ((reaches_iff_periodEnd hinc f n).mpr h), (succ_modDiv_of_wraps (stepPeriod_pos ..) h).1]
      rfl
    · rw [accNext_of_below (mt (reaches_iff_periodEnd hinc f n).mp h), (succ_modDiv_of_counts h).1]
      rfl

/-! ## The wave accumulators (R117, R118) -/

theorem Block.iterate_tick_cycleFreq (p : Params) (b : Block) {w : WaveChannel} (hw : w ≠ .ch5) (n : Nat) :
    ((Block.tick p)^[n] b).cycleFreq p w = (b.chan w.channel).freq.toNat := by
  rw [Block.cycleFreq_standard p _ hw, (b.iterate_tick_settings p n w.channel).freq]

theorem Block.iterate_tick_phCnt_wave {b : Block} (p : Params) {w : WaveChannel} (hw : w ≠ .ch5)
    (h0 : (b.chan w.channel).phCnt = 0) (n : Nat) :
    (((Block.tick p)^[n] b).chan w.channel).phCnt =
      waveIncrement * (n % stepPeriod waveIncrement (b.chan w.channel).freq.toNat) :=
  accNext_sequence (d := fun n => (((Block.tick p)^[n] b).chan w.channel).phCnt) (by decide) h0
    (fun n => by rw [Function.iterate_succ_apply', Block.tick_phCnt_wave, Block.iterate_tick_cycleFreq p b hw]) n

/-- From 0 the threshold is reached at the end of each step period. -/
theorem Block.iterate_tick_reaches_wave {b : Block} (p : Params) {w : WaveChannel} (hw : w ≠ .ch5)
    (h0 : (b.chan w.channel).phCnt = 0) (n : Nat) :
    2048 ≤ (((Block.tick p)^[n] b).chan w.channel).phCnt + waveIncrement + ((Block.tick p)^[n] b).cycleFreq p w ↔
      stepPeriod waveIncrement (b.chan w.channel).freq.toNat ≤
        n % stepPeriod waveIncrement (b.chan w.channel).freq.toNat + 1 := by
  rw [Block.iterate_tick_phCnt_wave p hw h0, Block.iterate_tick_cycleFreq p b hw]
  exact reaches_iff_periodEnd (by decide) ..

theorem Block.iterate_tick_phase {b : Block} (p : Params) {w : WaveChannel} (hw : w ≠ .ch5)
    (h0 : (b.chan w.channel).phCnt = 0) (n : Nat) :
    (((Block.tick p)^[n] b).waveRegs w).phase.toNat =
      ((b.waveRegs w).phase.toNat + n / stepPeriod waveIncrement (b.chan w.channel).freq.toNat) % 32 := by
  induction n with
  | zero => rw [Nat.zero_div, Nat.add_zero, Function.iterate_zero_apply, Nat.mod_eq_of_lt (b.waveRegs w).phase.isLt]
  | succ n ih =>
    have hdue := Block.iterate_tick_reaches_wave p hw h0 n
    rw [Function.iterate_succ_apply']
    by_cases h : stepPeriod waveIncrement (b.chan w.channel).freq.toNat ≤
        n % stepPeriod waveIncrement (b.chan w.channel).freq.toNat + 1
    · rw [(succ_modDiv_of_wraps (stepPeriod_pos ..) h).2, (Block.tick_wave_of_reached (hdue.mpr h)).2, ih, Nat.mod_add_mod,
        Nat.add_assoc]
    · rw [(succ_modDiv_of_counts h).2, (Block.tick_wave_of_below (mt hdue.mp h)).2, ih]

/-- Settles O31: count and phase of the run's last cycle, both by the step period. -/
theorem wavePhaseStepsEveryPeriod : Obligations.WavePhaseStepsEveryPeriod := fun n s _ hw h0 =>
  ⟨_, exec_advance n s, Block.iterate_tick_phase s.cfg hw h0 n.toNat, Block.iterate_tick_phCnt_wave s.cfg hw h0 n.toNat⟩

/-! ## The noise accumulator (R135, R136) -/

theorem Block.iterate_tick_phCnt_ch6 {b : Block} (p : Params) (h0 : (b.chan .ch6).phCnt = 0) (n : Nat) :
    (((Block.tick p)^[n] b).chan .ch6).phCnt =
      noiseIncrement * (n % stepPeriod noiseIncrement (b.chan .ch6).freq.toNat) :=
  accNext_sequence (d := fun n => (((Block.tick p)^[n] b).chan .ch6).phCnt) (by decide) h0
    (fun n => by
      rw [Function.iterate_succ_apply', Block.tick_phCnt_ch6, (b.iterate_tick_settings p n .ch6).freq]) n

/-- From 0 the threshold is reached at the end of each step period. -/
theorem Block.iterate_tick_reaches_noise {b : Block} (p : Params) (h0 : (b.chan .ch6).phCnt = 0) (n : Nat) :
    2048 ≤ (((Block.tick p)^[n] b).chan .ch6).phCnt + noiseIncrement + (((Block.tick p)^[n] b).chan .ch6).freq.toNat ↔
      stepPeriod noiseIncrement (b.chan .ch6).freq.toNat ≤
        n % stepPeriod noiseIncrement (b.chan .ch6).freq.toNat + 1 := by
  rw [Block.iterate_tick_phCnt_ch6 p h0, (b.iterate_tick_settings p n .ch6).freq]
  exact reaches_iff_periodEnd (by decide) ..

theorem Block.iterate_tick_noise {b : Block} (p : Params) (h0 : (b.chan .ch6).phCnt = 0) (n : Nat) :
    ((Block.tick p)^[n] b).noise =
      NoiseRegs.lfsrStep^[n / stepPeriod noiseIncrement (b.chan .ch6).freq.toNat] b.noise := by
  induction n with
  | zero => rw [Nat.zero_div]; rfl
  | succ n ih =>
    have hdue := Block.iterate_tick_reaches_noise p h0 n
    rw [Function.iterate_succ_apply']
    by_cases h : stepPeriod noiseIncrement (b.chan .ch6).freq.toNat ≤
        n % stepPeriod noiseIncrement (b.chan .ch6).freq.toNat + 1
    · rw [(succ_modDiv_of_wraps (stepPeriod_pos ..) h).2, (Block.tick_noise_of_reached (hdue.mpr h)).2, ih,
        Function.iterate_succ_apply']
    · rw [(succ_modDiv_of_counts h).2, (Block.tick_noise_of_below (mt hdue.mp h)).2, ih]

/-- Settles O33: shift register and count of the run's last cycle, both by the step period. -/
theorem noiseStepsEveryPeriod : Obligations.NoiseStepsEveryPeriod := fun n s h0 =>
  ⟨_, exec_advance n s, Block.iterate_tick_noise s.cfg h0 n.toNat, Block.iterate_tick_phCnt_ch6 s.cfg h0 n.toNat⟩

/-! ## The shift register's fixed point (R141, R142) -/

/-- A cycle steps the shift register once or not at all. -/
theorem Block.tick_noise_cases (p : Params) (b : Block) :
    (b.tick p).noise = b.noise.lfsrStep ∨ (b.tick p).noise = b.noise := by
  rw [Block.tick_noise]
  exact ite_eq_or_eq ..

theorem lfsrFeedback_zero (t : Nat) : lfsrFeedback 0 t = false := by simp [lfsrFeedback_eq_xor]

/-- State 0 feeds back 0, whatever the tap. -/
theorem lfsrNext_zero (t : Nat) : lfsrNext 0 t = 0 := by
  rw [lfsrNext, lfsrFeedback_zero]
  rfl

theorem NoiseRegs.lfsrStep_of_zero {n : NoiseRegs} (h : n.lfsr = 0) : n.lfsrStep.lfsr = 0 ∧ n.lfsrStep.noiseOut = 63 := by
  rw [NoiseRegs.lfsrStep_lfsr, NoiseRegs.lfsrStep_noiseOut, h, lfsrFeedback_zero]
  exact ⟨lfsrNext_zero _, rfl⟩

/-- Steps of the noise registers under one tap are steps of the shift register alone. -/
theorem NoiseRegs.iterate_lfsrStep_lfsr {n : NoiseRegs} {tap : BitVec 3} (h : n.tap = tap) (k : Nat) :
    (NoiseRegs.lfsrStep^[k] n).lfsr = (fun sr => lfsrNext sr (tapOffset tap))^[k] n.lfsr := by
  induction k generalizing n with
  | zero => rfl
  | succ k ih =>
    rw [Function.iterate_succ_apply, Function.iterate_succ_apply, ih ((NoiseRegs.lfsrStep_tap n).trans h),
      NoiseRegs.lfsrStep_lfsr, h]

/-- Settles O35: 0 feeds back 0 (`lfsrNext_zero`); the path to it is a computation on the shift register alone. -/
theorem lfsrZeroIsFixed : Obligations.LfsrZeroIsFixed := by
  refine ⟨fun n => NoiseRegs.lfsrStep_of_zero, fun n s h => ⟨_, exec_advance n s, ?_⟩, fun n h => ?_⟩
  · refine Block.iterate_tick_induction (fun b => b.noise.lfsr = 0 ∧
      (b.noise.noiseOut = s.block.noise.noiseOut ∨ b.noise.noiseOut = 63)) (fun b hb => ?_) ⟨h, .inl rfl⟩ n.toNat
    obtain hstep | hsame := b.tick_noise_cases s.cfg
    · rw [hstep]
      exact (NoiseRegs.lfsrStep_of_zero hb.1).imp_right .inr
    · rw [hsame]
      exact hb
  · intro n1 n2 n3
    have h1 : n1.lfsr = 0x7F00 := by
      rw [NoiseRegs.iterate_lfsrStep_lfsr (tap := 0) rfl, h]
      decide
    have h2 : n2.lfsr = 0x7800 := by
      rw [NoiseRegs.iterate_lfsrStep_lfsr (tap := 3) rfl, h1]
      decide
    have h3 : n3.lfsr = 0 := by
      rw [NoiseRegs.iterate_lfsrStep_lfsr (tap := 1) rfl, h2]
      decide
    exact ⟨h1, h2, h3⟩

/-- With tap 0 the bit that is dropped is fed back, so only state 0 steps to 0. -/
theorem lfsrNext_tapZero_ne_zero {sr : BitVec 15} (h : sr ≠ 0) : lfsrNext sr (tapOffset 0) ≠ 0 := by
  intro hzero
  have hbits (i : Nat) (hi : i < 15) : (if i = 0 then lfsrFeedback sr 14 else sr.getLsbD (i - 1)) = false := by
    rw [← lfsrNext_getLsbD sr 14 hi, show lfsrNext sr 14 = 0#15 from hzero, BitVec.getLsbD_zero]
  have hlow (i : Nat) (hi : i < 14) : sr.getLsbD i = false := by simpa using hbits (i + 1) (by omega)
  have hhigh : sr.getLsbD 14 = false := by
    have hfeed := hbits 0 (by decide)
    rwa [if_pos rfl, lfsrFeedback_eq_xor, hlow 7 (by decide), Bool.false_xor] at hfeed
  apply h
  apply BitVec.eq_of_getLsbD_eq
  intro i hi
  show sr.getLsbD i = (0#15).getLsbD i
  rw [BitVec.getLsbD_zero]
  obtain hlt | rfl := Nat.lt_or_eq_of_le (Nat.le_of_lt_succ hi)
  · exact hlow i hlt
  · exact hhigh

/-- Settles O36: no step under tap 0 leaves a state that is not 0 at 0, and no cycle moves the tap. -/
theorem lfsrTapZeroNeverDies : Obligations.LfsrTapZeroNeverDies := by
  intro n s htap h
  refine ⟨_, exec_advance n s, ?_⟩
  have hrun := Block.iterate_tick_induction (p := s.cfg) (fun b => b.noise.tap = 0 ∧ b.noise.lfsr ≠ 0) (fun b hb => ?_)
    (b := s.block) ⟨htap, h⟩ n.toNat
  · exact hrun.2
  · refine ⟨(b.tick_tap s.cfg).trans hb.1, ?_⟩
    obtain hstep | hsame := b.tick_noise_cases s.cfg
    · rw [hstep, NoiseRegs.lfsrStep_lfsr, hb.1]
      exact lfsrNext_tapZero_ne_zero hb.2
    · rw [hsame]
      exact hb.2

end Sys2Proof.Machine
end

section
/-! The normalised output: rounding to nearest in integers, the binary exponent of Q / 21888, the fields of the float's bits,
and O49 and O50. -/

namespace Sys2Proof.Machine

/-! ## Rounding to nearest, ties to even (R148) -/

theorem roundNearestEven_cases (n d : Nat) :
    (roundNearestEven n d = n / d ∧ 2 * (n % d) ≤ d ∧ (2 * (n % d) = d → n / d % 2 = 0)) ∨
    (roundNearestEven n d = n / d + 1 ∧ d ≤ 2 * (n % d) ∧ (2 * (n % d) = d → (n / d + 1) % 2 = 0)) := by
  unfold roundNearestEven
  dsimp only
  split_ifs with h
  · exact .inr ⟨rfl, by omega, by omega⟩
  · exact .inl ⟨rfl, by omega, by omega⟩

/-- The rounded quotient lies within half a divisor of the dividend, and is even when it lies that far away. -/
theorem roundNearestEven_error {n d : Nat} (hd : 0 < d) :
    2 * |(roundNearestEven n d : Int) * d - n| ≤ d ∧
    (2 * |(roundNearestEven n d : Int) * d - n| = d → roundNearestEven n d % 2 = 0) := by
  have hdecomp : (n : Int) = (n / d : Nat) * d + (n % d : Nat) := by
    exact_mod_cast (Nat.div_add_mod' n d).symm
  have hmod := Nat.mod_lt n hd
  obtain ⟨hk, hle, heven⟩ | ⟨hk, hge, heven⟩ := roundNearestEven_cases n d
  · have herr : (roundNearestEven n d : Int) * d - n = -((n % d : Nat) : Int) := by rw [hk]; linarith
    rw [herr, abs_neg, Nat.abs_cast, hk]
    omega
  · have herr : (roundNearestEven n d : Int) * d - n = ((d - n % d : Nat) : Int) := by
      rw [hk, Nat.cast_sub hmod.le]
      push_cast at hdecomp ⊢
      linarith
    rw [herr, Nat.abs_cast, hk]
    omega

/-- Rounding stays between integer bounds of the quotient. -/
theorem roundNearestEven_mem {n d a b : Nat} (hd : 0 < d) (ha : a * d ≤ n) (hb : n < b * d) :
    a ≤ roundNearestEven n d ∧ roundNearestEven n d ≤ b := by
  have hlo : a ≤ n / d := (Nat.le_div_iff_mul_le hd).mpr ha
  have hhi : n / d < b := (Nat.div_lt_iff_lt_mul hd).mpr hb
  obtain ⟨hk, -⟩ | ⟨hk, -⟩ := roundNearestEven_cases n d <;> omega

/-! ## The binary exponent -/

/-- The binary exponent of `q / 21888`, plus 64. -/
def scaledExponent (q : Nat) : Nat := (q * 2 ^ 64 / fullScale).log2

theorem scaledExponent_bounds {q : Nat} (h0 : 0 < q) :
    2 ^ scaledExponent q * fullScale ≤ q * 2 ^ 64 ∧ q * 2 ^ 64 < 2 ^ (scaledExponent q + 1) * fullScale := by
  have hne : q * 2 ^ 64 / fullScale ≠ 0 := by unfold fullScale; omega
  exact ⟨(Nat.le_div_iff_mul_le (by decide)).mp (Nat.log2_self_le hne),
    (Nat.div_lt_iff_lt_mul (by decide)).mp Nat.lt_log2_self⟩

/-- A Q below 2^18 gives a value between 2^-15 and 2^4. -/
theorem scaledExponent_range {q : Nat} (h0 : 0 < q) (h18 : q < 2 ^ 18) :
    49 ≤ scaledExponent q ∧ scaledExponent q ≤ 67 := by
  have hne : q * 2 ^ 64 / fullScale ≠ 0 := by unfold fullScale; omega
  constructor
  · exact (Nat.le_log2 hne).mpr (by unfold fullScale; omega)
  · exact Nat.le_of_lt_succ ((Nat.log2_lt hne).mpr (by unfold fullScale; omega))

/-! ## The significand -/

/-- The dividend whose rounded quotient by 21888 is the significand, for a format with `m` fraction bits. -/
def scaledDividend (m q : Nat) : Nat := q * 2 ^ (m + 64 - scaledExponent q)

theorem floatBits_eq {m bias q : Nat} (h0 : 0 < q) :
    floatBits (m + 1) bias q =
      (scaledExponent q + bias - 65) * 2 ^ m + roundNearestEven (scaledDividend m q) fullScale :=
  if_neg (Nat.pos_iff_ne_zero.mp h0)

theorem scaledDividend_mul {m q : Nat} (h : scaledExponent q ≤ m + 64) :
    scaledDividend m q * 2 ^ scaledExponent q = q * 2 ^ 64 * 2 ^ m := by
  rw [scaledDividend, Nat.mul_assoc, ← Nat.pow_add, Nat.sub_add_cancel h, Nat.mul_assoc, ← Nat.pow_add, Nat.add_comm]

/-- The significand has its leading bit set, or has been rounded up to the next power of two. -/
theorem significand_mem {m q : Nat} (h0 : 0 < q) (h : scaledExponent q ≤ m + 64) :
    2 ^ m ≤ roundNearestEven (scaledDividend m q) fullScale ∧
    roundNearestEven (scaledDividend m q) fullScale ≤ 2 ^ (m + 1) := by
  obtain ⟨hlo, hhi⟩ := scaledExponent_bounds h0
  have hscale := scaledDividend_mul h
  apply roundNearestEven_mem (by decide)
  · refine Nat.le_of_mul_le_mul_right ?_ (Nat.two_pow_pos (scaledExponent q))
    calc 2 ^ m * fullScale * 2 ^ scaledExponent q
        = 2 ^ scaledExponent q * fullScale * 2 ^ m := by ring
      _ ≤ q * 2 ^ 64 * 2 ^ m := Nat.mul_le_mul_right _ hlo
      _ = _ := hscale.symm
  · refine Nat.lt_of_mul_lt_mul_right (a := 2 ^ scaledExponent q) ?_
    calc scaledDividend m q * 2 ^ scaledExponent q
        = q * 2 ^ 64 * 2 ^ m := hscale
      _ < 2 ^ (scaledExponent q + 1) * fullScale * 2 ^ m := Nat.mul_lt_mul_of_pos_right hhi (Nat.two_pow_pos m)
      _ = 2 ^ (m + 1) * fullScale * 2 ^ scaledExponent q := by ring

/-! ## The fields of the bits -/

/-- The significand of a float whose bits have `m` fraction bits, its leading bit made explicit. -/
def floatSignificand (m bits : Nat) : Int := 2 ^ m + (bits % 2 ^ m : Nat)

/-- The distance of a float from `q / 21888`, in units of its last place and times 21888. -/
def floatError (m bias q bits : Nat) : Int :=
  floatSignificand m bits * 21888 - (q : Int) * 2 ^ (bias + m - bits / 2 ^ m)

/-- The bits are those of the float nearest to `q / 21888`, ties to even, its exponent in the range Q below 2^18 gives. -/
structure IsNearestFloat (m bias q bits : Nat) : Prop where
  lower : bias ≤ bits / 2 ^ m + 15
  upper : bits / 2 ^ m ≤ bias + 4
  nearest : 2 * |floatError m bias q bits| ≤ 21888
  ties : 2 * |floatError m bias q bits| = 21888 → floatSignificand m bits % 2 = 0

/-- Exponent and fraction of bits put together from an exponent and a significand below the next power of two. -/
theorem fields_of_significand {m e sig : Nat} (hlo : 2 ^ m ≤ sig) (hhi : sig < 2 ^ (m + 1)) :
    (e * 2 ^ m + sig) / 2 ^ m = e + 1 ∧ (e * 2 ^ m + sig) % 2 ^ m = sig - 2 ^ m := by
  rw [Nat.pow_succ] at hhi
  refine (Nat.div_mod_unique (Nat.two_pow_pos m)).mpr ⟨?_, by omega⟩
  rw [Nat.mul_add, Nat.mul_comm e]
  omega

/-- The same where rounding carried: the carry is one more in the exponent, and the fraction is 0. -/
theorem fields_of_carry (m e : Nat) :
    (e * 2 ^ m + 2 ^ (m + 1)) / 2 ^ m = e + 2 ∧ (e * 2 ^ m + 2 ^ (m + 1)) % 2 ^ m = 0 := by
  have hsum : e * 2 ^ m + 2 ^ (m + 1) = 2 ^ m * (e + 2) := by ring
  rw [hsum]
  exact ⟨Nat.mul_div_cancel_left _ (Nat.two_pow_pos m), Nat.mul_mod_right ..⟩

theorem floatBits_isNearest {m bias q : Nat} (hm : 4 ≤ m) (hbias : 65 ≤ bias) (h0 : 0 < q) (h18 : q < 2 ^ 18) :
    IsNearestFloat m bias q (floatBits (m + 1) bias q) := by
  obtain ⟨he, he'⟩ := scaledExponent_range h0 h18
  obtain ⟨hlo, hhi⟩ := significand_mem (m := m) h0 (by omega)
  obtain ⟨hnear, htie⟩ := roundNearestEven_error (n := scaledDividend m q) (d := fullScale) (by decide)
  rw [floatBits_eq h0]
  unfold fullScale at *
  rw [scaledDividend] at *
  generalize scaledExponent q = e at *
  generalize hsig : roundNearestEven (q * 2 ^ (m + 64 - e)) 21888 = sig at *
  push_cast at hnear htie
  obtain hlt | heq := Nat.lt_or_eq_of_le hhi
  · obtain ⟨hexp, hfrac⟩ := fields_of_significand (e := e + bias - 65) hlo hlt
    have hs : floatSignificand m ((e + bias - 65) * 2 ^ m + sig) = sig := by
      rw [floatSignificand, hfrac, Nat.cast_sub hlo]
      push_cast
      ring
    have herr : floatError m bias q ((e + bias - 65) * 2 ^ m + sig) = sig * 21888 - (q : Int) * 2 ^ (m + 64 - e) := by
      rw [floatError, hs, hexp, show bias + m - (e + bias - 65 + 1) = m + 64 - e by omega]
    refine ⟨by omega, by omega, herr ▸ hnear, fun h => ?_⟩
    rw [hs]
    exact_mod_cast htie (herr ▸ h)
  · obtain ⟨hexp, hfrac⟩ := fields_of_carry m (e + bias - 65)
    rw [heq] at hnear ⊢
    have hs : floatSignificand m ((e + bias - 65) * 2 ^ m + 2 ^ (m + 1)) = 2 ^ m := by
      rw [floatSignificand, hfrac]
      simp
    have herr : (2 ^ (m + 1) : Nat) * (21888 : Int) - q * 2 ^ (m + 64 - e) =
        2 * floatError m bias q ((e + bias - 65) * 2 ^ m + 2 ^ (m + 1)) := by
      rw [floatError, hs, hexp, show bias + m - (e + bias - 65 + 2) = m + 63 - e by omega,
        show m + 64 - e = m + 63 - e + 1 by omega]
      push_cast
      ring
    rw [herr, abs_mul, abs_two] at hnear
    refine ⟨by omega, by omega, by omega, fun h => ?_⟩
    have := abs_nonneg (floatError m bias q ((e + bias - 65) * 2 ^ m + 2 ^ (m + 1)))
    omega

/-- The bits fit the format: the exponent field stays below the one for 2^5. -/
theorem IsNearestFloat.bits_lt {m bias q bits : Nat} (h : IsNearestFloat m bias q bits) :
    bits < (bias + 5) * 2 ^ m :=
  (Nat.div_lt_iff_lt_mul (Nat.two_pow_pos m)).mp (Nat.lt_succ_of_le h.upper)

theorem floatBits_lt {m bias q : Nat} (hm : 4 ≤ m) (hbias : 65 ≤ bias) (h18 : q < 2 ^ 18) :
    floatBits (m + 1) bias q < (bias + 5) * 2 ^ m := by
  obtain rfl | h0 := Nat.eq_zero_or_pos q
  · exact Nat.mul_pos (by omega) (Nat.two_pow_pos m)
  · exact (floatBits_isNearest hm hbias h0 h18).bits_lt

theorem floatBits_binary64_lt {q : Nat} (h18 : q < 2 ^ 18) : floatBits 53 1023 q < 2 ^ 64 :=
  (floatBits_lt (m := 52) (by decide) (by decide) h18).trans (by decide)

theorem floatBits_binary32_lt {q : Nat} (h18 : q < 2 ^ 18) : floatBits 24 127 q < 2 ^ 32 :=
  (floatBits_lt (m := 23) (by decide) (by decide) h18).trans (by decide)

/-- Settles O49: the bits of both formats are those of the nearest float (`floatBits_isNearest`). -/
theorem outputIsCorrectlyRounded : Obligations.OutputIsCorrectlyRounded := by
  refine ⟨fun q h0 h18 => ⟨⟨_, rfl, ?_⟩, ⟨_, rfl, ?_⟩⟩, rfl, rfl, by decide, by decide⟩
  · obtain ⟨hlo, hhi, hnear, htie⟩ : IsNearestFloat 52 1023 q (floatBits 53 1023 q) :=
      floatBits_isNearest (by decide) (by decide) h0 h18
    rw [BitVec.toNat_ofNat, Nat.mod_eq_of_lt (floatBits_binary64_lt h18)]
    exact ⟨by omega, by omega, hnear, htie⟩
  · obtain ⟨hlo, hhi, hnear, htie⟩ : IsNearestFloat 23 127 q (floatBits 24 127 q) :=
      floatBits_isNearest (by decide) (by decide) h0 h18
    rw [BitVec.toNat_ofNat, Nat.mod_eq_of_lt (floatBits_binary32_lt h18)]
    exact ⟨by omega, by omega, hnear, htie⟩

/-! ## Different outputs have different bits (R148) -/

/-- Two outputs with the same nearest float differ by at most one unit of its last place. -/
theorem IsNearestFloat.scaled_diff_le {m bias q q' bits : Nat} (h : IsNearestFloat m bias q bits)
    (h' : IsNearestFloat m bias q' bits) : |(q : Int) - q'| * 2 ^ (bias + m - bits / 2 ^ m) ≤ 21888 := by
  have hnear := abs_le.mp (show |floatError m bias q bits| ≤ 10944 by have := h.nearest; omega)
  have hnear' := abs_le.mp (show |floatError m bias q' bits| ≤ 10944 by have := h'.nearest; omega)
  have hdiff : ((q : Int) - q') * 2 ^ (bias + m - bits / 2 ^ m) = floatError m bias q' bits - floatError m bias q bits := by
    simp only [floatError]
    ring
  rw [← abs_of_pos (show (0 : Int) < 2 ^ (bias + m - bits / 2 ^ m) by positivity), ← abs_mul, hdiff, abs_le]
  constructor <;> linarith

/-- A unit of the last place is far below the step 32 between two outputs, in a format with 14 fraction bits or more. -/
theorem IsNearestFloat.unique {m bias a c bits : Nat} (hm : 14 ≤ m) (h : IsNearestFloat m bias (32 * a) bits)
    (h' : IsNearestFloat m bias (32 * c) bits) : a = c := by
  by_contra hne
  have hdiff := h.scaled_diff_le h'
  have hupper := h.upper
  have hstep : (32 : Int) ≤ |((32 * a : Nat) : Int) - (32 * c : Nat)| := le_abs.mpr (by omega)
  have hscale : (2 : Int) ^ 10 ≤ 2 ^ (bias + m - bits / 2 ^ m) := pow_le_pow_right₀ (by decide) (by omega)
  have hprod := mul_le_mul hstep hscale (by positivity) (abs_nonneg _)
  linarith

theorem floatBits_injective {m bias a c : Nat} (hm : 14 ≤ m) (hbias : 65 ≤ bias) (ha : a ≤ 684) (hc : c ≤ 684)
    (h : floatBits (m + 1) bias (32 * a) = floatBits (m + 1) bias (32 * c)) : a = c := by
  have hnearest {x : Nat} (h0 : 0 < x) (hx : x ≤ 684) :
      IsNearestFloat m bias (32 * x) (floatBits (m + 1) bias (32 * x)) :=
    floatBits_isNearest (by omega) hbias (by omega) (by omega)
  have hpositive {x : Nat} (h0 : 0 < x) (hx : x ≤ 684) : floatBits (m + 1) bias (32 * x) ≠ 0 := by
    intro hzero
    have hlower := (hnearest h0 hx).lower
    rw [hzero, Nat.zero_div] at hlower
    omega
  obtain rfl | ha0 := Nat.eq_zero_or_pos a <;> obtain rfl | hc0 := Nat.eq_zero_or_pos c
  · rfl
  · exact absurd h.symm (hpositive hc0 hc)
  · exact absurd h (hpositive ha0 ha)
  · exact (hnearest ha0 ha).unique hm (h ▸ hnearest hc0 hc)

/-- Settles O50: equal floats have equal bits, and equal bits come from one Q (`floatBits_injective`). -/
theorem equalOutputsHaveEqualQ : Obligations.EqualOutputsHaveEqualQ := by
  intro fmt a c ha hc h
  cases fmt with
  | binary64 =>
    have hbits := congrArg BitVec.toNat (FloatBits.b64.inj h)
    rw [BitVec.toNat_ofNat, BitVec.toNat_ofNat, Nat.mod_eq_of_lt (floatBits_binary64_lt (by omega)),
      Nat.mod_eq_of_lt (floatBits_binary64_lt (by omega))] at hbits
    exact floatBits_injective (m := 52) (by decide) (by decide) ha hc hbits
  | binary32 =>
    have hbits := congrArg BitVec.toNat (FloatBits.b32.inj h)
    rw [BitVec.toNat_ofNat, BitVec.toNat_ofNat, Nat.mod_eq_of_lt (floatBits_binary32_lt (by omega)),
      Nat.mod_eq_of_lt (floatBits_binary32_lt (by omega))] at hbits
    exact floatBits_injective (m := 23) (by decide) (by decide) ha hc hbits

end Sys2Proof.Machine
end

section
/-! The remaining field writes and rules on pairs of commands: a change of one wave channel, of the sweep/modulation unit and
of the noise registers leaves the rest alone; writes repeated, writes in either order; and O12 to O16, O56 and O57. -/

namespace Sys2Proof.Machine

/-! ## Encodings (R60, R66) -/

theorem asU3_eq (v : Word) : asU3 v = BitVec.ofNat 3 (v.toNat % 8) := setWidth_eq_ofNat_mod 3 v

theorem asU16_eq (v : Word) : asU16 v = BitVec.ofNat 16 (v.toNat % 65536) := setWidth_eq_ofNat_mod 16 v

/-- A W command to the fid of a field its channel lacks is no operation (R66). -/
theorem decode_absentField {k : FieldKind} {c : Channel} (h : k.validOn c = false) (v : Word) :
    decode (.w (fieldFid c k.code.toNat) v) = .nop .fieldAbsent := by
  rw [fieldFid_code]
  simp [decode, Command.fid, decodeField, h]

/-! ## Changes of one part of the block (R70) -/

theorem State.onBlock_modWave_registers (s : State) (w : WaveChannel) (f : WaveRegs → WaveRegs) :
    Registers s (s.onBlock fun b => b.modWave w f) unchanged (onlyWave w f) id id where
  chan _ := rfl
  wave d := Block.waveRegs_modWave s.block w d f
  sweep := rfl
  noise := rfl
  tables := ⟨fun _ => rfl, fun _ => rfl⟩
  dividers := ⟨rfl, rfl, rfl⟩
  outside := s.onBlock_sameOutside _

theorem State.onBlock_modSweep_registers (s : State) (f : SweepRegs → SweepRegs) :
    Registers s (s.onBlock fun b => b.modSweep f) unchanged unchanged f id where
  chan _ := rfl
  wave _ := rfl
  sweep := rfl
  noise := rfl
  tables := ⟨fun _ => rfl, fun _ => rfl⟩
  dividers := ⟨rfl, rfl, rfl⟩
  outside := s.onBlock_sameOutside _

theorem State.onBlock_modNoise_registers (s : State) (f : NoiseRegs → NoiseRegs) :
    Registers s (s.onBlock fun b => b.modNoise f) unchanged unchanged id f where
  chan _ := rfl
  wave _ := rfl
  sweep := rfl
  noise := rfl
  tables := ⟨fun _ => rfl, fun _ => rfl⟩
  dividers := ⟨rfl, rfl, rfl⟩
  outside := s.onBlock_sameOutside _

/-- Settles O12: the three writes change one channel's registers (`State.onBlock_modChan_registers`). -/
theorem frequencyAndStereoWrites : Obligations.FrequencyAndStereoWrites :=
  ⟨fun c v => ⟨decode_fieldFid .freq rfl rfl, decode_fieldFid .voll rfl (congrArg (Instr.voll c) (asU4_eq v)),
      decode_fieldFid .volr rfl (congrArg (Instr.volr c) (asU4_eq v))⟩,
    fun c _ s => ⟨_, rfl, s.onBlock_modChan_registers c _⟩,
    fun c _ s => ⟨_, rfl, s.onBlock_modChan_registers c _⟩,
    fun c _ s => ⟨_, rfl, s.onBlock_modChan_registers c _⟩⟩

theorem exec_wavsel (w : WaveChannel) (v : BitVec 3) (s : State) :
    exec (.wavsel w.channel v) s = .next (s.onBlock fun b => b.modWave w fun r => { r with wave := v }) := by
  cases w <;> rfl

/-- Settles O13: the write changes one wave channel's registers (`State.onBlock_modWave_registers`). -/
theorem waveSelectWrites : Obligations.WaveSelectWrites :=
  ⟨fun w v => decode_fieldFid .wavsel (by cases w <;> rfl) (congrArg (Instr.wavsel w.channel) (asU3_eq v)),
    fun v => ⟨.fieldAbsent, decode_absentField (k := .wavsel) (c := .ch6) rfl v⟩,
    fun w v s => ⟨_, exec_wavsel w v s, s.onBlock_modWave_registers w _⟩⟩

/-- Settles O14: the write changes the noise registers only (`State.onBlock_modNoise_registers`). -/
theorem tapWrites : Obligations.TapWrites :=
  ⟨fun v => decode_fieldFid .tap (c := .ch6) rfl (congrArg Instr.tap (asU3_eq v)),
    fun w v => ⟨.fieldAbsent, decode_absentField (k := .tap) (by cases w <;> rfl) v⟩,
    fun _ s => ⟨_, rfl, s.onBlock_modNoise_registers _⟩⟩

/-- Settles O15: the seven writes change the sweep/modulation registers only (`State.onBlock_modSweep_registers`). -/
theorem sweepSettingWrites : Obligations.SweepSettingWrites :=
  ⟨fun v => ⟨decode_fieldFid .swdir (c := .ch5) rfl (congrArg Instr.swdir (asBool_eq v)),
      decode_fieldFid .swen (c := .ch5) rfl (congrArg Instr.swen (asBool_eq v)),
      decode_fieldFid .swfunc (c := .ch5) rfl (congrArg Instr.swfunc (asBool_eq v)),
      decode_fieldFid .swint (c := .ch5) rfl (congrArg Instr.swint (asU3_eq v)),
      decode_fieldFid .swshift (c := .ch5) rfl (congrArg Instr.swshift (asU3_eq v)),
      decode_fieldFid .swbase (c := .ch5) rfl (congrArg Instr.swbase (asBool_eq v)),
      decode_fieldFid .modrpt (c := .ch5) rfl (congrArg Instr.modrpt (asBool_eq v))⟩,
    fun s => ⟨fun _ => ⟨_, rfl, s.onBlock_modSweep_registers _⟩, fun _ => ⟨_, rfl, s.onBlock_modSweep_registers _⟩,
      fun _ => ⟨_, rfl, s.onBlock_modSweep_registers _⟩, fun _ => ⟨_, rfl, s.onBlock_modSweep_registers _⟩,
      fun _ => ⟨_, rfl, s.onBlock_modSweep_registers _⟩, fun _ => ⟨_, rfl, s.onBlock_modSweep_registers _⟩,
      fun _ => ⟨_, rfl, s.onBlock_modSweep_registers _⟩⟩⟩

/-- The buffers after MODFREQ, by the parameter that names its targets (R90). -/
def SweepRegs.loadFreq (target : ModfreqTarget) (v : BitVec 16) (w : SweepRegs) : SweepRegs :=
  { w with
    modFreq := if target = .next then w.modFreq else v
    nextModFreq := if target = .current then w.nextModFreq else v }

theorem exec_modfreq (v : BitVec 16) (s : State) :
    exec (.modfreq v) s = .next (s.onBlock fun b => b.modSweep (SweepRegs.loadFreq s.cfg.modfreqTarget v)) := by
  show execModfreq v s = _
  unfold execModfreq
  cases s.cfg.modfreqTarget <;> rfl

/-- Settles O16: MODFREQ is `SweepRegs.loadFreq` on the sweep/modulation registers. -/
theorem modfreqLoadsItsTargets : Obligations.ModfreqLoadsItsTargets :=
  ⟨fun v => decode_fieldFid .modfreq (c := .ch5) rfl (congrArg Instr.modfreq (asU16_eq v)),
    fun v s => ⟨_, exec_modfreq v s, s.onBlock_modSweep_registers _⟩⟩

/-! ## Writes repeated (R50) -/

/-- Changes that agree on the block at hand give the same outcome. -/
theorem next_onBlock_congr {s : State} {f g : Block → Block} (h : f s.block = g s.block) :
    (.next (s.onBlock f) : Host.Outcome State Fault Refusal) = .next (s.onBlock g) := by
  rw [State.onBlock, State.onBlock, h]

/-- A command is idempotent if it is a change of the block that changes nothing the second time. -/
theorem exec_idem_of_onBlock {i : Instr} {s : State} {f : Block → Block} (he : exec i s = .next (s.onBlock f))
    (he' : exec i (s.onBlock f) = .next ((s.onBlock f).onBlock f)) (hf : f (f s.block) = f s.block) :
    ∃ t, exec i s = .next t ∧ exec i t = .next t :=
  ⟨_, he, he'.trans (next_onBlock_congr (s := s) (f := f ∘ f) hf)⟩

theorem Block.modChan_idem (b : Block) (c : Channel) {f : ChanRegs → ChanRegs} (h : ∀ r, f (f r) = f r) :
    (b.modChan c f).modChan c f = b.modChan c f := by
  cases c <;> simp [Block.modChan, Six.modify, h]

theorem Block.modWave_idem (b : Block) (w : WaveChannel) {f : WaveRegs → WaveRegs} (h : ∀ r, f (f r) = f r) :
    (b.modWave w f).modWave w f = b.modWave w f := by
  cases w <;> simp [Block.modWave, Five.modify, h]

/-- The same upload again stores what already stands there. -/
theorem Memory.writeFrom_idem {m : Memory} (h : m.wf) (a : Nat) (vs : List Byte) :
    (m.writeFrom a vs).writeFrom a vs = m.writeFrom a vs := by
  have hwf := Memory.writeFrom_wf h a vs
  refine Memory.ext_read (Memory.writeFrom_wf hwf a vs) hwf fun x => ?_
  by_cases hin : a ≤ x ∧ x < a + vs.length
  · obtain ⟨i, rfl⟩ := Nat.exists_eq_add_of_le hin.1
    have hi : i < vs.length := by omega
    rw [Memory.read_writeFrom hwf hi, Memory.read_writeFrom h hi]
  · exact Memory.read_writeFrom_outside _ (by omega)

theorem Block.writeWave_idem {b : Block} (h : b.wave.wf) (a : Nat) (vs : List Byte) :
    (b.writeWave a vs).writeWave a vs = b.writeWave a vs :=
  congrArg (fun m => { b with wave := m }) (Memory.writeFrom_idem h a vs)

theorem Block.writeModt_idem {b : Block} (h : b.modt.wf) (a : Nat) (vs : List Byte) :
    (b.writeModt a vs).writeModt a vs = b.writeModt a vs :=
  congrArg (fun m => { b with modt := m }) (Memory.writeFrom_idem h a vs)

/-- Restarting a channel that has just been restarted changes nothing (R71). -/
theorem Block.enable_idem (b : Block) (c : Channel) :
    ((((b.modChan c fun r => r.setOutEn true).retrigger c).modChan c fun r => r.setOutEn true).retrigger c) =
      (b.modChan c fun r => r.setOutEn true).retrigger c := by
  apply Block.ext_parts
  case hw | hm => simp [Block.retrigger_tables]
  case hi | he | hs | hsw => simp
  case hc => intro d; by_cases h : d = c <;> simp [h, ChanRegs.setOutEn]
  case hv => intro w; by_cases h : w.channel = c <;> simp [h]
  case hn => by_cases h : c = .ch6 <;> simp [h]

/-- Settles O56: every write but an upload sets its fields to values that do not depend on them; an upload stores the same
entries again. -/
theorem commandsAreIdempotent : Obligations.CommandsAreIdempotent := by
  intro i s hadv hwave hmodt
  cases i with
  | chen c en =>
    cases en with
    | false => exact exec_idem_of_onBlock rfl rfl (Block.modChan_idem _ c fun _ => rfl)
    | true => exact exec_idem_of_onBlock rfl rfl (Block.enable_idem _ c)
  | inten c en | enven c en =>
    exact exec_idem_of_onBlock rfl rfl (Block.modChan_idem _ c fun _ => by cases en <;> rfl)
  | intset c _ | envrld c _ | envdir c _ | envstp c _ | envrpt c _ | freq c _ | voll c _ | volr c _ =>
    exact exec_idem_of_onBlock rfl rfl (Block.modChan_idem _ c fun _ => rfl)
  | wavsel c v =>
    cases hc : c.wave? with
    | some w =>
      obtain rfl := wave?_eq_some hc
      exact exec_idem_of_onBlock (exec_wavsel w v s) (exec_wavsel w v _) (Block.modWave_idem _ w fun _ => rfl)
    | none =>
      obtain rfl := wave?_eq_none.mp hc
      exact ⟨s, rfl, rfl⟩
  | tap _ | swdir _ | swen _ | swfunc _ | swint _ | swshift _ | swbase _ | modrpt _ => exact ⟨_, rfl, rfl⟩
  | modfreq v =>
    refine exec_idem_of_onBlock (exec_modfreq v s) (exec_modfreq v _) ?_
    cases s.cfg.modfreqTarget <;> rfl
  | wavup t data => exact exec_idem_of_onBlock rfl rfl (Block.writeWave_idem hwave _ _)
  | modup data => exact exec_idem_of_onBlock rfl rfl (Block.writeModt_idem hmodt _ _)
  | advance n => exact absurd rfl (hadv n)

/-! ## Writes in either order (R167) -/

/-- Two writes in a row are one change of the block. -/
theorem execAll_pair {i j : Instr} {s : State} {f g : Block → Block} (hi : exec i s = .next (s.onBlock f))
    (hj : exec j (s.onBlock f) = .next ((s.onBlock f).onBlock g)) :
    execAll [i, j] s = .next (s.onBlock fun b => g (f b)) := by
  simp only [execAll, hi, hj]
  rfl

/-- What the sweep/modulation writes of R167 do to the unit. -/
def sweepWrite (target : ModfreqTarget) : Instr → SweepRegs → SweepRegs
  | .modfreq v => SweepRegs.loadFreq target v
  | .swen b => fun w => { w with swEn := b }
  | .swint v => fun w => { w with swInt := v }
  | .swshift v => fun w => { w with swShift := v }
  | .swdir b => fun w => { w with swUp := b }
  | .swfunc b => fun w => { w with swMod := b }
  | _ => id

section SweepWrites

variable {m : BitVec 16} {e d f : Bool} {n k : BitVec 3}

theorem exec_sweepWrite {i : Instr} (h : i ∈ [.modfreq m, .swen e, .swint n, .swshift k, .swdir d, .swfunc f])
    (s : State) : exec i s = .next (s.onBlock fun b => b.modSweep (sweepWrite s.cfg.modfreqTarget i)) := by
  simp only [List.mem_cons, List.not_mem_nil, or_false] at h
  obtain rfl | rfl | rfl | rfl | rfl | rfl := h
  · exact exec_modfreq m s
  all_goals rfl

/-- Two different ones write different fields, and MODFREQ reads the buffers it does not load only. -/
theorem sweepWrite_comm {i j : Instr} (hi : i ∈ [.modfreq m, .swen e, .swint n, .swshift k, .swdir d, .swfunc f])
    (hj : j ∈ [.modfreq m, .swen e, .swint n, .swshift k, .swdir d, .swfunc f]) (target : ModfreqTarget)
    (w : SweepRegs) : sweepWrite target j (sweepWrite target i w) = sweepWrite target i (sweepWrite target j w) := by
  simp only [List.mem_cons, List.not_mem_nil, or_false] at hi hj
  obtain rfl | rfl | rfl | rfl | rfl | rfl := hi <;> obtain rfl | rfl | rfl | rfl | rfl | rfl := hj <;> rfl

theorem execAll_sweepWrites_comm {i j : Instr}
    (hi : i ∈ [.modfreq m, .swen e, .swint n, .swshift k, .swdir d, .swfunc f])
    (hj : j ∈ [.modfreq m, .swen e, .swint n, .swshift k, .swdir d, .swfunc f]) (s : State) :
    execAll [i, j] s = execAll [j, i] s := by
  rw [execAll_pair (exec_sweepWrite hi s) (exec_sweepWrite hj _),
    execAll_pair (exec_sweepWrite hj s) (exec_sweepWrite hi _)]
  exact next_onBlock_congr
    (congrArg (fun w => s.block.modSweep fun _ => w) (sweepWrite_comm hi hj s.cfg.modfreqTarget s.block.sweep))

end SweepWrites

theorem Block.modChan_modChan (b : Block) (c : Channel) (f g : ChanRegs → ChanRegs) :
    (b.modChan c f).modChan c g = b.modChan c (g ∘ f) := by
  cases c <;> rfl

/-- ENVRLD and ENVEN(1) in either order leave reload and level at the value (R74, R78). -/
theorem execAll_envrld_enven (c : Channel) (v : BitVec 4) (s : State) : ∃ t,
    execAll [.envrld c v, .enven c true] s = .next t ∧ execAll [.enven c true, .envrld c v] s = .next t ∧
    (t.chan c).envReload = v ∧ (t.chan c).envLevel = v := by
  refine ⟨s.onBlock fun b => b.modChan c fun r => { r with envEn := true, envReload := v, envLevel := v }, ?_, ?_, ?_, ?_⟩
  · exact (execAll_pair rfl rfl).trans (next_onBlock_congr (Block.modChan_modChan s.block c _ _))
  · exact (execAll_pair rfl rfl).trans (next_onBlock_congr (Block.modChan_modChan s.block c _ _))
  · simp
  · simp

/-- Settles O57: each pair of writes on the registers it touches. -/
theorem writeOrder : Obligations.WriteOrder := by
  refine ⟨execAll_envrld_enven, fun c b s => ⟨_, _, rfl, ?_, rfl, ?_⟩, fun c s => ⟨_, rfl, ?_, ?_⟩,
    fun m e d f n k s i hi j hj => execAll_sweepWrites_comm hi hj s, fun v s => rfl⟩
  all_goals simp [State.chan, ChanRegs.setOutEn]

end Sys2Proof.Machine
end

section
/-! Isolation of channels 1 to 4: what two blocks must share for such a channel to play the same, and O58. -/

namespace Sys2Proof.Machine

/-- Two blocks share all that a channel 1 to 4 depends on: its registers, the slow dividers and the wavetables (R100). -/
structure Block.AgreeOn (w : WaveChannel) (b b' : Block) : Prop where
  chan : b'.chan w.channel = b.chan w.channel
  wave : b'.waveRegs w = b.waveRegs w
  intDiv : b'.intDiv = b.intDiv
  envDiv : b'.envDiv = b.envDiv
  tables : ∀ a, b'.readWave a = b.readWave a

/-- A cycle keeps the agreement: it reads nothing else for this channel. -/
theorem Block.AgreeOn.tick {w : WaveChannel} (hw : w ≠ .ch5) (p : Params) {b b' : Block} (h : Block.AgreeOn w b b') :
    Block.AgreeOn w (b.tick p) (b'.tick p) := by
  have hslow : b'.slowTicked p w.channel = b.slowTicked p w.channel := by
    rw [Block.slowTicked, Block.slowTicked, h.chan, h.intDiv, h.envDiv]
  have hreads (c : Block) (a : Nat) : (c.tick p).readWave a = c.readWave a :=
    congrArg (Memory.read · a) (c.tick_tables p).1
  obtain ⟨hint, henv, -⟩ := b.tick_dividers p
  obtain ⟨hint', henv', -⟩ := b'.tick_dividers p
  constructor
  case chan => rw [Block.tick_chan_standard p b hw, Block.tick_chan_standard p b' hw, hslow, h.chan]
  case wave => rw [Block.tick_waveRegs_standard p b hw, Block.tick_waveRegs_standard p b' hw, h.chan, h.wave]
  case intDiv => rw [hint, hint', h.intDiv]
  case envDiv => rw [henv, henv', h.envDiv]
  case tables => exact fun a => by rw [hreads, hreads, h.tables]

theorem Block.AgreeOn.iterate_tick {w : WaveChannel} (hw : w ≠ .ch5) (p : Params) {b b' : Block}
    (h : Block.AgreeOn w b b') (n : Nat) : Block.AgreeOn w ((Block.tick p)^[n] b) ((Block.tick p)^[n] b') := by
  induction n with
  | zero => exact h
  | succ n ih =>
    rw [Function.iterate_succ_apply', Function.iterate_succ_apply']
    exact ih.tick hw p

theorem Block.AgreeOn.contribution {w : WaveChannel} {b b' : Block} (h : Block.AgreeOn w b b')
    (vol : ChanRegs → BitVec 4) : b'.contribution vol w.channel = b.contribution vol w.channel := by
  have hsample : b'.waveSample w = b.waveSample w := by simp only [Block.waveSample, h.wave, h.tables]
  rw [Block.contribution, Block.contribution, Block.rawSample_channel, Block.rawSample_channel, hsample, h.chan]

/-- Settles O58: agreement on the channel lasts through the run, and gives equal contributions. -/
theorem standardChannelIsolation : Obligations.StandardChannelIsolation := by
  intro n w s s' hw hcfg hint henv htables hchan hwave
  have hagree : Block.AgreeOn w s.block s'.block := ⟨hchan, hwave, hint, henv, htables.wave⟩
  have hrun := hagree.iterate_tick hw s.cfg n.toNat
  have hstate : (s'.afterCycles n.toNat).block = (Block.tick s.cfg)^[n.toNat] s'.block := by
    rw [State.afterCycles_block, hcfg]
  refine ⟨_, _, exec_advance n s, exec_advance n s', ?_, ?_, fun vol => ?_⟩
  · rw [State.chan, hstate]; exact hrun.chan
  · rw [State.waveRegs, hstate]; exact hrun.wave
  · rw [hstate]; exact hrun.contribution vol

end Sys2Proof.Machine
end
